-- ==== Sys2Proof/Word.lean ====
section
/-! DEFINITION. The word types of HASHCORE (spec 00_scope.md R10): a byte is 8 bits, a word 32 or 64, all unsigned. -/

namespace Sys2Proof

/-- A byte (R12). -/
abbrev Byte := BitVec 8

/-- A 32-bit word (R7: MD5, SHA-1, SHA-224/256, BLAKE2s). -/
abbrev Word32 := BitVec 32

/-- A 64-bit word (R7: SHA-384/512, SHA-3, SHAKE, BLAKE2b) and the width of every argument register (R30). -/
abbrev Word64 := BitVec 64

end Sys2Proof
end

