-- ==== Sys2Proof/Syntax.lean ====
section
/-! DEFINITION. The syntax of HASHCORE: the algorithms (spec 30_encoding.md R113), their families (00_scope.md R16) and the
nine commands (30_encoding.md R112), one constructor per row of opcode_table.json. -/

namespace Sys2Proof

/-- The fourteen algorithms of R113. -/
inductive Alg where
  | md5 | sha1 | sha224 | sha256 | sha384 | sha512
  | sha3_224 | sha3_256 | sha3_384 | sha3_512
  | shake128 | shake256 | blake2s | blake2b
  deriving DecidableEq, Repr

/-- The families of R16 and R113. -/
inductive Family where
  | md5 | sha1 | sha256 | sha512 | sha3 | shake | blake2s | blake2b
  deriving DecidableEq, Repr

/-- The commands of R112. An `alg` operand is the ALG field, a `c` operand the CTX field zero-extended to a slot index
(R118); `Instr.WellFormed` bounds it by the field's eight bits. -/
inductive Instr where
  /-- 0x01: take the lowest free slot for a fresh context (R365). -/
  | alloc (alg : Alg)
  /-- 0x02: put a context back to its initial state (R366). -/
  | reset (c : Nat)
  /-- 0x03: absorb SRC_LEN message bytes (R367). -/
  | update (c : Nat)
  /-- 0x04: write the digest of what was absorbed so far (R370). -/
  | digest (c : Nat)
  /-- 0x05: write DST_LEN bytes of a SHAKE context's output (R371). -/
  | squeeze (c : Nat)
  /-- 0x06: deep-copy a context into the lowest free slot (R372). -/
  | copy (c : Nat)
  /-- 0x07: free a slot (R373). -/
  | release (c : Nat)
  /-- 0x08: hash a whole message (R410). -/
  | oneshot (alg : Alg)
  /-- 0x09: HMAC of a whole message (R415). -/
  | hmac (alg : Alg)
  deriving DecidableEq, Repr

end Sys2Proof
end

