-- ==== Sys2Proof/WellFormed.lean ====
section
/-! DEFINITION. Well-formed commands: the CTX operand fits its eight-bit field (spec 30_encoding.md R111, R118). An
algorithm operand is well formed by its type (R113). -/

namespace Sys2Proof

/-- R111: CTX is the field [23:16], so a slot index an instruction can name is 0..255. -/
def ctxFits (c : Nat) : Bool := decide (c ≤ 255)

/-- Some legal command word stands for the instruction (R117). -/
def Instr.wellFormed : Instr → Bool
  | .alloc _ => true
  | .reset c => ctxFits c
  | .update c => ctxFits c
  | .digest c => ctxFits c
  | .squeeze c => ctxFits c
  | .copy c => ctxFits c
  | .release c => ctxFits c
  | .oneshot _ => true
  | .hmac _ => true

end Sys2Proof
end

