-- ==== Sys2Proof/Decode.lean ====
section
/-! DEFINITION. The 32-bit command word (spec 30_encoding.md R110, R111): decoding, total on all words and rejecting by name
(R117), the encoder (R119) and the opcode table's match and mask (R114). -/

namespace Sys2Proof

/-- Why a command word does not decode (R117, R447). -/
inductive Illegal where
  /-- OPC is 0x00 or 0x0A..0xFF. -/
  | reservedOpcode
  /-- RSV is not 0. -/
  | reservedBits
  /-- ALG is 0x00 or 0x0F..0xFF in a command that uses ALG. -/
  | reservedAlg
  /-- CTX is not 0 in a command that does not use CTX. -/
  | ctxNotZero
  /-- ALG is not 0 in a command that does not use ALG. -/
  | algNotZero
  deriving DecidableEq, Repr

/-- The algorithm id of R113. -/
def algId : Alg → Nat
  | .md5 => 0x01
  | .sha1 => 0x02
  | .sha224 => 0x03
  | .sha256 => 0x04
  | .sha384 => 0x05
  | .sha512 => 0x06
  | .sha3_224 => 0x07
  | .sha3_256 => 0x08
  | .sha3_384 => 0x09
  | .sha3_512 => 0x0A
  | .shake128 => 0x0B
  | .shake256 => 0x0C
  | .blake2s => 0x0D
  | .blake2b => 0x0E

/-- The algorithm of an id; `none` for the reserved ids (R113). -/
def algOfId : Nat → Option Alg
  | 0x01 => some .md5
  | 0x02 => some .sha1
  | 0x03 => some .sha224
  | 0x04 => some .sha256
  | 0x05 => some .sha384
  | 0x06 => some .sha512
  | 0x07 => some .sha3_224
  | 0x08 => some .sha3_256
  | 0x09 => some .sha3_384
  | 0x0A => some .sha3_512
  | 0x0B => some .shake128
  | 0x0C => some .shake256
  | 0x0D => some .blake2s
  | 0x0E => some .blake2b
  | _ => none

/-- OPC, bits [7:0] (R111). -/
def fieldOpc (w : BitVec 32) : Nat := (w.extractLsb' 0 8).toNat

/-- ALG, bits [15:8] (R111). -/
def fieldAlg (w : BitVec 32) : Nat := (w.extractLsb' 8 8).toNat

/-- CTX, bits [23:16] (R111). -/
def fieldCtx (w : BitVec 32) : Nat := (w.extractLsb' 16 8).toNat

/-- RSV, bits [31:24] (R111). -/
def fieldRsv (w : BitVec 32) : Nat := (w.extractLsb' 24 8).toNat

/-- R117 for a command that uses ALG: RSV, then ALG, then CTX is checked. -/
def decodeAlgForm (make : Alg → Instr) (w : BitVec 32) : Except Illegal Instr :=
  if fieldRsv w ≠ 0 then .error .reservedBits
  else
    match algOfId (fieldAlg w) with
    | none => .error .reservedAlg
    | some alg => if fieldCtx w ≠ 0 then .error .ctxNotZero else .ok (make alg)

/-- R117 for a command that uses CTX: RSV, then ALG is checked; any CTX decodes. -/
def decodeCtxForm (make : Nat → Instr) (w : BitVec 32) : Except Illegal Instr :=
  if fieldRsv w ≠ 0 then .error .reservedBits
  else if fieldAlg w ≠ 0 then .error .algNotZero
  else .ok (make (fieldCtx w))

/-- R117: the decode of a command word, total on all 2^32 words. -/
def decode (w : BitVec 32) : Except Illegal Instr :=
  match fieldOpc w with
  | 0x01 => decodeAlgForm .alloc w
  | 0x02 => decodeCtxForm .reset w
  | 0x03 => decodeCtxForm .update w
  | 0x04 => decodeCtxForm .digest w
  | 0x05 => decodeCtxForm .squeeze w
  | 0x06 => decodeCtxForm .copy w
  | 0x07 => decodeCtxForm .release w
  | 0x08 => decodeAlgForm .oneshot w
  | 0x09 => decodeAlgForm .hmac w
  | _ => .error .reservedOpcode

/-- R119: the word of a line, `(n << 16) | (alg << 8) | OPC`. -/
def commandWord (opc alg c : Nat) : BitVec 32 :=
  BitVec.ofNat 32 (c <<< 16 ||| alg <<< 8 ||| opc)

/-- The command word of an instruction (R112, R119): the fields it does not use are 0. -/
def encode : Instr → BitVec 32
  | .alloc alg => commandWord 0x01 (algId alg) 0
  | .reset c => commandWord 0x02 0 c
  | .update c => commandWord 0x03 0 c
  | .digest c => commandWord 0x04 0 c
  | .squeeze c => commandWord 0x05 0 c
  | .copy c => commandWord 0x06 0 c
  | .release c => commandWord 0x07 0 c
  | .oneshot alg => commandWord 0x08 (algId alg) 0
  | .hmac alg => commandWord 0x09 (algId alg) 0

/-- One row of the opcode table (R114): a word w selects it iff `w &&& mask = value`. -/
structure Row where
  mnemonic : String
  value : BitVec 32
  mask : BitVec 32
  deriving DecidableEq, Repr

/-- The row of R114 an instruction belongs to. -/
def rowOf : Instr → Row
  | .alloc _ => ⟨"ALLOC", 0x00000001, 0xFFFF00FF⟩
  | .reset _ => ⟨"RESET", 0x00000002, 0xFF00FFFF⟩
  | .update _ => ⟨"UPDATE", 0x00000003, 0xFF00FFFF⟩
  | .digest _ => ⟨"DIGEST", 0x00000004, 0xFF00FFFF⟩
  | .squeeze _ => ⟨"SQUEEZE", 0x00000005, 0xFF00FFFF⟩
  | .copy _ => ⟨"COPY", 0x00000006, 0xFF00FFFF⟩
  | .release _ => ⟨"RELEASE", 0x00000007, 0xFF00FFFF⟩
  | .oneshot _ => ⟨"ONESHOT", 0x00000008, 0xFFFF00FF⟩
  | .hmac _ => ⟨"HMAC", 0x00000009, 0xFFFF00FF⟩

/-- R114: the word selects the row. -/
def selects (w : BitVec 32) (r : Row) : Prop := w &&& r.mask = r.value

/-- The instruction the decoder reads from the word w of nbits bits, higher bits 0 (R110: always 32 bits are taken). -/
def decodeTableWord (nbits w : Nat) : Option Instr :=
  (decode (BitVec.ofNat 32 (w % 2 ^ nbits))).toOption

end Sys2Proof
end

