-- ==== Sys2Proof/Machine/Words.lean ====
section
/-! DEFINITION. Word operators and the conversions between words and byte strings (spec 00_scope.md R11 to R13). -/

namespace Sys2Proof.Machine

/-- `ROTL_w(a, n)` for 0 ≤ n < w (R11). -/
def rotl {w : Nat} (a : BitVec w) (n : Nat) : BitVec w := (a <<< n) ||| (a >>> (w - n))

/-- `ROTR_w(a, n) = ROTL_w(a, w - n)` for 0 < n < w (R11). -/
def rotr {w : Nat} (a : BitVec w) (n : Nat) : BitVec w := rotl a (w - n)

/-- `zeros(n)` (R12). -/
def zeros (n : Nat) : List Byte := List.replicate n 0x00

/-- Bytewise xor of two strings of equal length (R12). -/
def xorBytes (s t : List Byte) : List Byte := List.zipWith (· ^^^ ·) s t

/-- Σ s[k]·2^(8k): a byte string as a little-endian integer (R13). -/
def leNat : List Byte → Nat
  | [] => 0
  | b :: s => b.toNat + 256 * leNat s

/-- A byte string as a big-endian integer (R13). -/
def beNat (s : List Byte) : Nat := leNat s.reverse

/-- `toLE(v, n)` (R13). -/
def toLE : Nat → Nat → List Byte
  | _, 0 => []
  | v, n + 1 => BitVec.ofNat 8 v :: toLE (v / 256) n

/-- `toBE(v, n)` (R13). -/
def toBE (v n : Nat) : List Byte := (toLE v n).reverse

/-- The bytes of the i-th w-bit word of a byte string (R13). -/
def wordBytes (w : Nat) (s : List Byte) (i : Nat) : List Byte := (s.drop (i * (w / 8))).take (w / 8)

/-- `LE_w(s, i)` (R13). -/
def leWord (w : Nat) (s : List Byte) (i : Nat) : BitVec w := BitVec.ofNat w (leNat (wordBytes w s i))

/-- `BE_w(s, i)` (R13). -/
def beWord (w : Nat) (s : List Byte) (i : Nat) : BitVec w := BitVec.ofNat w (beNat (wordBytes w s i))

/-- Word i of a list of words; 0 beyond its end, which no rule reads. -/
def wordAt {w : Nat} (h : List (BitVec w)) (i : Nat) : BitVec w := h.getD i 0

/-- Words serialised little-endian, in order (R323, R328). -/
def wordsLE {w : Nat} (h : List (BitVec w)) : List Byte := h.flatMap fun v => toLE v.toNat (w / 8)

/-- Words serialised big-endian, in order (R323). -/
def wordsBE {w : Nat} (h : List (BitVec w)) : List Byte := h.flatMap fun v => toBE v.toNat (w / 8)

end Sys2Proof.Machine
end

