-- ==== Sys2Proof/Machine/Sha2.lean ====
section
/-! DEFINITION. SHA-256/224 and SHA-512/384 compression (spec 42_sha2.md R200 to R212), once at width w over the parameters
of the two families. -/

namespace Sys2Proof.Machine

/-- The SHA-256 initial working state (R200). -/
def sha256Initial : List Word32 :=
  [0x6a09e667, 0xbb67ae85, 0x3c6ef372, 0xa54ff53a, 0x510e527f, 0x9b05688c, 0x1f83d9ab, 0x5be0cd19]

/-- The SHA-224 initial working state (R201). -/
def sha224Initial : List Word32 :=
  [0xc1059ed8, 0x367cd507, 0x3070dd17, 0xf70e5939, 0xffc00b31, 0x68581511, 0x64f98fa7, 0xbefa4fa4]

/-- The SHA-512 initial working state (R202). -/
def sha512Initial : List Word64 :=
  [0x6a09e667f3bcc908, 0xbb67ae8584caa73b, 0x3c6ef372fe94f82b, 0xa54ff53a5f1d36f1] ++
  [0x510e527fade682d1, 0x9b05688c2b3e6c1f, 0x1f83d9abfb41bd6b, 0x5be0cd19137e2179]

/-- The SHA-384 initial working state (R203). -/
def sha384Initial : List Word64 :=
  [0xcbbb9d5dc1059ed8, 0x629a292a367cd507, 0x9159015a3070dd17, 0x152fecd8f70e5939] ++
  [0x67332667ffc00b31, 0x8eb44a8768581511, 0xdb0c2e0d64f98fa7, 0x47b5481dbefa4fa4]

/-- `Ch` at width w (R205, R206). -/
def shaCh {w : Nat} (x y z : BitVec w) : BitVec w := (x &&& y) ^^^ (~~~x &&& z)

/-- `Maj` at width w (R205, R206). -/
def shaMaj {w : Nat} (x y z : BitVec w) : BitVec w := (x &&& y) ^^^ (x &&& z) ^^^ (y &&& z)

/-- Three rotations right, xored: the shape of Σ0 and Σ1 (R205, R206). -/
def bigSigma {w : Nat} (r1 r2 r3 : Nat) (x : BitVec w) : BitVec w := rotr x r1 ^^^ rotr x r2 ^^^ rotr x r3

/-- Two rotations right and a shift right, xored: the shape of σ0 and σ1 (R205, R206). -/
def smallSigma {w : Nat} (r1 r2 s : Nat) (x : BitVec w) : BitVec w := rotr x r1 ^^^ rotr x r2 ^^^ (x >>> s)

/-- K256 (R207). -/
def k256 : List Word32 :=
  [0x428a2f98, 0x71374491, 0xb5c0fbcf, 0xe9b5dba5, 0x3956c25b, 0x59f111f1, 0x923f82a4, 0xab1c5ed5] ++
  [0xd807aa98, 0x12835b01, 0x243185be, 0x550c7dc3, 0x72be5d74, 0x80deb1fe, 0x9bdc06a7, 0xc19bf174] ++
  [0xe49b69c1, 0xefbe4786, 0x0fc19dc6, 0x240ca1cc, 0x2de92c6f, 0x4a7484aa, 0x5cb0a9dc, 0x76f988da] ++
  [0x983e5152, 0xa831c66d, 0xb00327c8, 0xbf597fc7, 0xc6e00bf3, 0xd5a79147, 0x06ca6351, 0x14292967] ++
  [0x27b70a85, 0x2e1b2138, 0x4d2c6dfc, 0x53380d13, 0x650a7354, 0x766a0abb, 0x81c2c92e, 0x92722c85] ++
  [0xa2bfe8a1, 0xa81a664b, 0xc24b8b70, 0xc76c51a3, 0xd192e819, 0xd6990624, 0xf40e3585, 0x106aa070] ++
  [0x19a4c116, 0x1e376c08, 0x2748774c, 0x34b0bcb5, 0x391c0cb3, 0x4ed8aa4a, 0x5b9cca4f, 0x682e6ff3] ++
  [0x748f82ee, 0x78a5636f, 0x84c87814, 0x8cc70208, 0x90befffa, 0xa4506ceb, 0xbef9a3f7, 0xc67178f2]

/-- K512 (R208). -/
def k512 : List Word64 :=
  [0x428a2f98d728ae22, 0x7137449123ef65cd, 0xb5c0fbcfec4d3b2f, 0xe9b5dba58189dbbc] ++
  [0x3956c25bf348b538, 0x59f111f1b605d019, 0x923f82a4af194f9b, 0xab1c5ed5da6d8118] ++
  [0xd807aa98a3030242, 0x12835b0145706fbe, 0x243185be4ee4b28c, 0x550c7dc3d5ffb4e2] ++
  [0x72be5d74f27b896f, 0x80deb1fe3b1696b1, 0x9bdc06a725c71235, 0xc19bf174cf692694] ++
  [0xe49b69c19ef14ad2, 0xefbe4786384f25e3, 0x0fc19dc68b8cd5b5, 0x240ca1cc77ac9c65] ++
  [0x2de92c6f592b0275, 0x4a7484aa6ea6e483, 0x5cb0a9dcbd41fbd4, 0x76f988da831153b5] ++
  [0x983e5152ee66dfab, 0xa831c66d2db43210, 0xb00327c898fb213f, 0xbf597fc7beef0ee4] ++
  [0xc6e00bf33da88fc2, 0xd5a79147930aa725, 0x06ca6351e003826f, 0x142929670a0e6e70] ++
  [0x27b70a8546d22ffc, 0x2e1b21385c26c926, 0x4d2c6dfc5ac42aed, 0x53380d139d95b3df] ++
  [0x650a73548baf63de, 0x766a0abb3c77b2a8, 0x81c2c92e47edaee6, 0x92722c851482353b] ++
  [0xa2bfe8a14cf10364, 0xa81a664bbc423001, 0xc24b8b70d0f89791, 0xc76c51a30654be30] ++
  [0xd192e819d6ef5218, 0xd69906245565a910, 0xf40e35855771202a, 0x106aa07032bbd1b8] ++
  [0x19a4c116b8d2d0c8, 0x1e376c085141ab53, 0x2748774cdf8eeb99, 0x34b0bcb5e19b48a8] ++
  [0x391c0cb3c5c95a63, 0x4ed8aa4ae3418acb, 0x5b9cca4f7763e373, 0x682e6ff3d6b2b8a3] ++
  [0x748f82ee5defb2fc, 0x78a5636f43172f60, 0x84c87814a1f0ab72, 0x8cc702081a6439ec] ++
  [0x90befffa23631e28, 0xa4506cebde82bde9, 0xbef9a3f7b2c67915, 0xc67178f2e372532b] ++
  [0xca273eceea26619c, 0xd186b8c721c0c207, 0xeada7dd6cde0eb1e, 0xf57d4f7fee6ed178] ++
  [0x06f067aa72176fba, 0x0a637dc5a2c898a6, 0x113f9804bef90dae, 0x1b710b35131c471b] ++
  [0x28db77f523047d84, 0x32caab7b40c72493, 0x3c9ebe0a15c9bebc, 0x431d67c49c100d4c] ++
  [0x4cc5d4becb3e42b6, 0x597f299cfc657e2a, 0x5fcb6fab3ad6faec, 0x6c44198c4a475817]

/-- What the sha256 and sha512 families differ in: the four σ amounts, the round constants and the number of steps
(R205 to R209). -/
structure Sha2Family (w : Nat) where
  bigSigma0 : Nat × Nat × Nat
  bigSigma1 : Nat × Nat × Nat
  smallSigma0 : Nat × Nat × Nat
  smallSigma1 : Nat × Nat × Nat
  constants : List (BitVec w)
  steps : Nat

/-- The sha256 family (R205, R207, R209). -/
def sha256Family : Sha2Family 32 := ⟨(2, 13, 22), (6, 11, 25), (7, 18, 3), (17, 19, 10), k256, 64⟩

/-- The sha512 family (R206, R208, R209). -/
def sha512Family : Sha2Family 64 := ⟨(28, 34, 39), (14, 18, 41), (1, 8, 7), (19, 61, 6), k512, 80⟩

/-- Σ0 (R205, R206). -/
def sha2BigSigma0 {w : Nat} (p : Sha2Family w) (x : BitVec w) : BitVec w :=
  bigSigma p.bigSigma0.1 p.bigSigma0.2.1 p.bigSigma0.2.2 x

/-- Σ1 (R205, R206). -/
def sha2BigSigma1 {w : Nat} (p : Sha2Family w) (x : BitVec w) : BitVec w :=
  bigSigma p.bigSigma1.1 p.bigSigma1.2.1 p.bigSigma1.2.2 x

/-- σ0 (R205, R206). -/
def sha2SmallSigma0 {w : Nat} (p : Sha2Family w) (x : BitVec w) : BitVec w :=
  smallSigma p.smallSigma0.1 p.smallSigma0.2.1 p.smallSigma0.2.2 x

/-- σ1 (R205, R206). -/
def sha2SmallSigma1 {w : Nat} (p : Sha2Family w) (x : BitVec w) : BitVec w :=
  smallSigma p.smallSigma1.1 p.smallSigma1.2.1 p.smallSigma1.2.2 x

/-- One step of the message schedule: W[t] appended to W[0..t-1], t ≥ 16 (R209). -/
def sha2Extend {w : Nat} (p : Sha2Family w) (ws : List (BitVec w)) (t : Nat) : List (BitVec w) :=
  ws ++ [sha2SmallSigma1 p (wordAt ws (t - 2)) + wordAt ws (t - 7) + sha2SmallSigma0 p (wordAt ws (t - 15)) +
    wordAt ws (t - 16)]

/-- The whole message schedule of a block (R204, R209). -/
def sha2Schedule {w : Nat} (p : Sha2Family w) (m : List Byte) : List (BitVec w) :=
  (List.range' 16 (p.steps - 16)).foldl (sha2Extend p) ((List.range 16).map (beWord w m))

/-- The working variables of one compression (R210, R34). -/
structure Sha2Vars (w : Nat) where
  a : BitVec w
  b : BitVec w
  c : BitVec w
  d : BitVec w
  e : BitVec w
  f : BitVec w
  g : BitVec w
  h : BitVec w
  deriving DecidableEq, Repr

/-- Step t on the schedule W (R210). -/
def sha2Step {w : Nat} (p : Sha2Family w) (ws : List (BitVec w)) (v : Sha2Vars w) (t : Nat) : Sha2Vars w :=
  let t1 := v.h + sha2BigSigma1 p v.e + shaCh v.e v.f v.g + wordAt p.constants t + wordAt ws t
  let t2 := sha2BigSigma0 p v.a + shaMaj v.a v.b v.c
  ⟨t1 + t2, v.a, v.b, v.c, v.d + t1, v.e, v.f, v.g⟩

/-- `SHA256_Compress(H, M)` (R211) and `SHA512_Compress(H, M)` (R212): the steps and the feed-forward. -/
def sha2Compress {w : Nat} (p : Sha2Family w) (h : List (BitVec w)) (m : List Byte) : List (BitVec w) :=
  let v := (List.range p.steps).foldl (sha2Step p (sha2Schedule p m))
    ⟨wordAt h 0, wordAt h 1, wordAt h 2, wordAt h 3, wordAt h 4, wordAt h 5, wordAt h 6, wordAt h 7⟩
  [wordAt h 0 + v.a, wordAt h 1 + v.b, wordAt h 2 + v.c, wordAt h 3 + v.d,
   wordAt h 4 + v.e, wordAt h 5 + v.f, wordAt h 6 + v.g, wordAt h 7 + v.h]

end Sys2Proof.Machine
end

