-- ==== Sys2Proof/Machine/Blake2.lean ====
section
/-! DEFINITION. BLAKE2s and BLAKE2b compression (spec 44_blake2.md R280 to R289), once at width w over the parameters of the
two algorithms: unkeyed, sequential, full-length output (R288). -/

namespace Sys2Proof.Machine

/-- What BLAKE2s and BLAKE2b differ in: the IV (R280), the rotation amounts of G (R284), the rounds (R286) and the digest
length nn (R281). -/
structure Blake2Family (w : Nat) where
  iv : List (BitVec w)
  r1 : Nat
  r2 : Nat
  r3 : Nat
  r4 : Nat
  rounds : Nat
  nn : Nat

/-- BLAKE2s (R280, R284, R286): its IV is the SHA-256 IV. -/
def blake2sFamily : Blake2Family 32 := ⟨sha256Initial, 16, 12, 8, 7, 10, 32⟩

/-- BLAKE2b (R280, R284, R286): its IV is the SHA-512 IV. -/
def blake2bFamily : Blake2Family 64 := ⟨sha512Initial, 32, 24, 16, 63, 12, 64⟩

/-- The key length kk: HASHCORE always uses 0 (R281, R288). -/
def blake2KeyLen : Nat := 0

/-- The initial chaining value (R281): the parameter block's first word xored into h[0]. -/
def blake2Initial {w : Nat} (p : Blake2Family w) : List (BitVec w) :=
  p.iv.set 0 (wordAt p.iv 0 ^^^ 0x01010000 ^^^ (BitVec.ofNat w blake2KeyLen <<< 8) ^^^ BitVec.ofNat w p.nn)

/-- The message permutation σ (R283). -/
def blake2Sigma : List (List Nat) :=
  [[0, 1, 2, 3, 4, 5, 6, 7, 8, 9, 10, 11, 12, 13, 14, 15]] ++
  [[14, 10, 4, 8, 9, 15, 13, 6, 1, 12, 0, 2, 11, 7, 5, 3]] ++
  [[11, 8, 12, 0, 5, 2, 15, 13, 10, 14, 3, 6, 7, 1, 9, 4]] ++
  [[7, 9, 3, 1, 13, 12, 11, 14, 2, 6, 5, 10, 4, 0, 15, 8]] ++
  [[9, 0, 5, 7, 2, 4, 10, 15, 14, 1, 11, 12, 6, 8, 3, 13]] ++
  [[2, 12, 6, 10, 0, 11, 8, 3, 4, 13, 7, 5, 15, 14, 1, 9]] ++
  [[12, 5, 1, 15, 14, 13, 4, 10, 0, 7, 6, 3, 9, 2, 8, 11]] ++
  [[13, 11, 7, 14, 12, 1, 3, 9, 5, 0, 15, 4, 8, 6, 2, 10]] ++
  [[6, 15, 14, 9, 11, 3, 0, 8, 12, 2, 13, 7, 1, 4, 10, 5]] ++
  [[10, 2, 8, 4, 7, 6, 1, 5, 15, 11, 9, 14, 3, 12, 13, 0]]

/-- σ[r mod 10][k] (R283). -/
def blake2SigmaAt (r k : Nat) : Nat := (blake2Sigma.getD (r % 10) []).getD k 0

/-- The first half of G on (v[a], v[b], v[c], v[d]): add a message word, rotate by ra, then by rb (R284). -/
def blake2Half {w : Nat} (ra rb : Nat) (v : List (BitVec w)) (a b c d : Nat) (x : BitVec w) : List (BitVec w) :=
  let va := wordAt v a + wordAt v b + x
  let vd := rotr (wordAt v d ^^^ va) ra
  let vc := wordAt v c + vd
  let vb := rotr (wordAt v b ^^^ vc) rb
  (((v.set a va).set d vd).set c vc).set b vb

/-- G (R284): its two halves have the same shape, with message words x and y. -/
def blake2G {w : Nat} (p : Blake2Family w) (v : List (BitVec w)) (a b c d : Nat) (x y : BitVec w) : List (BitVec w) :=
  blake2Half p.r3 p.r4 (blake2Half p.r1 p.r2 v a b c d x) a b c d y

/-- The index quadruples of the eight G calls of a round, in order (R285). -/
def blake2Quads : List (Nat × Nat × Nat × Nat) :=
  [(0, 4, 8, 12), (1, 5, 9, 13), (2, 6, 10, 14), (3, 7, 11, 15)] ++
  [(0, 5, 10, 15), (1, 6, 11, 12), (2, 7, 8, 13), (3, 4, 9, 14)]

/-- The k-th G call of round r (R285). -/
def blake2Call {w : Nat} (p : Blake2Family w) (m : List (BitVec w)) (r : Nat) (v : List (BitVec w)) (k : Nat) :
    List (BitVec w) :=
  let q := blake2Quads.getD k (0, 0, 0, 0)
  blake2G p v q.1 q.2.1 q.2.2.1 q.2.2.2 (wordAt m (blake2SigmaAt r (2 * k))) (wordAt m (blake2SigmaAt r (2 * k + 1)))

/-- Round r (R285). -/
def blake2Round {w : Nat} (p : Blake2Family w) (m : List (BitVec w)) (v : List (BitVec w)) (r : Nat) : List (BitVec w) :=
  (List.range 8).foldl (blake2Call p m r) v

/-- The vector v before the rounds (R286): h, the IV with the counter t in v[12] and v[13], the last-block flag f0 in v[14];
v[15] is xored with the last-node flag f1, always 0. -/
def blake2Vector {w : Nat} (p : Blake2Family w) (h : List (BitVec w)) (t : Nat) (last : Bool) : List (BitVec w) :=
  (List.range 8).map (wordAt h) ++ (List.range 4).map (wordAt p.iv) ++
  [wordAt p.iv 4 ^^^ BitVec.ofNat w t, wordAt p.iv 5 ^^^ BitVec.ofNat w (t / 2 ^ w),
   if last then wordAt p.iv 6 ^^^ BitVec.allOnes w else wordAt p.iv 6, wordAt p.iv 7 ^^^ 0]

/-- The counter HASHCORE gives a compression after t bytes: its high word is always 0 (46_streaming.md R369, 90_conflicts.md
C4, which R286's remark on BLAKE2s gives way to), so it is t's low word (log entry 9). -/
def blake2Counter (w t : Nat) : Nat := t % 2 ^ w

/-- `BLAKE2_Compress(h, M, t, last)` (R286). -/
def blake2Compress {w : Nat} (p : Blake2Family w) (h : List (BitVec w)) (m : List Byte) (t : Nat) (last : Bool) :
    List (BitVec w) :=
  let v := (List.range p.rounds).foldl (blake2Round p ((List.range 16).map (leWord w m))) (blake2Vector p h t last)
  (List.range 8).map fun i => wordAt h i ^^^ wordAt v i ^^^ wordAt v (i + 8)

end Sys2Proof.Machine
end

