-- ==== Sys2Proof/Machine/Keccak.lean ====
section
/-! DEFINITION. The SHA-3/Keccak permutation, absorb and state extraction (spec 43_keccak.md R240 to R249). -/

namespace Sys2Proof.Machine

/-- The initial working state: every lane 0 (R240). -/
def keccakInitial : List Word64 := List.replicate 25 0

/-- The 25 lanes with lane x + 5y given by `f x y` (R240). -/
def keccakLanes (f : Nat → Nat → Word64) : List Word64 := (List.range 25).map fun i => f (i % 5) (i / 5)

/-- Lane A[x + 5y] (R240). -/
def lane (a : List Word64) (x y : Nat) : Word64 := wordAt a (x + 5 * y)

/-- θ's column parity C[x] (R241). -/
def keccakParity (a : List Word64) (x : Nat) : Word64 := lane a x 0 ^^^ lane a x 1 ^^^ lane a x 2 ^^^ lane a x 3 ^^^ lane a x 4

/-- θ (R241). -/
def keccakTheta (a : List Word64) : List Word64 :=
  let c := (List.range 5).map (keccakParity a)
  let d := (List.range 5).map fun x => wordAt c ((x + 4) % 5) ^^^ rotl (wordAt c ((x + 1) % 5)) 1
  keccakLanes fun x y => lane a x y ^^^ wordAt d x

/-- ρ's offsets r[x][y], one row per x (R242). -/
def keccakOffsets : List (List Nat) :=
  [[0, 36, 3, 41, 18], [1, 44, 10, 45, 2], [62, 6, 43, 15, 61], [28, 55, 25, 21, 56], [27, 20, 39, 8, 14]]

/-- The offset r[x][y] (R242). -/
def keccakOffset (x y : Nat) : Nat := (keccakOffsets.getD x []).getD y 0

/-- ρ (R242). -/
def keccakRho (a : List Word64) : List Word64 := keccakLanes fun x y => rotl (lane a x y) (keccakOffset x y)

/-- π, in the form A'[x + 5y] = A[((x + 3y) mod 5) + 5x] (R243). -/
def keccakPi (a : List Word64) : List Word64 := keccakLanes fun x y => lane a ((x + 3 * y) % 5) x

/-- χ (R244). -/
def keccakChi (a : List Word64) : List Word64 :=
  keccakLanes fun x y => lane a x y ^^^ (~~~(lane a ((x + 1) % 5) y) &&& lane a ((x + 2) % 5) y)

/-- The round constants RC (R245). -/
def keccakRC : List Word64 :=
  [0x0000000000000001, 0x0000000000008082, 0x800000000000808a, 0x8000000080008000] ++
  [0x000000000000808b, 0x0000000080000001, 0x8000000080008081, 0x8000000000008009] ++
  [0x000000000000008a, 0x0000000000000088, 0x0000000080008009, 0x000000008000000a] ++
  [0x000000008000808b, 0x800000000000008b, 0x8000000000008089, 0x8000000000008003] ++
  [0x8000000000008002, 0x8000000000000080, 0x000000000000800a, 0x800000008000000a] ++
  [0x8000000080008081, 0x8000000000008080, 0x0000000080000001, 0x8000000080008008]

/-- ι in round ir (R245). -/
def keccakIota (a : List Word64) (ir : Nat) : List Word64 := a.set 0 (lane a 0 0 ^^^ wordAt keccakRC ir)

/-- One round (R246). -/
def keccakRound (a : List Word64) (ir : Nat) : List Word64 :=
  keccakIota (keccakChi (keccakPi (keccakRho (keccakTheta a)))) ir

/-- Keccak-f[1600] (R246): 24 rounds. -/
def keccakF (a : List Word64) : List Word64 := (List.range 24).foldl keccakRound a

/-- The first step of the absorb (R247): the block's lanes xored into the first B/8 lanes, B the block's length. -/
def keccakXorBlock (a : List Word64) (m : List Byte) : List Word64 :=
  keccakLanes fun x y =>
    if x + 5 * y < m.length / 8 then lane a x y ^^^ leWord 64 m (x + 5 * y) else lane a x y

/-- `Keccak_Absorb(A, M)` (R247). -/
def keccakAbsorb (a : List Word64) (m : List Byte) : List Word64 := keccakF (keccakXorBlock a m)

/-- `StateBytes(A, n)`, n ≤ 200 (R240, R248). -/
def stateBytes (a : List Word64) (n : Nat) : List Byte := (wordsLE a).take n

end Sys2Proof.Machine
end

