-- ==== Sys2Proof/Machine/Md5.lean ====
section
/-! DEFINITION. MD5 compression (spec 40_md5.md R150 to R161). -/

namespace Sys2Proof.Machine

/-- The initial working state (R150). -/
def md5Initial : List Word32 := [0x67452301, 0xEFCDAB89, 0x98BADCFE, 0x10325476]

/-- Round 1 (R152). -/
def md5F (x y z : Word32) : Word32 := (x &&& y) ||| (~~~x &&& z)

/-- Round 2 (R153). -/
def md5G (x y z : Word32) : Word32 := (x &&& z) ||| (y &&& ~~~z)

/-- Round 3 (R154). -/
def md5H (x y z : Word32) : Word32 := x ^^^ y ^^^ z

/-- Round 4 (R155). -/
def md5I (x y z : Word32) : Word32 := y ^^^ (x ||| ~~~z)

/-- The additive constants T (R156). -/
def md5T : List Word32 :=
  [0xd76aa478, 0xe8c7b756, 0x242070db, 0xc1bdceee, 0xf57c0faf, 0x4787c62a, 0xa8304613, 0xfd469501] ++
  [0x698098d8, 0x8b44f7af, 0xffff5bb1, 0x895cd7be, 0x6b901122, 0xfd987193, 0xa679438e, 0x49b40821] ++
  [0xf61e2562, 0xc040b340, 0x265e5a51, 0xe9b6c7aa, 0xd62f105d, 0x02441453, 0xd8a1e681, 0xe7d3fbc8] ++
  [0x21e1cde6, 0xc33707d6, 0xf4d50d87, 0x455a14ed, 0xa9e3e905, 0xfcefa3f8, 0x676f02d9, 0x8d2a4c8a] ++
  [0xfffa3942, 0x8771f681, 0x6d9d6122, 0xfde5380c, 0xa4beea44, 0x4bdecfa9, 0xf6bb4b60, 0xbebfbc70] ++
  [0x289b7ec6, 0xeaa127fa, 0xd4ef3085, 0x04881d05, 0xd9d4d039, 0xe6db99e5, 0x1fa27cf8, 0xc4ac5665] ++
  [0xf4292244, 0x432aff97, 0xab9423a7, 0xfc93a039, 0x655b59c3, 0x8f0ccc92, 0xffeff47d, 0x85845dd1] ++
  [0x6fa87e4f, 0xfe2ce6e0, 0xa3014314, 0x4e0811a1, 0xf7537e82, 0xbd3af235, 0x2ad7d2bb, 0xeb86d391]

/-- The four rotation amounts of each round (R157). -/
def md5RoundShifts : List (List Nat) := [[7, 12, 17, 22], [5, 9, 14, 20], [4, 11, 16, 23], [6, 10, 15, 21]]

/-- The rotation amount S[i] (R157). -/
def md5S (i : Nat) : Nat := (md5RoundShifts.getD (i / 16) []).getD (i % 4) 0

/-- The message index g(i) (R158). -/
def md5Index (i : Nat) : Nat :=
  if i ≤ 15 then i
  else if i ≤ 31 then (5 * i + 1) % 16
  else if i ≤ 47 then (3 * i + 5) % 16
  else 7 * i % 16

/-- The round function of step i (R159). -/
def md5Fun (i : Nat) : Word32 → Word32 → Word32 → Word32 :=
  if i ≤ 15 then md5F else if i ≤ 31 then md5G else if i ≤ 47 then md5H else md5I

/-- The working variables of one compression (R159, R34). -/
structure Md5Vars where
  a : Word32
  b : Word32
  c : Word32
  d : Word32
  deriving DecidableEq, Repr

/-- Step i on message words X (R159). -/
def md5Step (x : List Word32) (v : Md5Vars) (i : Nat) : Md5Vars :=
  let tmp := v.a + md5Fun i v.b v.c v.d + wordAt x (md5Index i) + wordAt md5T i
  ⟨v.d, v.b + rotl tmp (md5S i), v.b, v.c⟩

/-- The sixteen message words of a block (R151). -/
def md5Words (m : List Byte) : List Word32 := (List.range 16).map (leWord 32 m)

/-- `MD5_Compress(H, M)` (R160): 64 steps (R161) and the feed-forward. -/
def md5Compress (h : List Word32) (m : List Byte) : List Word32 :=
  let v := (List.range 64).foldl (md5Step (md5Words m)) ⟨wordAt h 0, wordAt h 1, wordAt h 2, wordAt h 3⟩
  [wordAt h 0 + v.a, wordAt h 1 + v.b, wordAt h 2 + v.c, wordAt h 3 + v.d]

end Sys2Proof.Machine
end

