-- ==== Sys2Proof/Machine/Sha1.lean ====
section
/-! DEFINITION. SHA-1 compression (spec 41_sha1.md R180 to R186). -/

namespace Sys2Proof.Machine

/-- The initial working state (R180). -/
def sha1Initial : List Word32 := [0x67452301, 0xEFCDAB89, 0x98BADCFE, 0x10325476, 0xC3D2E1F0]

/-- One step of the message schedule: W[t] appended to W[0..t-1], t ≥ 16 (R182). -/
def sha1Extend (ws : List Word32) (t : Nat) : List Word32 :=
  ws ++ [rotl (wordAt ws (t - 3) ^^^ wordAt ws (t - 8) ^^^ wordAt ws (t - 14) ^^^ wordAt ws (t - 16)) 1]

/-- W[0..79] of a block (R181, R182). -/
def sha1Schedule (m : List Byte) : List Word32 :=
  (List.range' 16 64).foldl sha1Extend ((List.range 16).map (beWord 32 m))

/-- The step function f_t (R183). -/
def sha1Fun (t : Nat) (b c d : Word32) : Word32 :=
  if t ≤ 19 then (b &&& c) ^^^ (~~~b &&& d)
  else if t ≤ 39 then b ^^^ c ^^^ d
  else if t ≤ 59 then (b &&& c) ^^^ (b &&& d) ^^^ (c &&& d)
  else b ^^^ c ^^^ d

/-- The constant K_t (R184). -/
def sha1K (t : Nat) : Word32 :=
  if t ≤ 19 then 0x5A827999 else if t ≤ 39 then 0x6ED9EBA1 else if t ≤ 59 then 0x8F1BBCDC else 0xCA62C1D6

/-- The working variables of one compression (R185, R34). -/
structure Sha1Vars where
  a : Word32
  b : Word32
  c : Word32
  d : Word32
  e : Word32
  deriving DecidableEq, Repr

/-- Step t on the schedule W (R185). -/
def sha1Step (ws : List Word32) (v : Sha1Vars) (t : Nat) : Sha1Vars :=
  let tmp := rotl v.a 5 + sha1Fun t v.b v.c v.d + v.e + sha1K t + wordAt ws t
  ⟨tmp, v.a, rotl v.b 30, v.c, v.d⟩

/-- `SHA1_Compress(H, M)` (R186): 80 steps and the feed-forward. -/
def sha1Compress (h : List Word32) (m : List Byte) : List Word32 :=
  let v := (List.range 80).foldl (sha1Step (sha1Schedule m))
    ⟨wordAt h 0, wordAt h 1, wordAt h 2, wordAt h 3, wordAt h 4⟩
  [wordAt h 0 + v.a, wordAt h 1 + v.b, wordAt h 2 + v.c, wordAt h 3 + v.d, wordAt h 4 + v.e]

end Sys2Proof.Machine
end

