-- ==== Sys2Proof/Config.lean ====
section
/-! DEFINITION. What the platform fixes (spec 00_scope.md R7: NCTX and MemOK) at its reference value for `State.reset`,
and the free values of the per-byte draws (spec 70_reset_and_hazards.md R494 to R497). -/

namespace Sys2Proof.Config

/-- NCTX's reference value (R7: "this spec's reference value is 16"). It only shapes `State.reset`: every statement is
about states with any number of slots. -/
def referenceNctx : Nat := 16

/-- Base and size of the one window of host memory that the reset state's platform admits: all 2^64 bytes.
DESIGN CHOICE (log entry 3): R81 leaves MemOK to the platform. -/
def referenceWindow : Nat × Nat := (0, 18446744073709551616)

/-- R495, a free value: which of the values an input byte held during a command the command uses. The first argument is
the draw occasion (State.draws), the second the byte's address. It has no body, so nothing can be proved of its value. -/
opaque inputDraw : Nat → Nat → Nat

/-- R497, a free value: whether a byte of the output range that HOST wrote during the command keeps HOST's value. -/
opaque outputDraw : Nat → Nat → Bool

/-- R496, a free value: whether a HOST read of an output byte of the running command shows the command's value. The first
argument is the occasion of HOST's reads (State.looks). -/
opaque observeDraw : Nat → Nat → Bool

/-- R494, a free value: whether an output byte of a command abandoned by device reset holds the command's value or the one
it had before the command. -/
opaque abandonDraw : Nat → Nat → Bool

end Sys2Proof.Config
end

