-- ==== Sys2Proof/Machine/State.lean ====
section
/-! DEFINITION. The whole state of HASHCORE (spec 10_state.md R49), host memory (20_memory.md R80), what the platform admits
(R81), and the agenda of HOST and ENGINE steps (R87); the status codes (30_encoding.md R116); reset (70_reset_and_hazards.md
R490, R491). -/

namespace Sys2Proof.Machine

/-- The eight status codes of R116. Their numbers are `codeNumber`. -/
inductive StatusCode where
  | success | invalidAlgorithm | invalidLength | maximumLengthExceeded | outOfMemory
  | illegalCommand | invalidContext | busError
  deriving DecidableEq, Repr

/-- The six argument registers (R30, R42). -/
structure ArgRegs where
  srcAddr : Word64
  srcLen : Word64
  keyAddr : Word64
  keyLen : Word64
  dstAddr : Word64
  dstLen : Word64
  deriving DecidableEq, Repr

/-- The fields of STATUS (R33, R49). The register's 64-bit value is `statusWord`; its other bits always read 0. -/
structure Status where
  code : BitVec 8
  busy : Bool
  done : Bool
  overrun : Bool
  resultCtx : BitVec 8
  deriving DecidableEq, Repr

/-- LATCH's record (R45): the command word and the argument registers as they were at acceptance. -/
structure Latch where
  word : BitVec 32
  args : ArgRegs
  deriving DecidableEq, Repr

/-- A working state H (R37): a list of words of the family's width. -/
inductive Working where
  | w32 (h : List Word32)
  | w64 (h : List Word64)
  deriving DecidableEq, Repr

/-- A context record (R35): what a slot holds while it is taken. `buf` holds exactly the pending bytes (R41). -/
structure Context where
  alg : Alg
  H : Working
  totalLen : Word64
  buf : List Byte
  deriving DecidableEq, Repr

/-- Host memory (R80), sparse: (address, byte) pairs with strictly rising addresses, none equal to `unlistedByte`. -/
abbrev Memory := List Host.Cell

/-- A run of host addresses: base and size in bytes. -/
structure Span where
  base : Nat
  size : Nat
  deriving DecidableEq, Repr

/-- The platform's MemOK (R7, R81) as plain data: an n-byte range is admitted when it lies in one window and is none of
the refused ranges. Every predicate on ranges of the address space is that of some such record
(`Laws.platform_represents`). -/
structure Platform where
  windows : List Span
  refused : List Span
  deriving DecidableEq, Repr

/-- A HOST step (R87) or a HOST loop or check over STATUS (R120). -/
inductive HostOp where
  /-- A register read of `width` bits at a byte offset (R30, R31). -/
  | regRead (width offset : Nat)
  /-- A register write of `width` bits at a byte offset (R30, R31). -/
  | regWrite (width offset : Nat) (value : Word64)
  /-- A host-memory byte read. -/
  | memRead (addr : Word64)
  /-- A host-memory byte write. -/
  | memWrite (addr : Word64) (value : Byte)
  /-- WAIT: read STATUS until BUSY = 0 (R120). -/
  | wait
  /-- EXPECT: read STATUS; the program is in error unless CODE is this (R120). -/
  | expect (code : StatusCode)
  deriving DecidableEq, Repr

/-- One entry of the interleaving (R87): a HOST step, the ENGINE step (R361), or the platform's reset input (R490). -/
inductive Event where
  | host (op : HostOp)
  | engine
  | deviceReset
  deriving DecidableEq, Repr

/-- Where the command in flight takes its input bytes once HOST has seen a byte of its output: host memory and the values
HOST had overwritten, as they were then. So the output HOST saw is the one the command writes (R496). -/
structure InputView where
  mem : Memory
  held : List Host.Cell
  deriving DecidableEq, Repr

/-- The state. The first five fields are R49's; `mem` is host memory (R80) and `platform` its admission predicate (R81).
The last six are the model's own (log entries 4, 5): `agenda` is the rest of the interleaving R87 leaves free, `readData`
what HOST's last read returned, `held` the values HOST has overwritten while a command is in flight (R494, R495, R497), `view`
what its inputs are read from once HOST has seen its output (R496), `draws` the command's draw occasion (R494, R495, R497)
and `looks` that of HOST's reads (R496). NCTX is the number of slots. -/
structure State where
  regs : ArgRegs
  irqEn : Bool
  status : Status
  latch : Option Latch
  ctx : List (Option Context)
  mem : Memory
  platform : Platform
  agenda : List Event
  readData : Word64
  held : List Host.Cell
  view : Option InputView
  draws : Nat
  looks : Nat
  deriving DecidableEq, Repr

/-- Why a run stops. HASHCORE itself never stops (R440); HOST's program can be in error (R120). -/
inductive Fault where
  /-- HOST's EXPECT read a STATUS.CODE other than the one it names (R120, "the program is in error"). Raised by the HOST
  operation `expect` only, never by a command. Safe: the run stops where the spec's program is in error. -/
  | expectFailed (expected : StatusCode) (found : BitVec 8)
  deriving DecidableEq, Repr

/-- Why an instruction has no meaning. -/
inductive Refusal where
  /-- An arm of `exec` not modelled yet. Raised by no arm of this model. Safe: the run stops. -/
  | notModelled (mnemonic : String)
  deriving DecidableEq, Repr

/-- All six argument registers 0 (R491). -/
def ArgRegs.zero : ArgRegs := ⟨0, 0, 0, 0, 0, 0⟩

/-- STATUS 0 (R491). -/
def Status.zero : Status := ⟨0, false, false, false, 0⟩

/-- Reset (R490, R491): every register 0, the interrupt masked, STATUS 0, ENGINE IDLE, every slot free. NCTX and MemOK are
the reference platform's (log entries 2, 3), no byte of host memory is listed (log entry 1), no step is on the agenda
(log entry 4), and the model's own fields are empty or 0 (log entry 5). -/
def State.reset : State where
  regs := ArgRegs.zero
  irqEn := false
  status := Status.zero
  latch := none
  ctx := List.replicate Config.referenceNctx none
  mem := []
  platform := ⟨[⟨Config.referenceWindow.1, Config.referenceWindow.2⟩], []⟩
  agenda := []
  readData := 0
  held := []
  view := none
  draws := 0
  looks := 0

end Sys2Proof.Machine
end

