-- ==== Sys2Proof/Machine/Algorithms.lean ====
section
/-! DEFINITION. The algorithm descriptor table (spec 30_encoding.md R113, 10_state.md R37, R48) and each algorithm's initial
working state. -/

namespace Sys2Proof.Machine

/-- The family of an algorithm (R113). -/
def algFamily : Alg → Family
  | .md5 => .md5
  | .sha1 => .sha1
  | .sha224 => .sha256
  | .sha256 => .sha256
  | .sha384 => .sha512
  | .sha512 => .sha512
  | .sha3_224 => .sha3
  | .sha3_256 => .sha3
  | .sha3_384 => .sha3
  | .sha3_512 => .sha3
  | .shake128 => .shake
  | .shake256 => .shake
  | .blake2s => .blake2s
  | .blake2b => .blake2b

/-- The block size or sponge rate B in bytes (R113). -/
def blockLen : Alg → Nat
  | .md5 => 64
  | .sha1 => 64
  | .sha224 => 64
  | .sha256 => 64
  | .sha384 => 128
  | .sha512 => 128
  | .sha3_224 => 144
  | .sha3_256 => 136
  | .sha3_384 => 104
  | .sha3_512 => 72
  | .shake128 => 168
  | .shake256 => 136
  | .blake2s => 64
  | .blake2b => 128

/-- The output size OUT in bytes (R113). SHAKE has none: 0 stands for the table's "none", and no rule reads it. -/
def outLen : Alg → Nat
  | .md5 => 16
  | .sha1 => 20
  | .sha224 => 28
  | .sha256 => 32
  | .sha384 => 48
  | .sha512 => 64
  | .sha3_224 => 28
  | .sha3_256 => 32
  | .sha3_384 => 48
  | .sha3_512 => 64
  | .shake128 => 0
  | .shake256 => 0
  | .blake2s => 32
  | .blake2b => 64

/-- MAXLEN in bytes (R113, R7): 2^61 - 1 for the 32-bit Merkle–Damgård families, 2^64 - 1 for the others. -/
def maxLen (alg : Alg) : Nat :=
  match algFamily alg with
  | .md5 => 2305843009213693951
  | .sha1 => 2305843009213693951
  | .sha256 => 2305843009213693951
  | .sha512 => 18446744073709551615
  | .sha3 => 18446744073709551615
  | .shake => 18446744073709551615
  | .blake2s => 18446744073709551615
  | .blake2b => 18446744073709551615

/-- The word width W (R7, R113). -/
def wordWidth (alg : Alg) : Nat :=
  match algFamily alg with
  | .md5 => 32
  | .sha1 => 32
  | .sha256 => 32
  | .sha512 => 64
  | .sha3 => 64
  | .shake => 64
  | .blake2s => 32
  | .blake2b => 64

/-- The number of words of H (R37, R113). -/
def wordCount (alg : Alg) : Nat :=
  match algFamily alg with
  | .md5 => 4
  | .sha1 => 5
  | .sha256 => 8
  | .sha512 => 8
  | .sha3 => 25
  | .shake => 25
  | .blake2s => 8
  | .blake2b => 8

/-- A lazy family holds its last block back (R39). -/
def isLazy (alg : Alg) : Bool :=
  match algFamily alg with
  | .blake2s => true
  | .blake2b => true
  | .md5 => false
  | .sha1 => false
  | .sha256 => false
  | .sha512 => false
  | .sha3 => false
  | .shake => false

/-- IV(alg), the initial working state (R365). -/
def initialH : Alg → Working
  | .md5 => .w32 md5Initial
  | .sha1 => .w32 sha1Initial
  | .sha224 => .w32 sha224Initial
  | .sha256 => .w32 sha256Initial
  | .sha384 => .w64 sha384Initial
  | .sha512 => .w64 sha512Initial
  | .sha3_224 => .w64 keccakInitial
  | .sha3_256 => .w64 keccakInitial
  | .sha3_384 => .w64 keccakInitial
  | .sha3_512 => .w64 keccakInitial
  | .shake128 => .w64 keccakInitial
  | .shake256 => .w64 keccakInitial
  | .blake2s => .w32 (blake2Initial blake2sFamily)
  | .blake2b => .w64 (blake2Initial blake2bFamily)

/-- The pending length p as a function of total_len (R39). -/
def pendingLen (alg : Alg) (total : Nat) : Nat :=
  if isLazy alg then (if total = 0 then 0 else (total - 1) % blockLen alg + 1) else total % blockLen alg

end Sys2Proof.Machine
end

