-- ==== Sys2Proof/Machine/Hash.lean ====
section
/-! DEFINITION. Contexts as records, apart from slots: absorbing bytes (spec 46_streaming.md R364, R368, R369), padding,
finalisation and output (45_padding.md R320 to R331), the one-shot hash and HMAC (47_oneshot_hmac.md R411 to R414). -/

namespace Sys2Proof.Machine

/-- A fresh context (R365, R366, R492). -/
def freshContext (alg : Alg) : Context := ⟨alg, initialH alg, 0, []⟩

/-- `Compress(k, M)` on an eager family (R364). The arms that keep H are no family's: H has the width of its family (R37),
and the lazy families compress by `compressLazy`. -/
def compressEager (alg : Alg) (h : Working) (m : List Byte) : Working :=
  match algFamily alg, h with
  | .md5, .w32 v => .w32 (md5Compress v m)
  | .sha1, .w32 v => .w32 (sha1Compress v m)
  | .sha256, .w32 v => .w32 (sha2Compress sha256Family v m)
  | .sha512, .w64 v => .w64 (sha2Compress sha512Family v m)
  | .sha3, .w64 v => .w64 (keccakAbsorb v m)
  | .shake, .w64 v => .w64 (keccakAbsorb v m)
  | _, _ => h

/-- The family's BLAKE2 compression after t bytes with the last-block flag (R286), the counter's high word 0 (R369, C4). H
has the family's width (R37). -/
def compressLazy (alg : Alg) (h : Working) (m : List Byte) (t : Nat) (last : Bool) : Working :=
  match algFamily alg, h with
  | .blake2s, .w32 v => .w32 (blake2Compress blake2sFamily v m (blake2Counter 32 t) last)
  | .blake2b, .w64 v => .w64 (blake2Compress blake2bFamily v m (blake2Counter 64 t) last)
  | _, _ => h

/-- The loop of R368 (keep = 0: while at least a block is left) and R369 (keep = 1: while strictly more than a block is
left): `f` takes each block off the front of the bytes, in order. The fuel bounds the rounds; the number of bytes is
always enough. Answers the last state and the bytes left. -/
def blockLoop {σ : Type} (b keep : Nat) (f : σ → List Byte → σ) : Nat → σ → List Byte → σ × List Byte
  | 0, st, s => (st, s)
  | fuel + 1, st, s =>
    if b + keep ≤ s.length then blockLoop b keep f fuel (f st (s.take b)) (s.drop b) else (st, s)

/-- One round of R369's loop: the counter grows by a block and the block is compressed with it, last = false. -/
def lazyRound (alg : Alg) (st : Working × Nat) (m : List Byte) : Working × Nat :=
  (compressLazy alg st.1 m (st.2 + blockLen alg) false, st.2 + blockLen alg)

/-- total_len after `n` more bytes (R38). -/
def addLen (total : Word64) (n : Nat) : Word64 := BitVec.ofNat 64 (total.toNat + n)

/-- `Absorb(k, data)` on an eager family (R368). -/
def absorbEager (k : Context) (data : List Byte) : Context :=
  let s := k.buf ++ data
  let r := blockLoop (blockLen k.alg) 0 (compressEager k.alg) s.length k.H s
  { k with H := r.1, totalLen := addLen k.totalLen data.length, buf := r.2 }

/-- `Absorb(k, data)` on a lazy family (R369). -/
def absorbLazy (k : Context) (data : List Byte) : Context :=
  let s := k.buf ++ data
  let r := blockLoop (blockLen k.alg) 1 (lazyRound k.alg) s.length (k.H, k.totalLen.toNat - k.buf.length) s
  { k with H := r.1.1, totalLen := addLen k.totalLen data.length, buf := r.2 }

/-- `Absorb(k, data)` (R367). -/
def absorb (k : Context) (data : List Byte) : Context :=
  if isLazy k.alg then absorbLazy k data else absorbEager k data

/-- The number nb of blocks Merkle–Damgård padding takes, for block size b and a length field of lf bytes (R320, R321). -/
def mdBlockCount (b lf p : Nat) : Nat := if p ≤ b - 1 - lf then 1 else 2

/-- The width LF of the length field in bytes (R85, R320, R321). -/
def lengthFieldLen (alg : Alg) : Nat := if algFamily alg = .sha512 then 16 else 8

/-- The length field (R320 to R322): the message length in bits, little-endian for MD5 and big-endian otherwise. -/
def lengthField (alg : Alg) (total : Nat) : List Byte :=
  if algFamily alg = .md5 then toLE (8 * total) (lengthFieldLen alg) else toBE (8 * total) (lengthFieldLen alg)

/-- The padded tail of a Merkle–Damgård message (R320, R321). -/
def mdTail (k : Context) : List Byte :=
  let b := blockLen k.alg
  let lf := lengthFieldLen k.alg
  let p := k.buf.length
  k.buf ++ 0x80 :: zeros (b * mdBlockCount b lf p - p - 1 - lf) ++ lengthField k.alg k.totalLen.toNat

/-- The working state after Merkle–Damgård padding (R320, R321). -/
def mdFinal (k : Context) : Working :=
  let b := blockLen k.alg
  (List.range (mdBlockCount b (lengthFieldLen k.alg) k.buf.length)).foldl
    (fun h j => compressEager k.alg h (((mdTail k).drop (b * j)).take b)) k.H

/-- The words of H as bytes: little-endian for MD5, SHA-3, SHAKE and BLAKE2, big-endian for SHA-1 and SHA-2 (R85, R323). -/
def serialise (alg : Alg) (h : Working) : List Byte :=
  match h with
  | .w32 v => if algFamily alg = .sha1 ∨ algFamily alg = .sha256 then wordsBE v else wordsLE v
  | .w64 v => if algFamily alg = .sha512 then wordsBE v else wordsLE v

/-- The sponge's domain-separation suffix (R325). -/
def spongeSuffix (alg : Alg) : Byte := if algFamily alg = .shake then 0x1F else 0x06

/-- The padded last block of a sponge message (R324): the suffix xored into byte p and 0x80 into byte B - 1. -/
def spongeBlock (k : Context) : List Byte :=
  let b := blockLen k.alg
  let p := k.buf.length
  let s := k.buf ++ zeros (b - p)
  let s := s.set p (s.getD p 0 ^^^ spongeSuffix k.alg)
  s.set (b - 1) (s.getD (b - 1) 0 ^^^ 0x80)

/-- The permutation on a working state (R246). -/
def permute (h : Working) : Working :=
  match h with
  | .w64 v => .w64 (keccakF v)
  | .w32 v => .w32 v

/-- `StateBytes(H, n)` (R248). -/
def spongeBytes (h : Working) (n : Nat) : List Byte :=
  match h with
  | .w64 v => stateBytes v n
  | .w32 v => (wordsLE v).take n

/-- The squeeze loop (R326): rate b, length l. The fuel bounds the output blocks; l is always enough. -/
def squeezeLoop (b l : Nat) : Nat → Working → List Byte → List Byte
  | 0, _, out => out.take l
  | fuel + 1, h, out =>
    let out' := out ++ spongeBytes h b
    if l ≤ out'.length then out'.take l else squeezeLoop b l fuel (permute h) out'

/-- The sponge's output of l bytes (R324, R326). -/
def spongeFinal (k : Context) (l : Nat) : List Byte :=
  squeezeLoop (blockLen k.alg) l l (compressEager k.alg k.H (spongeBlock k)) []

/-- BLAKE2's final block (R328, R329): the pending bytes, zero padded, with t = total_len and last = true. -/
def blake2Final (k : Context) : Working :=
  compressLazy k.alg k.H (k.buf ++ zeros (blockLen k.alg - k.buf.length)) k.totalLen.toNat true

/-- `Finalize(ctx, L)` (R330): the output of a context, which it does not change. L is read for SHAKE only. -/
def finalize (k : Context) (l : Nat) : List Byte :=
  match algFamily k.alg with
  | .md5 => (serialise k.alg (mdFinal k)).take (outLen k.alg)
  | .sha1 => (serialise k.alg (mdFinal k)).take (outLen k.alg)
  | .sha256 => (serialise k.alg (mdFinal k)).take (outLen k.alg)
  | .sha512 => (serialise k.alg (mdFinal k)).take (outLen k.alg)
  | .sha3 => spongeFinal k (outLen k.alg)
  | .shake => spongeFinal k l
  | .blake2s => (serialise k.alg (blake2Final k)).take (outLen k.alg)
  | .blake2b => (serialise k.alg (blake2Final k)).take (outLen k.alg)

/-- `Hash(alg, M)` on a transient context (R411). -/
def hashOf (alg : Alg) (m : List Byte) : List Byte := finalize (absorb (freshContext alg) m) (outLen alg)

/-- HMAC key normalisation (R412). -/
def hmacKeyBlock (alg : Alg) (key : List Byte) : List Byte :=
  if key.length ≤ blockLen alg then key ++ zeros (blockLen alg - key.length)
  else hashOf alg key ++ zeros (blockLen alg - outLen alg)

/-- A pad: the key block xored with a repeated byte, 0x36 for ipad and 0x5c for opad (R413). -/
def hmacPad (alg : Alg) (key : List Byte) (b : Byte) : List Byte :=
  xorBytes (hmacKeyBlock alg key) (List.replicate (blockLen alg) b)

/-- The nested digest (R414). -/
def hmacDigest (alg : Alg) (key msg : List Byte) : List Byte :=
  hashOf alg (hmacPad alg key 0x5c ++ hashOf alg (hmacPad alg key 0x36 ++ msg))

end Sys2Proof.Machine
end

