-- ==== Sys2Proof/Machine/Flags.lean ====
section
/-! DEFINITION. The status register's value and everything computed from its flags (spec 10_state.md R33, R44, R47;
30_encoding.md R116). HASHCORE has no arithmetic flags (R34). -/

namespace Sys2Proof.Machine

/-- The number of a status code (R116). -/
def codeNumber : StatusCode → BitVec 8
  | .success => 0x00
  | .invalidAlgorithm => 0x01
  | .invalidLength => 0x02
  | .maximumLengthExceeded => 0x03
  | .outOfMemory => 0x04
  | .illegalCommand => 0x10
  | .invalidContext => 0x11
  | .busError => 0x12

/-- A flag as a bit. -/
def flagBit (b : Bool) : BitVec 1 := if b then 1 else 0

/-- STATUS as HOST reads it (R33): reserved [63:24], RESULT_CTX [23:16], reserved [15:11], OVERRUN [10], DONE [9], BUSY [8],
CODE [7:0]. -/
def statusWord (st : Status) : Word64 :=
  (0 : BitVec 40) ++ st.resultCtx ++ (0 : BitVec 5) ++ flagBit st.overrun ++ flagBit st.done ++ flagBit st.busy ++ st.code

/-- IRQ_EN as HOST reads it (R43): bits [63:1] read 0. -/
def irqEnWord (en : Bool) : Word64 := (0 : BitVec 63) ++ flagBit en

/-- The highest algorithm id, CAPS [15:8] (R44). -/
def capsAlgorithms : BitVec 8 := 0x0E

/-- CAPS (R44): NCTX in [7:0], the highest algorithm id in [15:8], 0 above. -/
def capsWord (s : State) : Word64 := (0 : BitVec 48) ++ capsAlgorithms ++ BitVec.ofNat 8 s.ctx.length

/-- The interrupt line IRQ = DONE & IRQ_EN[0] (R47, R453): a level with no state of its own. -/
def irqLine (s : State) : Bool := s.status.done && s.irqEn

end Sys2Proof.Machine
end

