-- ==== Sys2Proof/Machine/Ops.lean ====
section
/-! DEFINITION. The shared operations: host memory (spec 20_memory.md R80, R83), the register block (10_state.md R30 to R32,
R42, R43), the command life cycle (46_streaming.md R360, R362) and device reset (70_reset_and_hazards.md R490). HASHCORE has
no trap entry or return (60_exceptions.md R455, R456): what takes its place is `complete`, the one way a command's status
is reported. -/

namespace Sys2Proof.Machine

/-! ### Host memory -/

/-- What an unlisted address reads as: 0. DESIGN CHOICE (log entry 1): R490 leaves host memory to HOST. -/
def unlistedByte : Byte := 0x00

/-- The canonical form of memory: addresses strictly rising, no entry equal to `unlistedByte`. -/
abbrev Memory.wf (m : Memory) : Prop :=
  m.Pairwise (fun x y => x.1 < y.1) ∧ ∀ c ∈ m, c.2 ≠ unlistedByte

/-- Every listed address is one of the 2^64 that exist (R80). -/
abbrev Memory.bounded (m : Memory) : Prop := ∀ c ∈ m, c.1 < 18446744073709551616

/-- The byte at an address (R80). -/
def readByte : Memory → Nat → Byte
  | [], _ => unlistedByte
  | (x, v) :: m, a => if a = x then v else readByte m a

/-- The entry for a byte in front of entries at higher addresses: none for `unlistedByte`. -/
def consByte (a : Nat) (b : Byte) (m : Memory) : Memory := if b = unlistedByte then m else (a, b) :: m

/-- Memory with one byte stored (R80), in canonical form. -/
def writeByte : Memory → Nat → Byte → Memory
  | [], a, b => consByte a b []
  | (x, v) :: m, a, b =>
    if a < x then consByte a b ((x, v) :: m)
    else if a = x then consByte a b m
    else (x, v) :: writeByte m a b

/-- `MemRead(addr, n)` (R14). -/
def readBytes (m : Memory) (a n : Nat) : List Byte := (List.range n).map fun k => readByte m (a + k)

/-- `MemWrite(addr, len(s), s)` (R14): s[k] at addr + k. -/
def writeBytes : Memory → Nat → List Byte → Memory
  | m, _, [] => m
  | m, a, b :: s => writeBytes (writeByte m a b) (a + 1) s

/-! ### The command life cycle -/

/-- The acceptance of a command word while IDLE (R360): the word and the argument registers are latched. -/
def latchCommand (s : State) (word : BitVec 32) : State :=
  { s with latch := some ⟨word, s.regs⟩, status := { s.status with busy := true, done := false } }

/-- A write to CMD (R32, R360, R449): accepted while IDLE, otherwise discarded with the sticky OVERRUN set. -/
def writeCmd (s : State) (v : Word64) : State :=
  match s.latch with
  | none => latchCommand s (v.setWidth 32)
  | some _ => { s with status := { s.status with overrun := true } }

/-- `Complete(code)` (R362). The command's draws end with it (R495 to R497): nothing is held or viewed any more and the draw
occasion moves on. -/
def complete (s : State) (code : StatusCode) : State :=
  { s with
    status := { s.status with code := codeNumber code, busy := false, done := true }
    latch := none
    held := []
    view := none
    draws := s.draws + 1 }

/-- A command's output: the bytes it writes, from an address on (R80). -/
structure Output where
  addr : Nat
  bytes : List Byte
  deriving DecidableEq, Repr

/-- The effects of a command that passed every check (R363): the slots, RESULT_CTX and the output. -/
structure Effect where
  ctx : List (Option Context)
  resultCtx : BitVec 8
  output : Option Output
  deriving DecidableEq, Repr

/-- HOST wrote the byte while the command in flight ran. -/
def heldAt (s : State) (a : Nat) : Bool := s.held.any fun c => c.1 == a

/-- R83, R497: the output bytes stored in order; a byte HOST wrote during the command keeps HOST's value or takes the
command's, a free choice for each byte. -/
def landBytes (s : State) : Memory → Nat → List Byte → Memory
  | m, _, [] => m
  | m, a, b :: bs =>
    landBytes s (if heldAt s a && Config.outputDraw s.draws a then m else writeByte m a b) (a + 1) bs

/-- Memory after a command's output, if it has one. -/
def landOutput (s : State) : Option Output → Memory
  | none => s.mem
  | some o => landBytes s s.mem o.addr o.bytes

/-- R361, R441: a failing command completes with its code and no other effect; a successful one performs its effects and
completes with Success. -/
def commit (s : State) : Except StatusCode Effect → State
  | .error code => complete s code
  | .ok e =>
    complete
      { s with
        ctx := e.ctx
        status := { s.status with resultCtx := e.resultCtx }
        mem := landOutput s e.output }
      .success

/-! ### The register block -/

/-- A register read by HOST (R30, R31): no side effect; unmapped offsets and widths other than 64 bits read 0. -/
def readReg (s : State) (width offset : Nat) : Word64 :=
  if width = 64 then
    match offset with
    | 0x00 => 0
    | 0x08 => statusWord s.status
    | 0x10 => s.regs.srcAddr
    | 0x18 => s.regs.srcLen
    | 0x20 => s.regs.keyAddr
    | 0x28 => s.regs.keyLen
    | 0x30 => s.regs.dstAddr
    | 0x38 => s.regs.dstLen
    | 0x40 => irqEnWord s.irqEn
    | 0x48 => capsWord s
    | _ => 0
  else 0

/-- A register write by HOST (R30, R31): unmapped offsets, widths other than 64 bits, STATUS and CAPS ignore it; IRQ_EN
takes bit 0 (R43); CMD starts a command (R32). -/
def writeReg (s : State) (width offset : Nat) (v : Word64) : State :=
  if width = 64 then
    match offset with
    | 0x00 => writeCmd s v
    | 0x10 => { s with regs := { s.regs with srcAddr := v } }
    | 0x18 => { s with regs := { s.regs with srcLen := v } }
    | 0x20 => { s with regs := { s.regs with keyAddr := v } }
    | 0x28 => { s with regs := { s.regs with keyLen := v } }
    | 0x30 => { s with regs := { s.regs with dstAddr := v } }
    | 0x38 => { s with regs := { s.regs with dstLen := v } }
    | 0x40 => { s with irqEn := v.getLsbD 0 }
    | _ => s
  else s

/-! ### HOST's memory accesses and device reset -/

/-- A byte written by HOST (R87). While a command is in flight, the value it replaces is held for the draws of R495 and
the address is known to R497. -/
def hostStore (s : State) (addr : Word64) (b : Byte) : State :=
  { s with
    mem := writeByte s.mem addr.toNat b
    held := match s.latch with
      | none => s.held
      | some _ => (addr.toNat, readByte s.mem addr.toNat) :: s.held }

/-- The values listed for an address, in order. -/
def valuesAt (held : List Host.Cell) (a : Nat) : List Byte := (held.filter fun c => c.1 == a).map (·.2)

/-- The values HOST has overwritten at an address while the command in flight ran, the latest first. -/
def heldValues (s : State) (a : Nat) : List Byte := valuesAt s.held a

/-- The byte an address held before the command in flight: the first that HOST overwrote, or memory's (R494). -/
def byteBefore (s : State) (a : Nat) : Byte := (heldValues s a).getLastD (readByte s.mem a)

/-- R494: what a byte that an abandoned command would have written holds afterwards: the command's value or the one before
the command, a free choice. -/
def abandonByte (s : State) (a : Nat) (b : Byte) : Byte := if Config.abandonDraw s.draws a then b else byteBefore s a

/-- R494: the bytes a command abandoned by reset would have written, a free choice for each. DESIGN CHOICE (log entry 15): a
byte of the output range that is in an input range of the command too is one of these, so it may change. -/
def abandonBytes (s : State) : Memory → Nat → List Byte → Memory
  | m, _, [] => m
  | m, a, b :: bs => abandonBytes s (writeByte m a (abandonByte s a b)) (a + 1) bs

/-- Memory after a reset that abandons a command with this output. -/
def abandonOutput (s : State) : Option Output → Memory
  | none => s.mem
  | some o => abandonBytes s s.mem o.addr o.bytes

/-- Device reset (R490, R494), given what the command in flight would have written. Host memory is otherwise kept; NCTX
and MemOK are the platform's and stay. -/
def deviceReset (s : State) (inFlight : Option Output) : State :=
  { s with
    regs := ArgRegs.zero
    irqEn := false
    status := Status.zero
    latch := none
    ctx := List.replicate s.ctx.length none
    mem := abandonOutput s inFlight
    held := []
    view := none
    draws := s.draws + 1 }

end Sys2Proof.Machine
end

