-- ==== Sys2Proof/Machine/Operands.lean ====
section
/-! DEFINITION. The operands of a command: the latched argument record (spec 30_encoding.md R115, 10_state.md R45), the slot a
CTX field names (60_exceptions.md R448), the lowest free slot (10_state.md R36), range admission (20_memory.md R81) and the
input bytes (R83, 70_reset_and_hazards.md R495). -/

namespace Sys2Proof.Machine

/-- The argument record of the command (R363, R45). With nothing latched, which no step meets, it is what acceptance would
latch (log entry 6). -/
def commandArgs (s : State) : ArgRegs :=
  match s.latch with
  | some l => l.args
  | none => s.regs

/-- The context in slot c; `none` when c ≥ NCTX or the slot is free (R35, R448). -/
def slot (s : State) (c : Nat) : Option Context := s.ctx.getD c none

/-- The lowest-numbered free slot (R36). -/
def freeSlot (s : State) : Option Nat := s.ctx.findIdx? Option.isNone

/-- A range lies in a window. -/
def inSpan (a n : Nat) (w : Span) : Bool := decide (w.base ≤ a) && decide (a + n ≤ w.base + w.size)

/-- `MemOK(addr, n)` of the platform (R7, R81). -/
def memOK (p : Platform) (a n : Nat) : Bool := p.windows.any (inSpan a n) && !p.refused.contains ⟨a, n⟩

/-- Range admission (R81): an empty range always; otherwise no byte past 2^64 and MemOK. -/
def admitted (p : Platform) (addr : Word64) (n : Nat) : Bool :=
  decide (n = 0) || (decide (addr.toNat + n ≤ 18446744073709551616) && memOK p addr.toNat n)

/-- What the command in flight reads its input from: host memory and the values HOST has overwritten, as they are now or,
once HOST has seen a byte of the command's output, as they were then (R495, R496). -/
def inputView (s : State) : InputView := s.view.getD ⟨s.mem, s.held⟩

/-- The byte a command uses at an address (R83, R495): memory's, or, where HOST wrote the byte during the command, a free
choice among the values it held. -/
def inputByte (s : State) (a : Nat) : Byte :=
  match valuesAt (inputView s).held a with
  | [] => readByte (inputView s).mem a
  | v :: vs =>
    (readByte (inputView s).mem a :: v :: vs).getD (Config.inputDraw s.draws a % (vs.length + 2)) unlistedByte

/-- The command's `MemRead(addr, n)` (R83). -/
def inputBytes (s : State) (addr : Word64) (n : Nat) : List Byte :=
  (List.range n).map fun k => inputByte s (addr.toNat + k)

/-- The effects of a command that only changes slots. -/
def slotEffect (s : State) (ctx : List (Option Context)) : Effect := ⟨ctx, s.status.resultCtx, none⟩

/-- The effects of a command that only writes output. -/
def outputEffect (s : State) (addr : Word64) (bytes : List Byte) : Effect :=
  ⟨s.ctx, s.status.resultCtx, some ⟨addr.toNat, bytes⟩⟩

/-- The effects of a command that fills slot n with a context and answers n in RESULT_CTX (R365, R372). -/
def newSlotEffect (s : State) (n : Nat) (k : Context) : Effect :=
  ⟨s.ctx.set n (some k), BitVec.ofNat 8 n, none⟩

end Sys2Proof.Machine
end

