-- ==== Sys2Proof/Machine/Oneshot.lean ====
section
/-! DEFINITION. ONESHOT and HMAC (spec 47_oneshot_hmac.md R410, R415): transient contexts, no slot, never OutOfMemory. The
checks stand in the order of 60_exceptions.md R451. -/

namespace Sys2Proof.Machine

/-- ONESHOT (R410): checks 3, 5 and 6, then the digest of the whole message. -/
def oneshotResult (alg : Alg) (s : State) : Except StatusCode Effect :=
  let a := commandArgs s
  if algFamily alg = .shake then .error .invalidAlgorithm
  else if maxLen alg < a.srcLen.toNat then .error .maximumLengthExceeded
  else if admitted s.platform a.srcAddr a.srcLen.toNat && admitted s.platform a.dstAddr (outLen alg) then
    .ok (outputEffect s a.dstAddr (hashOf alg (inputBytes s a.srcAddr a.srcLen.toNat)))
  else .error .busError

/-- ONESHOT. -/
def execOneshot (alg : Alg) (s : State) : Host.Outcome State Fault Refusal := .next (commit s (oneshotResult alg s))

/-- R445: the inner hash's input, or a key that has to be hashed, is longer than the algorithm admits. -/
def hmacTooLong (alg : Alg) (keyLen msgLen : Nat) : Bool :=
  decide (maxLen alg < blockLen alg + msgLen) || (decide (blockLen alg < keyLen) && decide (maxLen alg < keyLen))

/-- HMAC (R415, R416): checks 3, 5 and 6, then the MAC of the message under the key. -/
def hmacResult (alg : Alg) (s : State) : Except StatusCode Effect :=
  let a := commandArgs s
  if algFamily alg = .shake then .error .invalidAlgorithm
  else if hmacTooLong alg a.keyLen.toNat a.srcLen.toNat then .error .maximumLengthExceeded
  else if admitted s.platform a.keyAddr a.keyLen.toNat && admitted s.platform a.srcAddr a.srcLen.toNat &&
      admitted s.platform a.dstAddr (outLen alg) then
    .ok (outputEffect s a.dstAddr
      (hmacDigest alg (inputBytes s a.keyAddr a.keyLen.toNat) (inputBytes s a.srcAddr a.srcLen.toNat)))
  else .error .busError

/-- HMAC. -/
def execHmac (alg : Alg) (s : State) : Host.Outcome State Fault Refusal := .next (commit s (hmacResult alg s))

end Sys2Proof.Machine
end

