-- ==== Sys2Proof/Machine/Streaming.lean ====
section
/-! DEFINITION. The streaming commands ALLOC, RESET, UPDATE, DIGEST, SQUEEZE, COPY and RELEASE (spec 46_streaming.md R365 to
R373). Each has a result, its checks in the order of 60_exceptions.md R451 and its effects, and a meaning, the ENGINE step
that commits the result (R361). -/

namespace Sys2Proof.Machine

/-- ALLOC (R365): check 7 of R451, then a fresh context in the lowest free slot. -/
def allocResult (alg : Alg) (s : State) : Except StatusCode Effect :=
  match freeSlot s with
  | none => .error .outOfMemory
  | some n => .ok (newSlotEffect s n (freshContext alg))

/-- ALLOC. -/
def execAlloc (alg : Alg) (s : State) : Host.Outcome State Fault Refusal := .next (commit s (allocResult alg s))

/-- RESET (R366): check 2, then the slot's context is fresh again, its algorithm kept. -/
def resetResult (c : Nat) (s : State) : Except StatusCode Effect :=
  match slot s c with
  | none => .error .invalidContext
  | some k => .ok (slotEffect s (s.ctx.set c (some (freshContext k.alg))))

/-- RESET. -/
def execReset (c : Nat) (s : State) : Host.Outcome State Fault Refusal := .next (commit s (resetResult c s))

/-- UPDATE (R367): checks 2, 5 and 6, then the message bytes are absorbed. The length check is on exact integers. -/
def updateResult (c : Nat) (s : State) : Except StatusCode Effect :=
  match slot s c with
  | none => .error .invalidContext
  | some k =>
    let a := commandArgs s
    if maxLen k.alg < k.totalLen.toNat + a.srcLen.toNat then .error .maximumLengthExceeded
    else if admitted s.platform a.srcAddr a.srcLen.toNat then
      .ok (slotEffect s (s.ctx.set c (some (absorb k (inputBytes s a.srcAddr a.srcLen.toNat)))))
    else .error .busError

/-- UPDATE. -/
def execUpdate (c : Nat) (s : State) : Host.Outcome State Fault Refusal := .next (commit s (updateResult c s))

/-- DIGEST (R370): checks 2, 3 and 6, then the digest of what was absorbed; the context is not changed. -/
def digestResult (c : Nat) (s : State) : Except StatusCode Effect :=
  match slot s c with
  | none => .error .invalidContext
  | some k =>
    let a := commandArgs s
    if algFamily k.alg = .shake then .error .invalidAlgorithm
    else if admitted s.platform a.dstAddr (outLen k.alg) then
      .ok (outputEffect s a.dstAddr (finalize k (outLen k.alg)))
    else .error .busError

/-- DIGEST. -/
def execDigest (c : Nat) (s : State) : Host.Outcome State Fault Refusal := .next (commit s (digestResult c s))

/-- SQUEEZE (R371): checks 2, 3, 4 and 6, then the first DST_LEN bytes of the output stream; the context is not changed. -/
def squeezeResult (c : Nat) (s : State) : Except StatusCode Effect :=
  match slot s c with
  | none => .error .invalidContext
  | some k =>
    let a := commandArgs s
    if algFamily k.alg ≠ .shake then .error .invalidAlgorithm
    else if a.dstLen.toNat = 0 then .error .invalidLength
    else if admitted s.platform a.dstAddr a.dstLen.toNat then
      .ok (outputEffect s a.dstAddr (finalize k a.dstLen.toNat))
    else .error .busError

/-- SQUEEZE. -/
def execSqueeze (c : Nat) (s : State) : Host.Outcome State Fault Refusal := .next (commit s (squeezeResult c s))

/-- COPY (R372): checks 2 and 7, then the context's record in the lowest free slot. -/
def copyResult (c : Nat) (s : State) : Except StatusCode Effect :=
  match slot s c with
  | none => .error .invalidContext
  | some k =>
    match freeSlot s with
    | none => .error .outOfMemory
    | some n => .ok (newSlotEffect s n k)

/-- COPY. -/
def execCopy (c : Nat) (s : State) : Host.Outcome State Fault Refusal := .next (commit s (copyResult c s))

/-- RELEASE (R373): check 2, then the slot is free. -/
def releaseResult (c : Nat) (s : State) : Except StatusCode Effect :=
  match slot s c with
  | none => .error .invalidContext
  | some _ => .ok (slotEffect s (s.ctx.set c none))

/-- RELEASE. -/
def execRelease (c : Nat) (s : State) : Host.Outcome State Fault Refusal := .next (commit s (releaseResult c s))

end Sys2Proof.Machine
end

