-- ==== Sys2Proof/Machine/Dispatch.lean ====
section
/-! DEFINITION. One arm per command (spec 46_streaming.md R363). -/

namespace Sys2Proof.Machine

def exec (i : Instr) (s : State) : Host.Outcome State Fault Refusal :=
  match i with
  | .alloc alg => Sys2Proof.Machine.execAlloc alg s
  | .reset c => Sys2Proof.Machine.execReset c s
  | .update c => Sys2Proof.Machine.execUpdate c s
  | .digest c => Sys2Proof.Machine.execDigest c s
  | .squeeze c => Sys2Proof.Machine.execSqueeze c s
  | .copy c => Sys2Proof.Machine.execCopy c s
  | .release c => Sys2Proof.Machine.execRelease c s
  | .oneshot alg => Sys2Proof.Machine.execOneshot alg s
  | .hmac alg => Sys2Proof.Machine.execHmac alg s

end Sys2Proof.Machine
end

