-- ==== Sys2Proof/Machine/Engine.lean ====
section
/-! DEFINITION. The ENGINE step (spec 46_streaming.md R361, R363) and what the command in flight would write
(70_reset_and_hazards.md R494, R496). -/

namespace Sys2Proof.Machine

/-- The result of a command, before it is committed (R363). -/
def commandResult (i : Instr) (s : State) : Except StatusCode Effect :=
  match i with
  | .alloc alg => allocResult alg s
  | .reset c => resetResult c s
  | .update c => updateResult c s
  | .digest c => digestResult c s
  | .squeeze c => squeezeResult c s
  | .copy c => copyResult c s
  | .release c => releaseResult c s
  | .oneshot alg => oneshotResult alg s
  | .hmac alg => hmacResult alg s

/-- ENGINE performs the latched command (R361): an illegal word completes with IllegalCommand and no other effect (R447).
While IDLE there is no ENGINE step and nothing changes. -/
def engineStep (s : State) : Host.Outcome State Fault Refusal :=
  match s.latch with
  | none => .next s
  | some l =>
    match decode l.word with
    | .error _ => .next (complete s .illegalCommand)
    | .ok i => exec i s

/-- What the command in flight would write, were ENGINE to step now; `none` for a failing command or one without output. -/
def plannedOutput (s : State) : Option Output :=
  match s.latch with
  | none => none
  | some l =>
    match decode l.word with
    | .error _ => none
    | .ok i =>
      match commandResult i s with
      | .error _ => none
      | .ok e => e.output

/-- The byte of an output at an address, if it writes one there. -/
def outputByte (o : Output) (a : Nat) : Option Byte := if o.addr ≤ a then o.bytes[a - o.addr]? else none

/-- The byte the command in flight writes at an address. -/
def plannedByte (s : State) (a : Nat) : Option Byte :=
  match plannedOutput s with
  | none => none
  | some o => outputByte o a

end Sys2Proof.Machine
end

