-- ==== Sys2Proof/Machine/HostSteps.lean ====
section
/-! DEFINITION. The steps of HOST and of the platform (spec 20_memory.md R87, 30_encoding.md R120, 70_reset_and_hazards.md R490,
R494, R496). -/

namespace Sys2Proof.Machine

/-- The answer of a HOST read. -/
def answer (s : State) (v : Word64) : State := { s with readData := v }

/-- HOST sees a byte of the output of the command in flight: from now on the command's inputs are what they are now, so that
the value seen is the value the command writes (R495, R496). -/
def fixInputs (s : State) : State := { s with view := some (inputView s) }

/-- A byte read by HOST (R87, R496): memory's, or, where the command in flight writes the byte, a free choice between
memory's and the command's. Memory's is HOST's own where HOST wrote the byte (log entry 7). -/
def hostLoad (s : State) (addr : Word64) : State :=
  match plannedByte s addr.toNat with
  | none => answer s ((readByte s.mem addr.toNat).setWidth 64)
  | some v =>
    if Config.observeDraw s.looks addr.toNat then answer { fixInputs s with looks := s.looks + 1 } (v.setWidth 64)
    else answer { s with looks := s.looks + 1 } ((readByte s.mem addr.toNat).setWidth 64)

/-- WAIT (R120): while BUSY it stays first on the agenda and ENGINE takes its step, which it must after finitely many
STATUS reads (R361); then one STATUS read ends it. -/
def hostWait (s : State) (rest : List Event) : Host.Outcome State Fault Refusal :=
  if s.status.busy then engineStep s
  else .next (answer { s with agenda := rest } (statusWord s.status))

/-- EXPECT (R120). -/
def hostExpect (s : State) (code : StatusCode) : Host.Outcome State Fault Refusal :=
  if s.status.code = codeNumber code then .next (answer s (statusWord s.status))
  else .fault (.expectFailed code s.status.code)

/-- One HOST operation, `rest` being the agenda after it. -/
def hostStep (op : HostOp) (rest : List Event) (s : State) : Host.Outcome State Fault Refusal :=
  match op with
  | .regRead width offset => .next (answer { s with agenda := rest } (readReg s width offset))
  | .regWrite width offset v => .next (writeReg { s with agenda := rest } width offset v)
  | .memRead addr => .next (hostLoad { s with agenda := rest } addr)
  | .memWrite addr b => .next (hostStore { s with agenda := rest } addr b)
  | .wait => hostWait s rest
  | .expect code => hostExpect { s with agenda := rest } code

/-- The platform's reset input (R490, R494). -/
def resetStep (s : State) : State := deviceReset s (plannedOutput s)

end Sys2Proof.Machine
end

