-- ==== Sys2Proof/Machine/Step.lean ====
section
/-! DEFINITION. One step of the interleaving of HOST, ENGINE and the platform (spec 20_memory.md R87, 46_streaming.md R361). -/

namespace Sys2Proof.Machine

/-- The agenda says who moves next (R87). When it has run out, HOST does nothing more and ENGINE takes its step if a
command is latched (R361: every accepted command is eventually stepped); an IDLE machine stays as it is. -/
def step (s : State) : Host.Outcome State Fault Refusal :=
  match s.agenda with
  | [] => engineStep s
  | .engine :: rest => engineStep { s with agenda := rest }
  | .deviceReset :: rest => .next (resetStep { s with agenda := rest })
  | .host op :: rest => hostStep op rest s

/-- The state in which the word w of nbits bits has just been accepted (R360) and ENGINE moves next: HASHCORE fetches no
instruction (R91), so LATCH holds the word the next step runs. -/
def State.withFetchWord (s : State) (nbits w : Nat) : State :=
  { latchCommand s (BitVec.ofNat 32 (w % 2 ^ nbits)) with agenda := .engine :: s.agenda }

end Sys2Proof.Machine
end

