-- ==== Sys2Proof/Machine/Asm.lean ====
section
/-! DEFINITION. The assembler lines and HOST's pseudo-instructions as the HOST steps they stand for (spec 30_encoding.md R119,
R120). -/

namespace Sys2Proof.Machine

/-- A register that `SET` names (R120): any of the ten of R30. STATUS and CAPS ignore the write; CMD starts a command. -/
inductive SetReg where
  | cmd | status | srcAddr | srcLen | keyAddr | keyLen | dstAddr | dstLen | irqEn | caps
  deriving DecidableEq, Repr

/-- The offsets of R30. -/
def setRegOffset : SetReg → Nat
  | .cmd => 0x00
  | .status => 0x08
  | .srcAddr => 0x10
  | .srcLen => 0x18
  | .keyAddr => 0x20
  | .keyLen => 0x28
  | .dstAddr => 0x30
  | .dstLen => 0x38
  | .irqEn => 0x40
  | .caps => 0x48

/-- An algorithm's name in a line (R113, R119). -/
def algName : Alg → String
  | .md5 => "MD5"
  | .sha1 => "SHA1"
  | .sha224 => "SHA224"
  | .sha256 => "SHA256"
  | .sha384 => "SHA384"
  | .sha512 => "SHA512"
  | .sha3_224 => "SHA3_224"
  | .sha3_256 => "SHA3_256"
  | .sha3_384 => "SHA3_384"
  | .sha3_512 => "SHA3_512"
  | .shake128 => "SHAKE128"
  | .shake256 => "SHAKE256"
  | .blake2s => "BLAKE2S"
  | .blake2b => "BLAKE2B"

/-- The operand of a command's line (R119). -/
def operandText : Instr → String
  | .alloc alg => algName alg
  | .reset c => "c" ++ toString c
  | .update c => "c" ++ toString c
  | .digest c => "c" ++ toString c
  | .squeeze c => "c" ++ toString c
  | .copy c => "c" ++ toString c
  | .release c => "c" ++ toString c
  | .oneshot alg => algName alg
  | .hmac alg => algName alg

/-- A command's line (R119). -/
def asmText (i : Instr) : String := (rowOf i).mnemonic ++ " " ++ operandText i

/-- A line of a program (R119, R120). -/
inductive Line where
  /-- A bare mnemonic line: one CMD write. -/
  | command (i : Instr)
  /-- `.word`: a CMD write of any word, legal or not. -/
  | word (w : BitVec 32)
  /-- `SET`. -/
  | set (r : SetReg) (v : Word64)
  /-- `WAIT`. -/
  | wait
  /-- `EXPECT`. -/
  | expect (code : StatusCode)
  /-- `H.ALLOC`. -/
  | hAlloc (alg : Alg)
  /-- `H.UPDATE`. -/
  | hUpdate (c : Nat) (addr len : Word64)
  /-- `H.DIGEST`. -/
  | hDigest (c : Nat) (dst : Word64)
  /-- `H.SQUEEZE`. -/
  | hSqueeze (c : Nat) (dst len : Word64)
  /-- `H.ONESHOT`. -/
  | hOneshot (alg : Alg) (src len dst : Word64)
  /-- `H.HMAC`. -/
  | hHmac (alg : Alg) (key klen src len dst : Word64)
  deriving DecidableEq, Repr

/-- One 64-bit write of a command word to CMD, offset 0x00 (R30, R32). -/
def cmdWrite (w : BitVec 32) : Event := .host (.regWrite 64 0x00 (w.setWidth 64))

/-- `SET` (R120): one write of all 64 bits. -/
def setWrite (r : SetReg) (v : Word64) : Event := .host (.regWrite 64 (setRegOffset r) v)

/-- The HOST steps of a line (R119, R120). -/
def lineEvents : Line → List Event
  | .command i => [cmdWrite (encode i)]
  | .word w => [cmdWrite w]
  | .set r v => [setWrite r v]
  | .wait => [.host .wait]
  | .expect code => [.host (.expect code)]
  | .hAlloc alg => [cmdWrite (encode (.alloc alg)), .host .wait, .host (.expect .success)]
  | .hUpdate c addr len => [setWrite .srcAddr addr, setWrite .srcLen len, cmdWrite (encode (.update c)), .host .wait]
  | .hDigest c dst => [setWrite .dstAddr dst, cmdWrite (encode (.digest c)), .host .wait]
  | .hSqueeze c dst len => [setWrite .dstAddr dst, setWrite .dstLen len, cmdWrite (encode (.squeeze c)), .host .wait]
  | .hOneshot alg src len dst =>
    [setWrite .srcAddr src, setWrite .srcLen len, setWrite .dstAddr dst, cmdWrite (encode (.oneshot alg)), .host .wait]
  | .hHmac alg key klen src len dst =>
    [setWrite .keyAddr key, setWrite .keyLen klen, setWrite .srcAddr src, setWrite .srcLen len, setWrite .dstAddr dst] ++
    [cmdWrite (encode (.hmac alg)), .host .wait]

/-- The agenda of a program: its lines' HOST steps in order. -/
def programEvents (p : List Line) : List Event := p.flatMap lineEvents

end Sys2Proof.Machine
end

