-- ==== Sys2Proof/Machine/Cost.lean ====
section
/-! DEFINITION. The work of a hash in compressions or permutations (spec 45_padding.md R332, 47_oneshot_hmac.md R417,
70_reset_and_hazards.md R501). No register shows it; it counts the calls of the very loops `absorb` and `finalize` run. -/

namespace Sys2Proof.Machine

/-- The output blocks the squeeze loop emits for l bytes at rate b (R326): its permutations, the absorb's counted in. -/
def squeezeBlocks (b l : Nat) : Nat → Nat → Nat
  | 0, _ => 0
  | fuel + 1, out => if l ≤ out + b then 1 else 1 + squeezeBlocks b l fuel (out + b)

/-- The compressions or permutations of `Finalize(ctx, L)` with p pending bytes (R332). -/
def finalizeCount (alg : Alg) (p l : Nat) : Nat :=
  match algFamily alg with
  | .md5 => mdBlockCount (blockLen alg) (lengthFieldLen alg) p
  | .sha1 => mdBlockCount (blockLen alg) (lengthFieldLen alg) p
  | .sha256 => mdBlockCount (blockLen alg) (lengthFieldLen alg) p
  | .sha512 => mdBlockCount (blockLen alg) (lengthFieldLen alg) p
  | .sha3 => squeezeBlocks (blockLen alg) (outLen alg) (outLen alg) 0
  | .shake => squeezeBlocks (blockLen alg) l l 0
  | .blake2s => 1
  | .blake2b => 1

/-- The compressions `absorb` makes of a byte string: `blockLoop` with a counting state, and the bytes left (R501). -/
def absorbCount (alg : Alg) (s : List Byte) : Nat × List Byte :=
  blockLoop (blockLen alg) (if isLazy alg then 1 else 0) (fun n _ => n + 1) s.length 0 s

/-- The compressions of `Hash(alg, M)` (R417's Count). -/
def hashCount (alg : Alg) (m : List Byte) : Nat :=
  (absorbCount alg m).1 + finalizeCount alg (absorbCount alg m).2.length (outLen alg)

/-- The compressions of an HMAC with this key and message (R417). -/
def hmacCount (alg : Alg) (key msg : List Byte) : Nat :=
  (if key.length ≤ blockLen alg then 0 else hashCount alg key) + hashCount alg (hmacPad alg key 0x36 ++ msg) +
    hashCount alg (hmacPad alg key 0x5c ++ hashOf alg (hmacPad alg key 0x36 ++ msg))

end Sys2Proof.Machine
end

