-- ==== Sys2Proof/Safety.lean ====
section
/-! DEFINITION. What counts as a good state and a run that goes on, in the terms the statements use. -/

namespace Sys2Proof.Machine

/-- The step answers a next state. -/
def GoesOn (s : State) : Prop := ∃ t, step s = .next t

/-- H has its family's width and number of words (R37). -/
def hasShape (alg : Alg) : Working → Prop
  | .w32 h => wordWidth alg = 32 ∧ h.length = wordCount alg
  | .w64 h => wordWidth alg = 64 ∧ h.length = wordCount alg

/-- A context record as the commands leave it: H of its family's shape (R37), total_len within MAXLEN (R38), and exactly
the pending bytes in buf (R39, R41). -/
structure Context.Ok (k : Context) : Prop where
  shape : hasShape k.alg k.H
  total : k.totalLen.toNat ≤ maxLen k.alg
  pending : k.buf.length = pendingLen k.alg k.totalLen.toNat

/-- R40: the context is what absorbing some message of total_len bytes from the initial state gives. -/
def Context.Absorbed (k : Context) : Prop :=
  ∃ m : List Byte, m.length ≤ maxLen k.alg ∧ k = absorb (freshContext k.alg) m

/-- CODE is one of the eight codes of R116. -/
def IsCode (c : BitVec 8) : Prop := ∃ code : StatusCode, c = codeNumber code

/-- The invariant of the machine: memory is canonical and within the address space (R80), BUSY says that a command is
latched (R46), nothing is held or viewed while IDLE, a view's values are values the byte held during the command (R495), CODE is a code of R116, NCTX is 1..255 (R7), RESULT_CTX names a slot (R33), and
every context is good (R37 to R40). -/
structure State.Inv (s : State) : Prop where
  memory : Memory.wf s.mem
  bounded : Memory.bounded s.mem
  busy : s.status.busy = s.latch.isSome
  idleHeld : s.latch = none → s.held = [] ∧ s.view = none
  viewHeld : ∀ v, s.view = some v → ∀ a b, b ∈ readByte v.mem a :: valuesAt v.held a → b ∈ readByte s.mem a :: heldValues s a
  code : IsCode s.status.code
  slots : 1 ≤ s.ctx.length ∧ s.ctx.length ≤ 255
  resultCtx : s.status.resultCtx.toNat < s.ctx.length
  contexts : ∀ c k, slot s c = some k → k.Ok ∧ k.Absorbed

/-! ### The checks of R451, one function for each -/

/-- The slot a command names, if it uses CTX (R112). -/
def namedSlot : Instr → Option Nat
  | .alloc _ => none
  | .reset c => some c
  | .update c => some c
  | .digest c => some c
  | .squeeze c => some c
  | .copy c => some c
  | .release c => some c
  | .oneshot _ => none
  | .hmac _ => none

/-- Check 2: the named slot holds no context. -/
def contextMissing (i : Instr) (s : State) : Bool := (namedSlot i).any fun c => (slot s c).isNone

/-- The algorithm of the command: its context's, or its ALG field (R451, after check 2). -/
def commandAlg (i : Instr) (s : State) : Option Alg :=
  match i with
  | .alloc alg => some alg
  | .oneshot alg => some alg
  | .hmac alg => some alg
  | .reset c => (slot s c).map Context.alg
  | .update c => (slot s c).map Context.alg
  | .digest c => (slot s c).map Context.alg
  | .squeeze c => (slot s c).map Context.alg
  | .copy c => (slot s c).map Context.alg
  | .release c => (slot s c).map Context.alg

/-- SHAKE128 or SHAKE256. -/
def isShake (alg : Alg) : Bool := decide (alg = .shake128 ∨ alg = .shake256)

/-- Check 3: a fixed-output command on SHAKE, or SQUEEZE on another algorithm. -/
def wrongClass (i : Instr) (s : State) : Bool :=
  match i with
  | .digest _ => (commandAlg i s).any isShake
  | .oneshot _ => (commandAlg i s).any isShake
  | .hmac _ => (commandAlg i s).any isShake
  | .squeeze _ => (commandAlg i s).any fun alg => !isShake alg
  | .alloc _ => false
  | .reset _ => false
  | .update _ => false
  | .copy _ => false
  | .release _ => false

/-- Check 4: SQUEEZE of no bytes. -/
def zeroLength (i : Instr) (s : State) : Bool :=
  match i with
  | .squeeze _ => decide ((commandArgs s).dstLen.toNat = 0)
  | .alloc _ => false
  | .reset _ => false
  | .update _ => false
  | .digest _ => false
  | .copy _ => false
  | .release _ => false
  | .oneshot _ => false
  | .hmac _ => false

/-- Check 5: more bytes than MAXLEN, on exact integers. -/
def tooLong (i : Instr) (s : State) : Bool :=
  match i with
  | .update c => (slot s c).any fun k => decide (k.totalLen.toNat + (commandArgs s).srcLen.toNat > maxLen k.alg)
  | .oneshot alg => decide ((commandArgs s).srcLen.toNat > maxLen alg)
  | .hmac alg =>
    decide (blockLen alg + (commandArgs s).srcLen.toNat > maxLen alg) ||
      (decide ((commandArgs s).keyLen.toNat > blockLen alg) && decide ((commandArgs s).keyLen.toNat > maxLen alg))
  | .alloc _ => false
  | .reset _ => false
  | .digest _ => false
  | .squeeze _ => false
  | .copy _ => false
  | .release _ => false

/-- The ranges of R450's table. -/
def rangesOf (i : Instr) (s : State) : List (Word64 × Nat) :=
  let a := commandArgs s
  match i with
  | .update _ => [(a.srcAddr, a.srcLen.toNat)]
  | .digest c => ((slot s c).map fun k => (a.dstAddr, outLen k.alg)).toList
  | .squeeze _ => [(a.dstAddr, a.dstLen.toNat)]
  | .oneshot alg => [(a.srcAddr, a.srcLen.toNat), (a.dstAddr, outLen alg)]
  | .hmac alg => [(a.keyAddr, a.keyLen.toNat), (a.srcAddr, a.srcLen.toNat), (a.dstAddr, outLen alg)]
  | .alloc _ => []
  | .reset _ => []
  | .copy _ => []
  | .release _ => []

/-- Check 6: a range is not admitted. -/
def rangeRefused (i : Instr) (s : State) : Bool := (rangesOf i s).any fun r => !admitted s.platform r.1 r.2

/-- Check 7: a slot is needed and none is free. -/
def noFreeSlot (i : Instr) (s : State) : Bool :=
  match i with
  | .alloc _ => s.ctx.all Option.isSome
  | .copy _ => s.ctx.all Option.isSome
  | .reset _ => false
  | .update _ => false
  | .digest _ => false
  | .squeeze _ => false
  | .release _ => false
  | .oneshot _ => false
  | .hmac _ => false

/-- The first check of R451, in its order, that a decoded command fails. -/
def firstFailure (i : Instr) (s : State) : Option StatusCode :=
  ([(contextMissing i s, StatusCode.invalidContext), (wrongClass i s, .invalidAlgorithm)] ++
    [(zeroLength i s, StatusCode.invalidLength), (tooLong i s, .maximumLengthExceeded)] ++
    [(rangeRefused i s, StatusCode.busError), (noFreeSlot i s, .outOfMemory)]).findSome? fun x =>
      if x.1 then some x.2 else none

/-- R417's Count(N). -/
def countFormula (alg : Alg) (n : Nat) : Nat :=
  match algFamily alg with
  | .md5 => (n + 1 + lengthFieldLen alg + (blockLen alg - 1)) / blockLen alg
  | .sha1 => (n + 1 + lengthFieldLen alg + (blockLen alg - 1)) / blockLen alg
  | .sha256 => (n + 1 + lengthFieldLen alg + (blockLen alg - 1)) / blockLen alg
  | .sha512 => (n + 1 + lengthFieldLen alg + (blockLen alg - 1)) / blockLen alg
  | .sha3 => n / blockLen alg + 1
  | .shake => n / blockLen alg + 1
  | .blake2s => max 1 ((n + (blockLen alg - 1)) / blockLen alg)
  | .blake2b => max 1 ((n + (blockLen alg - 1)) / blockLen alg)

end Sys2Proof.Machine
end

