-- ==== Sys2Proof/Certificates/Slice0/Obligations.lean ====
section
/-! DEFINITION. The statements about HASHCORE for the provers, each from the rules its docstring names. -/

open Sys2Proof Sys2Proof.Machine

/-! ### Encoding -/

/-- Decoding the encoding of a well-formed instruction gives it back (R111, R113, R117, R119). -/
def Obligations.DecodeOfEncodeReturnsInstruction : Prop :=
  ∀ i : Instr, i.wellFormed = true → decode (encode i) = .ok i

/-- A word that decodes is the word of its instruction, which is well formed: no bit is dropped and no two words stand for
one command (R111, R117, R119). -/
def Obligations.EncodeOfDecodeReturnsWord : Prop :=
  ∀ (w : BitVec 32) (i : Instr), decode w = .ok i → encode i = w ∧ i.wellFormed = true

/-- R447: the words that do not decode are exactly those it lists, and the ENGINE step on one completes with 0x10 and no
other effect.
`held`, `view` and `draws` are the model's own fields (log entry 5). -/
def Obligations.IllegalCommandWords : Prop :=
  ∀ w : BitVec 32,
    let opc := (w.extractLsb' 0 8).toNat
    let alg := (w.extractLsb' 8 8).toNat
    let c := (w.extractLsb' 16 8).toNat
    let rsv := (w.extractLsb' 24 8).toNat
    ((∃ e, decode w = .error e) ↔
      (opc = 0x00 ∨ 0x0A ≤ opc) ∨ rsv ≠ 0 ∨
      ((opc = 0x01 ∨ opc = 0x08 ∨ opc = 0x09) ∧ (alg < 0x01 ∨ 0x0E < alg ∨ c ≠ 0)) ∨
      (0x02 ≤ opc ∧ opc ≤ 0x07 ∧ alg ≠ 0)) ∧
    (∀ (s : State) (args : ArgRegs) (e : Illegal), s.latch = some ⟨w, args⟩ → decode w = .error e →
      engineStep s = .next { s with
        status := ⟨0x10, false, true, s.status.overrun, s.status.resultCtx⟩
        latch := none
        held := []
        view := none
        draws := s.draws + 1 })

/-- R114: a word decodes to an instruction of a row exactly when it has the row's fixed bits and, for the rows that use ALG,
an algorithm id 0x01..0x0E. -/
def Obligations.TableRowSelection : Prop :=
  ∀ (w : BitVec 32) (i : Instr),
    ((∃ j, decode w = .ok j ∧ rowOf j = rowOf i) ↔
      (w &&& (rowOf i).mask = (rowOf i).value ∧
        ((rowOf i).mask = 0xFFFF00FF → 0x01 ≤ (w.extractLsb' 8 8).toNat ∧ (w.extractLsb' 8 8).toNat ≤ 0x0E)))

/-- The example words of R119 decode to the lines they stand for. -/
def Obligations.SpecWordsDecode : Prop :=
  decode 0x00000401 = .ok (.alloc .sha256) ∧ decode 0x00000108 = .ok (.oneshot .md5) ∧
  decode 0x00000209 = .ok (.hmac .sha1) ∧ decode 0x00030002 = .ok (.reset 3) ∧
  decode 0x00000003 = .ok (.update 0) ∧ decode 0x00020004 = .ok (.digest 2) ∧
  decode 0x00010005 = .ok (.squeeze 1) ∧ decode 0x00000006 = .ok (.copy 0) ∧
  decode 0x000F0007 = .ok (.release 15)

/-! ### The register block -/

/-- R30: the ten registers. An argument register holds what was last written and its write changes nothing else; CMD reads
0; STATUS and CAPS ignore writes; IRQ_EN reads bit 0; CAPS is constant for a given NCTX; other offsets read 0 and ignore
writes; every register but CAPS reads 0 at reset. -/
def Obligations.RegisterBlockMap : Prop :=
  (∀ (s : State) (v : Word64) (o : Nat), o ∈ [0x10, 0x18, 0x20, 0x28, 0x30, 0x38] →
    (∃ regs, writeReg s 64 o v = { s with regs := regs }) ∧
    ∀ o', readReg (writeReg s 64 o v) 64 o' = if o' = o then v else readReg s 64 o') ∧
  (∀ (s : State) (v : Word64),
    readReg s 64 0x00 = 0 ∧
    readReg s 64 0x08 = statusWord s.status ∧ writeReg s 64 0x08 v = s ∧
    readReg (writeReg s 64 0x40 v) 64 0x40 = v &&& 1 ∧
    writeReg s 64 0x48 v = s) ∧
  (∀ s t : State, s.ctx.length = t.ctx.length → readReg s 64 0x48 = readReg t 64 0x48) ∧
  (∀ (s : State) (v : Word64) (o : Nat), 0x50 ≤ o ∨ o % 8 ≠ 0 → readReg s 64 o = 0 ∧ writeReg s 64 o v = s) ∧
  (∀ o, o ≠ 0x48 → readReg State.reset 64 o = 0)

/-- R31: an access that is not one aligned 64-bit access reads 0 and its write is ignored; a register read changes nothing
(but for what HOST's read returned, the model's own field); a write at another offset than CMD's changes no register but its
own, and nothing besides the registers. -/
def Obligations.UnmappedRegisterAccess : Prop :=
  ∀ (s : State) (width o : Nat) (v : Word64),
    (width ≠ 64 ∨ o % 8 ≠ 0 → readReg s width o = 0 ∧ writeReg s width o v = s) ∧
    (∀ rest, s.agenda = .host (.regRead width o) :: rest →
      step s = .next { s with agenda := rest, readData := readReg s width o }) ∧
    (o ≠ 0x00 → (∃ regs en, writeReg s width o v = { s with regs := regs, irqEn := en }) ∧
      ∀ o', o' ≠ o → readReg (writeReg s width o v) 64 o' = readReg s 64 o')

/-- R43 and R47: IRQ_EN keeps bit 0 only, is 0 at reset, and the line is DONE and IRQ_EN bit 0. -/
def Obligations.InterruptEnableRegister : Prop :=
  (∀ (s : State) (v : Word64),
    writeReg s 64 0x40 v = { s with irqEn := v.getLsbD 0 } ∧
    readReg (writeReg s 64 0x40 v) 64 0x40 = v &&& 1 ∧
    (irqLine s = true ↔ s.status.done = true ∧ (readReg s 64 0x40).getLsbD 0 = true)) ∧
  readReg State.reset 64 0x40 = 0

/-- R453: every completion, of whatever code, raises the line when enabled; the next acceptance and device reset lower it;
writing IRQ_EN enables or masks it; reading a register leaves it; no step raises it but a completion, or enabling it while
DONE. -/
def Obligations.InterruptLineLifecycle : Prop :=
  (∀ s t : State, s.latch ≠ none → engineStep s = .next t → irqLine t = s.irqEn) ∧
  (∀ (s : State) (v : Word64), s.latch = none → irqLine (writeReg s 64 0x00 v) = false) ∧
  (∀ (s t : State) (rest : List Event), s.agenda = .deviceReset :: rest → step s = .next t → irqLine t = false) ∧
  (∀ (s : State) (v : Word64), irqLine (writeReg s 64 0x40 v) = (s.status.done && v.getLsbD 0)) ∧
  (∀ (s t : State) (width o : Nat) (rest : List Event), s.agenda = .host (.regRead width o) :: rest → step s = .next t →
    irqLine t = irqLine s) ∧
  (∀ s t : State, step s = .next t → irqLine s = false → irqLine t = true →
    (s.latch ≠ none ∧ t.latch = none) ∨
    ∃ v rest, s.agenda = .host (.regWrite 64 0x40 v) :: rest ∧ s.status.done = true ∧ v.getLsbD 0 = true)

/-- The fields of STATUS stand at R33's bits, its reserved bits read 0, and it ignores writes (R33, R30). -/
def Obligations.StatusWordLayout : Prop :=
  ∀ (s : State) (v : Word64),
    let w := readReg s 64 0x08
    w.extractLsb' 0 8 = s.status.code ∧ w.getLsbD 8 = s.status.busy ∧ w.getLsbD 9 = s.status.done ∧
    w.getLsbD 10 = s.status.overrun ∧ w.extractLsb' 11 5 = 0 ∧ w.extractLsb' 16 8 = s.status.resultCtx ∧
    w.extractLsb' 24 40 = 0 ∧ writeReg s 64 0x08 v = s

/-- R44: CAPS gives NCTX in bits [7:0] and 0x0E in [15:8], reads 0 above, and ignores writes. -/
def Obligations.CapsLayout : Prop :=
  ∀ (s : State) (v : Word64), s.ctx.length ≤ 255 →
    let w := readReg s 64 0x48
    (w.extractLsb' 0 8).toNat = s.ctx.length ∧ w.extractLsb' 8 8 = 0x0E ∧ w.extractLsb' 16 48 = 0 ∧
    writeReg s 64 0x48 v = s

/-! ### The command life cycle -/

/-- R360: a CMD write while IDLE latches its low 32 bits, legal or not, and the six argument registers, in one HOST step;
while BUSY it only sets OVERRUN. -/
def Obligations.CommandAcceptance : Prop :=
  ∀ (s : State) (v : Word64),
    (s.latch = none →
      writeReg s 64 0x00 v = { s with
        latch := some ⟨v.setWidth 32, s.regs⟩
        status := ⟨s.status.code, true, false, s.status.overrun, s.status.resultCtx⟩ }) ∧
    (s.latch ≠ none →
      writeReg s 64 0x00 v = { s with
        status := ⟨s.status.code, s.status.busy, s.status.done, true, s.status.resultCtx⟩ }) ∧
    (∀ rest, s.agenda = .host (.regWrite 64 0x00 v) :: rest → step s = .next (writeReg { s with agenda := rest } 64 0x00 v))

/-- R449: a CMD write while a command is in flight changes OVERRUN only, and OVERRUN stays 1 through every step but device
reset, which clears it. -/
def Obligations.OverrunIsSticky : Prop :=
  (∀ (s : State) (v : Word64), s.latch ≠ none →
    writeReg s 64 0x00 v = { s with
      status := ⟨s.status.code, s.status.busy, s.status.done, true, s.status.resultCtx⟩ }) ∧
  (∀ s t : State, s.status.overrun = true → (∀ rest, s.agenda ≠ .deviceReset :: rest) → step s = .next t →
    t.status.overrun = true) ∧
  (∀ (s t : State) (rest : List Event), s.agenda = .deviceReset :: rest → step s = .next t → t.status.overrun = false)

/-- R362: every command completes: CODE is its status, BUSY 0, DONE 1, LATCH none, OVERRUN as before; RESULT_CTX changes
only when an ALLOC or COPY succeeds; the interrupt line follows DONE. -/
def Obligations.CompletionStatus : Prop :=
  ∀ (i : Instr) (s : State), ∃ (t : State) (code : StatusCode), exec i s = .next t ∧
    t.status.code = codeNumber code ∧ t.status.busy = false ∧ t.status.done = true ∧ t.latch = none ∧
    t.status.overrun = s.status.overrun ∧ irqLine t = s.irqEn ∧
    (t.status.resultCtx ≠ s.status.resultCtx → code = .success ∧ ((∃ alg, i = .alloc alg) ∨ ∃ c, i = .copy c))

/-- R441: a command that does not succeed changes only CODE, BUSY and DONE (and ends: the latch empties, the model's draws
move on), and does the same whatever host memory holds, so it has read none of it.
`held`, `view` and `draws` are the model's own fields (log entry 5). -/
def Obligations.FailedCommandHasNoEffect : Prop :=
  ∀ (i : Instr) (s t : State), exec i s = .next t → t.status.code ≠ 0x00 →
    t = { s with
      status := ⟨t.status.code, false, true, s.status.overrun, s.status.resultCtx⟩
      latch := none
      held := []
      view := none
      draws := s.draws + 1 } ∧
    ∀ m : Memory, exec i { s with mem := m } = .next { t with mem := m }

/-- A step whose turn is ENGINE's runs the decoded instruction of the latched word (R361, R363): when ENGINE is next on the
agenda and when the agenda has run out (the agenda is the model's: log entry 4), and when HOST waits for a running command.
That a WAIT of a busy machine is ENGINE's step, WAIT staying first, is the model's reading, DEDUCED (log entry 8): R361 and
R501 only leave the place of ENGINE's step free. -/
def Obligations.StepRunsDecodedInstruction : Prop :=
  ∀ (s : State) (l : Latch) (i : Instr), s.latch = some l → decode l.word = .ok i →
    (∀ rest, s.agenda = .engine :: rest → step s = exec i { s with agenda := rest }) ∧
    (s.agenda = [] → step s = exec i s) ∧
    (∀ rest, s.agenda = .host .wait :: rest → s.status.busy = true → step s = exec i s)

/-- The state with a word placed for the next step runs that word's instruction next, with the argument registers as they
are (R360, R361). -/
def Obligations.FetchWordRunsNext : Prop :=
  ∀ (s : State) (w : Nat) (i : Instr), w < 2 ^ 32 → decode (BitVec.ofNat 32 w) = .ok i →
    step (s.withFetchWord 32 w) = exec i { s with
      latch := some ⟨BitVec.ofNat 32 w, s.regs⟩
      status := ⟨s.status.code, true, false, s.status.overrun, s.status.resultCtx⟩ }

/-! ### The commands -/

/-- R365: ALLOC puts a fresh context into the lowest free slot and answers its index; with no free slot it reports
OutOfMemory and changes nothing.
`held`, `view` and `draws` are the model's own fields (log entry 5). -/
def Obligations.AllocFillsLowestFreeSlot : Prop :=
  ∀ (alg : Alg) (s : State),
    (∀ n, n < s.ctx.length → slot s n = none → (∀ j, j < n → slot s j ≠ none) →
      exec (.alloc alg) s = .next { s with
        ctx := s.ctx.set n (some ⟨alg, initialH alg, 0, []⟩)
        status := ⟨0x00, false, true, s.status.overrun, BitVec.ofNat 8 n⟩
        latch := none
        held := []
        view := none
        draws := s.draws + 1 }) ∧
    ((∀ j, j < s.ctx.length → slot s j ≠ none) →
      exec (.alloc alg) s = .next { s with
        status := ⟨0x04, false, true, s.status.overrun, s.status.resultCtx⟩
        latch := none
        held := []
        view := none
        draws := s.draws + 1 })

/-- R366: RESET puts the slot's context back to its initial state and keeps its algorithm; on a free slot or one ≥ NCTX it
reports InvalidContext.
`held`, `view` and `draws` are the model's own fields (log entry 5). -/
def Obligations.ResetReinitialisesContext : Prop :=
  ∀ (c : Nat) (s : State),
    (∀ k, slot s c = some k →
      exec (.reset c) s = .next { s with
        ctx := s.ctx.set c (some ⟨k.alg, initialH k.alg, 0, []⟩)
        status := ⟨0x00, false, true, s.status.overrun, s.status.resultCtx⟩
        latch := none
        held := []
        view := none
        draws := s.draws + 1 }) ∧
    (slot s c = none →
      exec (.reset c) s = .next { s with
        status := ⟨0x11, false, true, s.status.overrun, s.status.resultCtx⟩
        latch := none
        held := []
        view := none
        draws := s.draws + 1 })

/-- R367: UPDATE absorbs the SRC_LEN bytes at the latched SRC_ADDR; more bytes than MAXLEN leaves room for, as exact
integers, is MaximumLengthExceeded, checked before the range, which when not admitted is BusError.
`held`, `view` and `draws` are the model's own fields (log entry 5). -/
def Obligations.UpdateAbsorbsMessage : Prop :=
  ∀ (c : Nat) (s : State) (l : Latch), s.latch = some l →
    (∀ k, slot s c = some k →
      (k.totalLen.toNat + l.args.srcLen.toNat ≤ maxLen k.alg →
        admitted s.platform l.args.srcAddr l.args.srcLen.toNat = true →
        exec (.update c) s = .next { s with
          ctx := s.ctx.set c (some (absorb k (inputBytes s l.args.srcAddr l.args.srcLen.toNat)))
          status := ⟨0x00, false, true, s.status.overrun, s.status.resultCtx⟩
          latch := none
          held := []
          view := none
          draws := s.draws + 1 }) ∧
      (maxLen k.alg < k.totalLen.toNat + l.args.srcLen.toNat →
        exec (.update c) s = .next { s with
          status := ⟨0x03, false, true, s.status.overrun, s.status.resultCtx⟩
          latch := none
          held := []
          view := none
          draws := s.draws + 1 }) ∧
      (k.totalLen.toNat + l.args.srcLen.toNat ≤ maxLen k.alg →
        admitted s.platform l.args.srcAddr l.args.srcLen.toNat = false →
        exec (.update c) s = .next { s with
          status := ⟨0x12, false, true, s.status.overrun, s.status.resultCtx⟩
          latch := none
          held := []
          view := none
          draws := s.draws + 1 })) ∧
    (slot s c = none →
      exec (.update c) s = .next { s with
        status := ⟨0x11, false, true, s.status.overrun, s.status.resultCtx⟩
        latch := none
        held := []
        view := none
        draws := s.draws + 1 })

/-- R370: DIGEST writes the OUT bytes of the context's digest at the latched DST_ADDR and leaves every context unchanged; a
SHAKE context is InvalidAlgorithm, a range not admitted BusError, a slot without a context InvalidContext.
`held`, `view` and `draws` are the model's own fields (log entry 5). -/
def Obligations.DigestWritesDigest : Prop :=
  ∀ (c : Nat) (s : State) (l : Latch), s.latch = some l →
    (∀ k, slot s c = some k →
      (algFamily k.alg ≠ .shake → admitted s.platform l.args.dstAddr (outLen k.alg) = true →
        exec (.digest c) s = .next { s with
          mem := landOutput s (some ⟨l.args.dstAddr.toNat, finalize k (outLen k.alg)⟩)
          status := ⟨0x00, false, true, s.status.overrun, s.status.resultCtx⟩
          latch := none
          held := []
          view := none
          draws := s.draws + 1 }) ∧
      (algFamily k.alg = .shake →
        exec (.digest c) s = .next { s with
          status := ⟨0x01, false, true, s.status.overrun, s.status.resultCtx⟩
          latch := none
          held := []
          view := none
          draws := s.draws + 1 }) ∧
      (algFamily k.alg ≠ .shake → admitted s.platform l.args.dstAddr (outLen k.alg) = false →
        exec (.digest c) s = .next { s with
          status := ⟨0x12, false, true, s.status.overrun, s.status.resultCtx⟩
          latch := none
          held := []
          view := none
          draws := s.draws + 1 })) ∧
    (slot s c = none →
      exec (.digest c) s = .next { s with
        status := ⟨0x11, false, true, s.status.overrun, s.status.resultCtx⟩
        latch := none
        held := []
        view := none
        draws := s.draws + 1 })

/-- R371: SQUEEZE writes the first DST_LEN bytes of a SHAKE context's output at the latched DST_ADDR and leaves every context
unchanged; InvalidAlgorithm comes before InvalidLength, and that before BusError.
`held`, `view` and `draws` are the model's own fields (log entry 5). -/
def Obligations.SqueezeWritesOutput : Prop :=
  ∀ (c : Nat) (s : State) (l : Latch), s.latch = some l →
    (∀ k, slot s c = some k →
      (algFamily k.alg = .shake → l.args.dstLen ≠ 0 →
        admitted s.platform l.args.dstAddr l.args.dstLen.toNat = true →
        exec (.squeeze c) s = .next { s with
          mem := landOutput s (some ⟨l.args.dstAddr.toNat, finalize k l.args.dstLen.toNat⟩)
          status := ⟨0x00, false, true, s.status.overrun, s.status.resultCtx⟩
          latch := none
          held := []
          view := none
          draws := s.draws + 1 }) ∧
      (algFamily k.alg ≠ .shake →
        exec (.squeeze c) s = .next { s with
          status := ⟨0x01, false, true, s.status.overrun, s.status.resultCtx⟩
          latch := none
          held := []
          view := none
          draws := s.draws + 1 }) ∧
      (algFamily k.alg = .shake → l.args.dstLen = 0 →
        exec (.squeeze c) s = .next { s with
          status := ⟨0x02, false, true, s.status.overrun, s.status.resultCtx⟩
          latch := none
          held := []
          view := none
          draws := s.draws + 1 }) ∧
      (algFamily k.alg = .shake → l.args.dstLen ≠ 0 →
        admitted s.platform l.args.dstAddr l.args.dstLen.toNat = false →
        exec (.squeeze c) s = .next { s with
          status := ⟨0x12, false, true, s.status.overrun, s.status.resultCtx⟩
          latch := none
          held := []
          view := none
          draws := s.draws + 1 })) ∧
    (slot s c = none →
      exec (.squeeze c) s = .next { s with
        status := ⟨0x11, false, true, s.status.overrun, s.status.resultCtx⟩
        latch := none
        held := []
        view := none
        draws := s.draws + 1 })

/-- R372: COPY puts the context's whole record into the lowest free slot and answers its index; InvalidContext comes before
OutOfMemory.
`held`, `view` and `draws` are the model's own fields (log entry 5). -/
def Obligations.CopyDuplicatesContext : Prop :=
  ∀ (c : Nat) (s : State),
    (∀ k, slot s c = some k →
      (∀ n, n < s.ctx.length → slot s n = none → (∀ j, j < n → slot s j ≠ none) →
        exec (.copy c) s = .next { s with
          ctx := s.ctx.set n (some ⟨k.alg, k.H, k.totalLen, k.buf⟩)
          status := ⟨0x00, false, true, s.status.overrun, BitVec.ofNat 8 n⟩
          latch := none
          held := []
          view := none
          draws := s.draws + 1 }) ∧
      ((∀ j, j < s.ctx.length → slot s j ≠ none) →
        exec (.copy c) s = .next { s with
          status := ⟨0x04, false, true, s.status.overrun, s.status.resultCtx⟩
          latch := none
          held := []
          view := none
          draws := s.draws + 1 })) ∧
    (slot s c = none →
      exec (.copy c) s = .next { s with
        status := ⟨0x11, false, true, s.status.overrun, s.status.resultCtx⟩
        latch := none
        held := []
        view := none
        draws := s.draws + 1 })

/-- R373: RELEASE frees the slot; every later command that names it before it is taken again, a second RELEASE too, is
InvalidContext.
`held`, `view` and `draws` are the model's own fields (log entry 5). -/
def Obligations.ReleaseFreesSlot : Prop :=
  ∀ (c : Nat) (s : State),
    (∀ k, slot s c = some k →
      exec (.release c) s = .next { s with
        ctx := s.ctx.set c none
        status := ⟨0x00, false, true, s.status.overrun, s.status.resultCtx⟩
        latch := none
        held := []
        view := none
        draws := s.draws + 1 }) ∧
    (∀ t, exec (.release c) s = .next t → slot t c = none) ∧
    (∀ i, i ∈ [Instr.reset c, .update c, .digest c, .squeeze c, .copy c, .release c] → slot s c = none →
      exec i s = .next { s with
        status := ⟨0x11, false, true, s.status.overrun, s.status.resultCtx⟩
        latch := none
        held := []
        view := none
        draws := s.draws + 1 })

/-- R410: ONESHOT writes the digest of the SRC_LEN bytes at the latched SRC_ADDR, as they were before any output byte is
written, at DST_ADDR, and touches no slot; SHAKE is InvalidAlgorithm, then MaximumLengthExceeded, then BusError.
`held`, `view` and `draws` are the model's own fields (log entry 5). -/
def Obligations.OneshotWritesDigest : Prop :=
  ∀ (alg : Alg) (s : State) (l : Latch), s.latch = some l →
    (algFamily alg ≠ .shake → l.args.srcLen.toNat ≤ maxLen alg →
      admitted s.platform l.args.srcAddr l.args.srcLen.toNat = true →
      admitted s.platform l.args.dstAddr (outLen alg) = true →
      exec (.oneshot alg) s = .next { s with
        mem := landOutput s (some ⟨l.args.dstAddr.toNat,
          hashOf alg (inputBytes s l.args.srcAddr l.args.srcLen.toNat)⟩)
        status := ⟨0x00, false, true, s.status.overrun, s.status.resultCtx⟩
        latch := none
        held := []
        view := none
        draws := s.draws + 1 }) ∧
    (algFamily alg = .shake →
      exec (.oneshot alg) s = .next { s with
        status := ⟨0x01, false, true, s.status.overrun, s.status.resultCtx⟩
        latch := none
        held := []
        view := none
        draws := s.draws + 1 }) ∧
    (algFamily alg ≠ .shake → maxLen alg < l.args.srcLen.toNat →
      exec (.oneshot alg) s = .next { s with
        status := ⟨0x03, false, true, s.status.overrun, s.status.resultCtx⟩
        latch := none
        held := []
        view := none
        draws := s.draws + 1 }) ∧
    (algFamily alg ≠ .shake → l.args.srcLen.toNat ≤ maxLen alg →
      (admitted s.platform l.args.srcAddr l.args.srcLen.toNat = false ∨
        admitted s.platform l.args.dstAddr (outLen alg) = false) →
      exec (.oneshot alg) s = .next { s with
        status := ⟨0x12, false, true, s.status.overrun, s.status.resultCtx⟩
        latch := none
        held := []
        view := none
        draws := s.draws + 1 })

/-- R415: HMAC writes the MAC of the message under the key at the latched DST_ADDR and touches no slot; SHAKE is
InvalidAlgorithm, then MaximumLengthExceeded for the inner hash or a hashed key, then BusError for any of the three ranges.
`held`, `view` and `draws` are the model's own fields (log entry 5). -/
def Obligations.HmacWritesMac : Prop :=
  ∀ (alg : Alg) (s : State) (l : Latch), s.latch = some l →
    let long := maxLen alg < blockLen alg + l.args.srcLen.toNat ∨
      (blockLen alg < l.args.keyLen.toNat ∧ maxLen alg < l.args.keyLen.toNat)
    (algFamily alg ≠ .shake → ¬long →
      admitted s.platform l.args.keyAddr l.args.keyLen.toNat = true →
      admitted s.platform l.args.srcAddr l.args.srcLen.toNat = true →
      admitted s.platform l.args.dstAddr (outLen alg) = true →
      exec (.hmac alg) s = .next { s with
        mem := landOutput s (some ⟨l.args.dstAddr.toNat,
          hmacDigest alg (inputBytes s l.args.keyAddr l.args.keyLen.toNat)
            (inputBytes s l.args.srcAddr l.args.srcLen.toNat)⟩)
        status := ⟨0x00, false, true, s.status.overrun, s.status.resultCtx⟩
        latch := none
        held := []
        view := none
        draws := s.draws + 1 }) ∧
    (algFamily alg = .shake →
      exec (.hmac alg) s = .next { s with
        status := ⟨0x01, false, true, s.status.overrun, s.status.resultCtx⟩
        latch := none
        held := []
        view := none
        draws := s.draws + 1 }) ∧
    (algFamily alg ≠ .shake → long →
      exec (.hmac alg) s = .next { s with
        status := ⟨0x03, false, true, s.status.overrun, s.status.resultCtx⟩
        latch := none
        held := []
        view := none
        draws := s.draws + 1 }) ∧
    (algFamily alg ≠ .shake → ¬long →
      (admitted s.platform l.args.keyAddr l.args.keyLen.toNat = false ∨
        admitted s.platform l.args.srcAddr l.args.srcLen.toNat = false ∨
        admitted s.platform l.args.dstAddr (outLen alg) = false) →
      exec (.hmac alg) s = .next { s with
        status := ⟨0x12, false, true, s.status.overrun, s.status.resultCtx⟩
        latch := none
        held := []
        view := none
        draws := s.draws + 1 })

/-! ### Which status a command reports -/

/-- R451: the ENGINE step reports IllegalCommand for a word that does not decode, otherwise the first of the checks 2 to 7
that fails, otherwise Success; the same of `exec` for every instruction. -/
def Obligations.CheckOrderDecidesStatus : Prop :=
  (∀ (s : State) (l : Latch), s.latch = some l → ∃ t, engineStep s = .next t ∧
    t.status.code = codeNumber (match decode l.word with
      | .error _ => .illegalCommand
      | .ok i => (firstFailure i s).getD .success)) ∧
  (∀ (i : Instr) (s : State), ∃ t, exec i s = .next t ∧ t.status.code = codeNumber ((firstFailure i s).getD .success))

/-- R448: RESET, UPDATE, DIGEST, SQUEEZE, COPY and RELEASE report InvalidContext exactly when the slot number is NCTX or
more or the slot is free; ALLOC, ONESHOT and HMAC never do. -/
def Obligations.InvalidContextCause : Prop :=
  (∀ (s t : State) (c : Nat) (i : Instr),
    i ∈ [Instr.reset c, .update c, .digest c, .squeeze c, .copy c, .release c] → exec i s = .next t →
    (t.status.code = 0x11 ↔ s.ctx.length ≤ c ∨ s.ctx[c]? = some none)) ∧
  (∀ (s t : State) (alg : Alg) (i : Instr), i ∈ [Instr.alloc alg, .oneshot alg, .hmac alg] → exec i s = .next t →
    t.status.code ≠ 0x11)

/-- R443: InvalidAlgorithm is reported exactly by DIGEST of a SHAKE context, SQUEEZE of another one, and ONESHOT and HMAC of
SHAKE; an algorithm id outside 0x01..0x0E does not decode at all. -/
def Obligations.InvalidAlgorithmCause : Prop :=
  (∀ (i : Instr) (s t : State), exec i s = .next t →
    (t.status.code = 0x01 ↔
      (∃ c k, i = .digest c ∧ slot s c = some k ∧ (k.alg = .shake128 ∨ k.alg = .shake256)) ∨
      (∃ c k, i = .squeeze c ∧ slot s c = some k ∧ k.alg ≠ .shake128 ∧ k.alg ≠ .shake256) ∨
      (∃ alg, (i = .oneshot alg ∨ i = .hmac alg) ∧ (alg = .shake128 ∨ alg = .shake256)))) ∧
  (∀ w : BitVec 32, (w.extractLsb' 0 8).toNat ∈ [0x01, 0x08, 0x09] →
    ((w.extractLsb' 8 8).toNat = 0 ∨ 0x0E < (w.extractLsb' 8 8).toNat) → ∃ e, decode w = .error e)

/-- R444: InvalidLength is reported exactly by SQUEEZE of a SHAKE context with DST_LEN = 0. -/
def Obligations.InvalidLengthCause : Prop :=
  ∀ (i : Instr) (s t : State), exec i s = .next t →
    (t.status.code = 0x02 ↔
      ∃ c k, i = .squeeze c ∧ slot s c = some k ∧ algFamily k.alg = .shake ∧ (commandArgs s).dstLen = 0)

/-- R445: MaximumLengthExceeded is reported exactly by an UPDATE past MAXLEN, a ONESHOT longer than MAXLEN, and an HMAC whose
inner hash or hashed key is, all sums exact. -/
def Obligations.MaximumLengthCause : Prop :=
  ∀ (i : Instr) (s t : State), exec i s = .next t →
    (t.status.code = 0x03 ↔
      (∃ c k, i = .update c ∧ slot s c = some k ∧
        maxLen k.alg < k.totalLen.toNat + (commandArgs s).srcLen.toNat) ∨
      (∃ alg, i = .oneshot alg ∧ algFamily alg ≠ .shake ∧ maxLen alg < (commandArgs s).srcLen.toNat) ∨
      (∃ alg, i = .hmac alg ∧ algFamily alg ≠ .shake ∧
        (maxLen alg < blockLen alg + (commandArgs s).srcLen.toNat ∨
          (blockLen alg < (commandArgs s).keyLen.toNat ∧ maxLen alg < (commandArgs s).keyLen.toNat))))

/-- R446: OutOfMemory is reported exactly by ALLOC, and COPY of a held context, when every slot holds a context. -/
def Obligations.OutOfMemoryCause : Prop :=
  ∀ (i : Instr) (s t : State), exec i s = .next t →
    (t.status.code = 0x04 ↔
      ((∃ alg, i = .alloc alg) ∨ ∃ c k, i = .copy c ∧ slot s c = some k) ∧
        ∀ j, j < s.ctx.length → slot s j ≠ none)

/-- R81: a range is admitted iff it is empty, or ends by 2^64, without wrapping, and MemOK holds of it. -/
def Obligations.RangeAdmission : Prop :=
  ∀ (p : Platform) (a : Word64) (n : Nat),
    (admitted p a n = true ↔ n = 0 ∨ (a.toNat + n ≤ 2 ^ 64 ∧ memOK p a.toNat n = true))

/-! ### Frames -/

/-- DIGEST, SQUEEZE, ONESHOT and HMAC change no register, no slot, not RESULT_CTX or OVERRUN, and no byte of host memory
outside the OUT bytes (for SQUEEZE the DST_LEN bytes) at DST_ADDR (R80, R370, R371, R374, R410, R415). -/
def Obligations.OutputCommandFrame : Prop :=
  ∀ (i : Instr) (s t : State),
    ((∃ c, i = .digest c) ∨ (∃ c, i = .squeeze c) ∨ (∃ alg, i = .oneshot alg) ∨ ∃ alg, i = .hmac alg) →
    exec i s = .next t →
    let dst := (commandArgs s).dstAddr.toNat
    t.regs = s.regs ∧ t.irqEn = s.irqEn ∧ t.ctx = s.ctx ∧ t.platform = s.platform ∧ t.agenda = s.agenda ∧
    t.readData = s.readData ∧ t.status.overrun = s.status.overrun ∧ t.status.resultCtx = s.status.resultCtx ∧
    (∀ c k, i = .digest c → slot s c = some k → ∀ x, x < dst ∨ dst + outLen k.alg ≤ x →
      readByte t.mem x = readByte s.mem x) ∧
    (∀ c, i = .digest c → slot s c = none → ∀ x, readByte t.mem x = readByte s.mem x) ∧
    (∀ c, i = .squeeze c → ∀ x, x < dst ∨ dst + (commandArgs s).dstLen.toNat ≤ x →
      readByte t.mem x = readByte s.mem x) ∧
    (∀ alg, i = .oneshot alg ∨ i = .hmac alg → ∀ x, x < dst ∨ dst + outLen alg ≤ x →
      readByte t.mem x = readByte s.mem x)

/-- ALLOC, RESET, UPDATE, COPY and RELEASE change no register, no byte of host memory, not OVERRUN, and no slot but one:
RESET, UPDATE and RELEASE the one they name, and not RESULT_CTX; ALLOC and COPY one that was free (R80, R365 to R367, R372,
R373). -/
def Obligations.SlotCommandFrame : Prop :=
  ∀ (i : Instr) (s t : State),
    ((∃ alg, i = .alloc alg) ∨ ∃ c, i ∈ [Instr.reset c, .update c, .copy c, .release c]) →
    exec i s = .next t →
    t.regs = s.regs ∧ t.irqEn = s.irqEn ∧ t.platform = s.platform ∧ t.agenda = s.agenda ∧ t.readData = s.readData ∧
    t.status.overrun = s.status.overrun ∧ t.ctx.length = s.ctx.length ∧
    (∀ x, readByte t.mem x = readByte s.mem x) ∧
    (∀ c, i ∈ [Instr.reset c, .update c, .release c] →
      t.status.resultCtx = s.status.resultCtx ∧ ∀ j, j ≠ c → slot t j = slot s j) ∧
    (((∃ alg, i = .alloc alg) ∨ ∃ c, i = .copy c) →
      ∃ n, (slot s n ≠ none → t.ctx = s.ctx) ∧ ∀ j, j ≠ n → slot t j = slot s j)

/-- R374: only ALLOC, RESET, UPDATE, COPY and RELEASE change a slot; ALLOC and COPY fill a free one, RESET and UPDATE change a
held one, RELEASE frees one; DIGEST, SQUEEZE, ONESHOT and HMAC change none. -/
def Obligations.OnlySlotCommandsChangeSlots : Prop :=
  ∀ (i : Instr) (s t : State), exec i s = .next t →
    (((∃ c, i = .digest c) ∨ (∃ c, i = .squeeze c) ∨ (∃ alg, i = .oneshot alg) ∨ ∃ alg, i = .hmac alg) → t.ctx = s.ctx) ∧
    (∀ j, slot t j ≠ slot s j →
      (((∃ alg, i = .alloc alg) ∨ ∃ c, i = .copy c) ∧ slot s j = none ∧ slot t j ≠ none) ∨
      ((i = .reset j ∨ i = .update j) ∧ slot s j ≠ none ∧ slot t j ≠ none) ∨
      (i = .release j ∧ slot s j ≠ none ∧ slot t j = none))

/-! ### Host memory and the draws -/

/-- A byte stored by HOST is read back there and nowhere else, and the step changes nothing of HASHCORE's (R80, R87). -/
def Obligations.HostByteStore : Prop :=
  ∀ (s : State) (addr : Word64) (b : Byte) (rest : List Event), Memory.wf s.mem →
    s.agenda = .host (.memWrite addr b) :: rest →
    ∃ t, step s = .next t ∧ (∀ x, readByte t.mem x = if x = addr.toNat then b else readByte s.mem x) ∧
      t.regs = s.regs ∧ t.irqEn = s.irqEn ∧ t.status = s.status ∧ t.latch = s.latch ∧ t.ctx = s.ctx

/-- R497 (and R83): an output byte HOST did not write during the command is the command's; one HOST did write is HOST's or
the command's; every address outside the range is unchanged; and a HOST write while a command is latched is such a write. -/
def Obligations.RacedOutputBytes : Prop :=
  (∀ (s : State) (a : Nat) (bs : List Byte), Memory.wf s.mem →
    let m := landOutput s (some ⟨a, bs⟩)
    (∀ x, x < a ∨ a + bs.length ≤ x → readByte m x = readByte s.mem x) ∧
    (∀ j b, bs[j]? = some b → (heldAt s (a + j) = false → readByte m (a + j) = b) ∧
      (heldAt s (a + j) = true → readByte m (a + j) = readByte s.mem (a + j) ∨ readByte m (a + j) = b))) ∧
  (∀ (s : State) (addr : Word64) (b : Byte), Memory.wf s.mem → s.latch ≠ none →
    heldAt (hostStore s addr b) addr.toNat = true ∧ readByte (hostStore s addr b).mem addr.toNat = b)

/-- A command uses, for an input byte, memory's byte or one HOST overwrote during the command (R83, R495), in every state
that meets the invariant; while HOST has seen none of its output, in every state, and memory's when HOST overwrote none. A
HOST write while a command is latched keeps the value it replaces for that choice. `held` and `view` are the model's own
fields (log entry 5), the choice is a free value (log entry 7). -/
def Obligations.RacedInputBytes : Prop :=
  (∀ (s : State) (a : Nat), s.Inv → inputByte s a = readByte s.mem a ∨ (a, inputByte s a) ∈ s.held) ∧
  (∀ (s : State) (a : Nat), s.view = none →
    (inputByte s a = readByte s.mem a ∨ (a, inputByte s a) ∈ s.held) ∧
    ((∀ v, (a, v) ∉ s.held) → inputByte s a = readByte s.mem a)) ∧
  (∀ (s : State) (addr : Word64) (b : Byte), s.latch ≠ none →
    (hostStore s addr b).held = (addr.toNat, readByte s.mem addr.toNat) :: s.held) ∧
  (∀ (s : State) (a : Word64) (n : Nat), s.view = none → s.held = [] → inputBytes s a n = readBytes s.mem a.toNat n)

/-- R496, as the model reads it. A HOST read of a byte returns memory's value or, while a command that writes the byte is in
flight, possibly the value the command writes; it changes no register, slot or byte. What it showed stays what the command
would write whatever HOST does next, and the ENGINE step lands that output. Two readings are the model's: memory's value is
the one before the command unless HOST itself has written the byte since, which R87 lets HOST see (log entry 7); and with
nothing in flight the read returns memory's, also before HOST has read the completion in STATUS (log entry 13, DEDUCED; R495's
last sentence lets a model do so). `view` is the model's own field (log entry 5). -/
def Obligations.HostReadOfRunningOutput : Prop :=
  (∀ (s : State) (addr : Word64) (rest : List Event), s.agenda = .host (.memRead addr) :: rest →
    ∃ t, step s = .next t ∧
      (t.readData = (readByte s.mem addr.toNat).setWidth 64 ∨
        ∃ v, plannedByte s addr.toNat = some v ∧ t.readData = v.setWidth 64 ∧
          plannedOutput t = plannedOutput s ∧ t.view ≠ none) ∧
      (s.latch = none → t.readData = (readByte s.mem addr.toNat).setWidth 64) ∧
      t.regs = s.regs ∧ t.irqEn = s.irqEn ∧ t.status = s.status ∧ t.latch = s.latch ∧ t.ctx = s.ctx ∧ t.mem = s.mem) ∧
  (∀ (s t : State) (op : HostOp) (rest : List Event), s.view ≠ none → s.latch ≠ none → s.agenda = .host op :: rest →
    step s = .next t → t.latch ≠ none → plannedOutput t = plannedOutput s ∧ t.view ≠ none) ∧
  (∀ (s t : State) (o : Output), plannedOutput s = some o → engineStep s = .next t → t.mem = landOutput s (some o))

/-! ### Reset and the invariant -/

/-- R490 and R494: device reset, at any point, gives every register, STATUS, the latch and every slot its reset value. A byte
that the abandoned command would have written holds the command's value or the one before the command; every other byte is
kept. The value before the command is `byteBefore`: memory's where HOST wrote nothing during the command, and HOST's writes
during it leave it. `held`, from which it is read, is the model's own field (log entry 5), the choice is a free value (log
entry 7), a command that would fail writes no byte (log entry 14), and a byte that is in an input range too may take the
command's value (log entry 15). -/
def Obligations.DeviceResetClearsAll : Prop :=
  ∀ (s : State) (rest : List Event), Memory.wf s.mem → s.agenda = .deviceReset :: rest →
    (∃ t, step s = .next t ∧ t.regs = ⟨0, 0, 0, 0, 0, 0⟩ ∧ t.irqEn = false ∧ t.status = ⟨0x00, false, false, false, 0⟩ ∧
      t.latch = none ∧ t.ctx.length = s.ctx.length ∧ (∀ c, slot t c = none) ∧
      (∀ x v, plannedByte s x = some v → readByte t.mem x = v ∨ readByte t.mem x = byteBefore s x) ∧
      (∀ x, plannedByte s x = none → readByte t.mem x = readByte s.mem x) ∧
      (s.latch = none → t.mem = s.mem)) ∧
    (s.held = [] → ∀ x, byteBefore s x = readByte s.mem x) ∧
    (s.latch ≠ none → ∀ addr b x, byteBefore (hostStore s addr b) x = byteBefore s x)

/-- R491: the reset state: every register reads 0, CAPS its constant, the latch is none, the line is low and every slot is
free. -/
def Obligations.ResetStateValues : Prop :=
  State.reset.regs = ⟨0, 0, 0, 0, 0, 0⟩ ∧ State.reset.irqEn = false ∧
  State.reset.status = ⟨0x00, false, false, false, 0⟩ ∧ State.reset.latch = none ∧ (∀ c, slot State.reset c = none) ∧
  irqLine State.reset = false ∧ (∀ o, o ≠ 0x48 → readReg State.reset 64 o = 0) ∧
  readReg State.reset 64 0x48 = (0x0E <<< 8 ||| BitVec.ofNat 64 State.reset.ctx.length)

/-- The reset state meets the invariant. -/
def Obligations.ResetStateMeetsInvariant : Prop := State.reset.Inv

/-- Every step keeps the invariant: canonical memory within the address space (R80), BUSY as the latch says (R46), a code of
R116, NCTX 1..255 (R7), RESULT_CTX naming a slot (R33), and every context of its family's shape, within MAXLEN, with exactly
the pending bytes and H the result of absorbing some message (R37 to R40). -/
def Obligations.StepKeepsInvariant : Prop :=
  ∀ s t : State, s.Inv → step s = .next t → t.Inv

/-! ### Contexts -/

/-- R368: on an eager family the absorb compresses, in order, every whole block of the pending and new bytes, keeps the
rest, which is shorter than a block, and adds the number of new bytes to total_len exactly. -/
def Obligations.AbsorbEagerByBlocks : Prop :=
  ∀ (k : Context) (data : List Byte), isLazy k.alg = false →
    k.totalLen.toNat + data.length ≤ maxLen k.alg →
    let s := k.buf ++ data
    let n := s.length / blockLen k.alg
    let k' := absorb k data
    k'.alg = k.alg ∧ k'.totalLen.toNat = k.totalLen.toNat + data.length ∧
    k'.H = (List.range n).foldl
      (fun h j => compressEager k.alg h ((s.drop (blockLen k.alg * j)).take (blockLen k.alg))) k.H ∧
    k'.buf = s.drop (blockLen k.alg * n) ∧ k'.buf.length < blockLen k.alg ∧
    (k.Ok → k'.buf.length = k'.totalLen.toNat % blockLen k.alg)

/-- R369 and R287: on a lazy family the absorb compresses a block only when at least one byte follows it, block j with the
counter total_len - p + (j + 1)·B and last = false, and keeps 1..B bytes once any byte has come. `compressLazy` gives the
compression that counter's low word, the high word being 0 (R369, C4; log entry 9). -/
def Obligations.AbsorbLazyByBlocks : Prop :=
  ∀ (k : Context) (data : List Byte), isLazy k.alg = true →
    k.totalLen.toNat + data.length ≤ maxLen k.alg →
    let s := k.buf ++ data
    let n := (s.length - 1) / blockLen k.alg
    let k' := absorb k data
    k'.alg = k.alg ∧ k'.totalLen.toNat = k.totalLen.toNat + data.length ∧
    k'.H = (List.range n).foldl
      (fun h j => compressLazy k.alg h ((s.drop (blockLen k.alg * j)).take (blockLen k.alg))
        (k.totalLen.toNat - k.buf.length + (j + 1) * blockLen k.alg) false) k.H ∧
    k'.buf = s.drop (blockLen k.alg * n) ∧ k'.buf.length ≤ blockLen k.alg ∧ (s ≠ [] → 1 ≤ k'.buf.length)

/-- Chunking invariance at the commands (R375): two successful UPDATEs of a context, whatever HOST does between them, leave
what one UPDATE of the two messages' concatenation leaves. -/
def Obligations.SplitUpdateEqualsOneUpdate : Prop :=
  ∀ (c : Nat) (k : Context) (s1 s2 s3 t1 t2 t3 : State) (l1 l2 l3 : Latch), k.Ok →
    s1.latch = some l1 → s2.latch = some l2 → s3.latch = some l3 →
    slot s1 c = some k → slot s3 c = some k → slot s2 c = slot t1 c →
    exec (.update c) s1 = .next t1 → exec (.update c) s2 = .next t2 → exec (.update c) s3 = .next t3 →
    t1.status.code = 0x00 → t2.status.code = 0x00 → t3.status.code = 0x00 →
    inputBytes s3 l3.args.srcAddr l3.args.srcLen.toNat =
      inputBytes s1 l1.args.srcAddr l1.args.srcLen.toNat ++ inputBytes s2 l2.args.srcAddr l2.args.srcLen.toNat →
    slot t3 c = slot t2 c

/-- Chunking invariance of the output (R375): absorbing any chunks one after another and finalising gives what the
one-shot hash of their concatenation gives, and for SHAKE the same output of any length. -/
def Obligations.ChunkedHashEqualsOneshot : Prop :=
  ∀ (alg : Alg) (chunks : List (List Byte)), chunks.flatten.length ≤ maxLen alg →
    (algFamily alg ≠ .shake →
      finalize (chunks.foldl absorb (freshContext alg)) (outLen alg) = hashOf alg chunks.flatten) ∧
    (∀ l, finalize (chunks.foldl absorb (freshContext alg)) l = finalize (absorb (freshContext alg) chunks.flatten) l)

/-- Two SQUEEZEs of one context write outputs of which the shorter is a prefix of the longer (R371). -/
def Obligations.SqueezeOutputsShareOneStream : Prop :=
  ∀ (c : Nat) (k : Context) (s1 s2 : State) (l1 l2 : Latch), k.Ok → algFamily k.alg = .shake →
    slot s1 c = some k → slot s2 c = some k → s1.latch = some l1 → s2.latch = some l2 →
    Memory.wf s1.mem → Memory.wf s2.mem → s1.held = [] → s2.held = [] →
    l1.args.dstLen ≠ 0 → l1.args.dstLen.toNat ≤ l2.args.dstLen.toNat →
    admitted s1.platform l1.args.dstAddr l1.args.dstLen.toNat = true →
    admitted s2.platform l2.args.dstAddr l2.args.dstLen.toNat = true →
    ∃ t1 t2, exec (.squeeze c) s1 = .next t1 ∧ exec (.squeeze c) s2 = .next t2 ∧
      ∀ j, j < l1.args.dstLen.toNat →
        readByte t1.mem (l1.args.dstAddr.toNat + j) = readByte t2.mem (l2.args.dstAddr.toNat + j)

/-- A key of more than B bytes gives the same MAC as its hash, and every MAC has exactly OUT bytes (R412, R414). -/
def Obligations.HmacLongKeyEqualsHashedKey : Prop :=
  ∀ (alg : Alg) (key msg : List Byte), algFamily alg ≠ .shake →
    (hmacDigest alg key msg).length = outLen alg ∧
    (blockLen alg < key.length → hmacDigest alg key msg = hmacDigest alg (hashOf alg key) msg)

/-- The bitwise functions of MD5 (R152 to R155) and SHA-1 (R183), bit by bit and at their corner cases, each in the steps that
use it, and SHA-2's Ch and Maj at any width: a choice by one operand, a parity, or a majority. -/
def Obligations.RoundFunctionsBitwise : Prop :=
  (∀ (x y z : Word32) (t i : Nat), i < 32 →
    (t ≤ 15 → (md5Fun t x y z).getLsbD i = if x.getLsbD i then y.getLsbD i else z.getLsbD i) ∧
    (16 ≤ t → t ≤ 31 → (md5Fun t x y z).getLsbD i = if z.getLsbD i then x.getLsbD i else y.getLsbD i) ∧
    (32 ≤ t → t ≤ 47 → (md5Fun t x y z).getLsbD i = (x.getLsbD i != (y.getLsbD i != z.getLsbD i))) ∧
    (48 ≤ t → t ≤ 63 → (md5Fun t x y z).getLsbD i = (y.getLsbD i != (x.getLsbD i || !z.getLsbD i)))) ∧
  (∀ x y z : Word32, md5F 0xFFFFFFFF y z = y ∧ md5F 0 y z = z ∧ md5G x y 0xFFFFFFFF = x ∧ md5G x y 0 = y ∧
    md5H x x z = z ∧ md5I x y 0 = ~~~y) ∧
  (∀ (b c d : Word32) (t i : Nat), i < 32 →
    (t ≤ 19 → (sha1Fun t b c d).getLsbD i = if b.getLsbD i then c.getLsbD i else d.getLsbD i) ∧
    ((20 ≤ t ∧ t ≤ 39) ∨ (60 ≤ t ∧ t ≤ 79) →
      (sha1Fun t b c d).getLsbD i = (b.getLsbD i != (c.getLsbD i != d.getLsbD i))) ∧
    (40 ≤ t → t ≤ 59 → (sha1Fun t b c d).getLsbD i = if b.getLsbD i = c.getLsbD i then b.getLsbD i else d.getLsbD i)) ∧
  (∀ (w : Nat) (x y z : BitVec w) (i : Nat), i < w →
    ((shaCh x y z).getLsbD i = if x.getLsbD i then y.getLsbD i else z.getLsbD i) ∧
    ((shaMaj x y z).getLsbD i = if x.getLsbD i = y.getLsbD i then x.getLsbD i else z.getLsbD i))

/-- The message schedules of SHA-1 (R181, R182) and of both SHA-2 families (R204, R209, with the σ of R205 and R206): sixteen
big-endian words of the block, then the recurrence. -/
def Obligations.MessageSchedules : Prop :=
  ∀ (m : List Byte) (t : Nat),
    (let W := wordAt (sha1Schedule m)
     (t < 16 → W t = beWord 32 m t) ∧
     (16 ≤ t → t ≤ 79 → W t = rotl (W (t - 3) ^^^ W (t - 8) ^^^ W (t - 14) ^^^ W (t - 16)) 1)) ∧
    (let W := wordAt (sha2Schedule sha256Family m)
     (t < 16 → W t = beWord 32 m t) ∧
     (16 ≤ t → t ≤ 63 → W t =
      (rotr (W (t - 2)) 17 ^^^ rotr (W (t - 2)) 19 ^^^ (W (t - 2) >>> 10)) + W (t - 7) +
        (rotr (W (t - 15)) 7 ^^^ rotr (W (t - 15)) 18 ^^^ (W (t - 15) >>> 3)) + W (t - 16))) ∧
    (let W := wordAt (sha2Schedule sha512Family m)
     (t < 16 → W t = beWord 64 m t) ∧
     (16 ≤ t → t ≤ 79 → W t =
      (rotr (W (t - 2)) 19 ^^^ rotr (W (t - 2)) 61 ^^^ (W (t - 2) >>> 6)) + W (t - 7) +
        (rotr (W (t - 15)) 1 ^^^ rotr (W (t - 15)) 8 ^^^ (W (t - 15) >>> 7)) + W (t - 16)))

/-- The padded tail of a Merkle–Damgård message (R320 to R322): the pending bytes, 0x80, zeros, and the bit length, filling
one block when p ≤ 55 (p ≤ 111 for the 128-byte blocks) and two otherwise. -/
def Obligations.MdPaddingShape : Prop :=
  ∀ k : Context,
    (algFamily k.alg = .md5 ∨ algFamily k.alg = .sha1 ∨ algFamily k.alg = .sha256 ∨ algFamily k.alg = .sha512) →
    k.buf.length < blockLen k.alg → k.totalLen.toNat ≤ maxLen k.alg →
    let p := k.buf.length
    let lf := if algFamily k.alg = .sha512 then 16 else 8
    let nb := if p ≤ (if algFamily k.alg = .sha512 then 111 else 55) then 1 else 2
    (mdTail k).length = nb * blockLen k.alg ∧
    (mdTail k).take (p + 1) = k.buf ++ [0x80] ∧
    (∀ j, p < j → j < nb * blockLen k.alg - lf → (mdTail k)[j]? = some 0x00) ∧
    (algFamily k.alg = .md5 → leNat ((mdTail k).drop (nb * blockLen k.alg - lf)) = 8 * k.totalLen.toNat) ∧
    (algFamily k.alg ≠ .md5 → beNat ((mdTail k).drop (nb * blockLen k.alg - lf)) = 8 * k.totalLen.toNat)

/-- The sponge's padded block (R324, R325): one block, the pending bytes then zeros, with the suffix xored into byte p and
0x80 into byte B - 1, also where they are the same byte. -/
def Obligations.SpongePaddingBlock : Prop :=
  ∀ k : Context, (algFamily k.alg = .sha3 ∨ algFamily k.alg = .shake) → k.buf.length < blockLen k.alg →
    (spongeBlock k).length = blockLen k.alg ∧
    ∀ j, j < blockLen k.alg →
      (spongeBlock k)[j]? = some ((k.buf.getD j 0) ^^^
        (if j = k.buf.length then (if algFamily k.alg = .shake then 0x1F else 0x06) else 0) ^^^
        (if j = blockLen k.alg - 1 then 0x80 else 0))

/-- R243: the two forms of π agree, and lane 0 stays in place. -/
def Obligations.KeccakPiForms : Prop :=
  ∀ a : List Word64,
    (∀ x y, x < 5 → y < 5 → wordAt (keccakPi a) (y + 5 * ((2 * x + 3 * y) % 5)) = wordAt a (x + 5 * y)) ∧
    (∀ x y, x < 5 → y < 5 → wordAt (keccakPi a) (x + 5 * y) = wordAt a ((x + 3 * y) % 5 + 5 * x)) ∧
    wordAt (keccakPi a) 0 = wordAt a 0

/-- R417: the number of compressions or permutations of a hash and of an HMAC, as its formula gives it. -/
def Obligations.CompressionCounts : Prop :=
  ∀ (alg : Alg), algFamily alg ≠ .shake →
    (∀ m : List Byte, hashCount alg m = countFormula alg m.length) ∧
    (∀ key msg : List Byte,
      hmacCount alg key msg = countFormula alg (blockLen alg + msg.length) + countFormula alg (blockLen alg + outLen alg) +
        (if blockLen alg < key.length then countFormula alg key.length else 0))

/-! ### Isolation and progress -/

/-- No two slots share state (R35): what RESET, UPDATE, DIGEST, SQUEEZE and RELEASE report and leave depends on no slot but
their own, and ONESHOT and HMAC depend on no slot. ALLOC and COPY, which look for a free slot among all, are not among
them. -/
def Obligations.SlotIsolation : Prop :=
  ∀ (s : State) (x : List (Option Context)),
    (∀ (c : Nat) (i : Instr), i ∈ [Instr.reset c, .update c, .digest c, .squeeze c, .release c] →
      x.length = s.ctx.length → x.getD c none = s.ctx.getD c none →
      ∃ t u, exec i s = .next t ∧ exec i { s with ctx := x } = .next u ∧ u.status = t.status ∧ u.mem = t.mem ∧
        slot u c = slot t c ∧ ∀ j, j ≠ c → slot u j = x.getD j none) ∧
    (∀ (alg : Alg) (i : Instr), i ∈ [Instr.oneshot alg, .hmac alg] →
      ∃ t, exec i s = .next t ∧ exec i { s with ctx := x } = .next { t with ctx := x })

/-- R45: a running command does not depend on later writes to the argument registers. -/
def Obligations.LatchIsolatesArguments : Prop :=
  ∀ (i : Instr) (s : State) (r : ArgRegs), s.latch ≠ none →
    ∃ t, exec i s = .next t ∧ exec i { s with regs := r } = .next { t with regs := r }

/-- R115: a command ignores the argument registers it does not use. -/
def Obligations.UnusedArgumentsIgnored : Prop :=
  ∀ (i : Instr) (s : State) (w : BitVec 32) (a b : ArgRegs),
    (match i with
      | .alloc _ => True
      | .reset _ => True
      | .copy _ => True
      | .release _ => True
      | .update _ => a.srcAddr = b.srcAddr ∧ a.srcLen = b.srcLen
      | .digest _ => a.dstAddr = b.dstAddr
      | .squeeze _ => a.dstAddr = b.dstAddr ∧ a.dstLen = b.dstLen
      | .oneshot _ => a.srcAddr = b.srcAddr ∧ a.srcLen = b.srcLen ∧ a.dstAddr = b.dstAddr
      | .hmac _ => a.srcAddr = b.srcAddr ∧ a.srcLen = b.srcLen ∧ a.keyAddr = b.keyAddr ∧ a.keyLen = b.keyLen ∧
          a.dstAddr = b.dstAddr) →
    exec i { s with latch := some ⟨w, a⟩ } = exec i { s with latch := some ⟨w, b⟩ }

/-- R361: every accepted command is eventually stepped: whatever HOST and the platform do, if HOST's checks do not end the
run, the command in flight has ended by the time the agenda is through. -/
def Obligations.AcceptedCommandEnds : Prop :=
  ∀ s : State, s.latch ≠ none → s.status.busy = s.latch.isSome →
    (∀ code, Event.host (.expect code) ∉ s.agenda) →
    ∃ (n : Nat) (t : State), n ≤ s.agenda.length + 1 ∧ Host.Core.run Sys2Proof.core n s = .next t ∧
      t.latch = none ∧ t.status.busy = false
end

