-- ==== Sys2Proof/Laws/Blocks.lean ====
section
/-! SUPPORT. The block loop of the absorbs (spec 46_streaming.md R368, R369): what it computes, block by block, and that it can
be split anywhere, the reason of chunking invariance (R375). -/

namespace Sys2Proof.Laws

open Sys2Proof Sys2Proof.Machine

variable {σ : Type} {b keep : Nat} {f : σ → List Byte → σ}

/-- The fuel does not matter once it is at least the number of bytes. -/
theorem blockLoop_fuel (hb : 0 < b) {n m : Nat} {s : List Byte} (hn : s.length ≤ n) (hm : s.length ≤ m) (st : σ) :
    blockLoop b keep f n st s = blockLoop b keep f m st s := by
  induction n generalizing m st s with
  | zero =>
    have h0 : s.length = 0 := by omega
    cases m with
    | zero => rfl
    | succ m => simp only [blockLoop]; rw [if_neg (by omega)]
  | succ n ih =>
    cases m with
    | zero => simp only [blockLoop]; rw [if_neg (by omega)]
    | succ m =>
      simp only [blockLoop]
      split
      · exact ih (by rw [List.length_drop]; omega) (by rw [List.length_drop]; omega) _
      · rfl

/-- The loop with its own fuel, as R368 and R369 write it. -/
theorem blockLoop_unfold (hb : 0 < b) (st : σ) (s : List Byte) :
    blockLoop b keep f s.length st s =
      if b + keep ≤ s.length then blockLoop b keep f (s.drop b).length (f st (s.take b)) (s.drop b) else (st, s) := by
  rcases Nat.eq_zero_or_pos s.length with h0 | hpos
  · rw [if_neg (by omega), h0]; rfl
  · obtain ⟨n, hn⟩ : ∃ n, s.length = n + 1 := ⟨s.length - 1, by omega⟩
    rw [show blockLoop b keep f s.length st s = blockLoop b keep f (n + 1) st s by rw [hn]]
    simp only [blockLoop]
    split
    · exact blockLoop_fuel hb (by rw [List.length_drop]; omega) le_rfl _
    · rfl

/-- The loop may stop and go on with what is left and more bytes. -/
theorem blockLoop_append (hb : 0 < b) (st : σ) (s t : List Byte) :
    blockLoop b keep f (s ++ t).length st (s ++ t) =
      blockLoop b keep f ((blockLoop b keep f s.length st s).2 ++ t).length (blockLoop b keep f s.length st s).1
        ((blockLoop b keep f s.length st s).2 ++ t) := by
  induction hlen : s.length using Nat.strong_induction_on generalizing st s with
  | _ n ih =>
    subst hlen
    rw [blockLoop_unfold hb st s]
    split
    · next h =>
      rw [blockLoop_unfold hb st (s ++ t), if_pos (by rw [List.length_append]; omega),
        List.take_append_of_le_length (by omega), List.drop_append_of_le_length (by omega)]
      exact ih _ (by rw [List.length_drop]; omega) _ _ rfl
    · rfl

/-- How many blocks the loop takes off n bytes. -/
def blocksOf (b keep n : Nat) : Nat := (n - keep) / b

/-- Closed form: the blocks in order, and the bytes after them. -/
theorem blockLoop_closed (hb : 0 < b) (st : σ) (s : List Byte) :
    blockLoop b keep f s.length st s =
      ((List.range (blocksOf b keep s.length)).foldl (fun x i => f x ((s.drop (b * i)).take b)) st,
        s.drop (b * blocksOf b keep s.length)) := by
  induction hlen : s.length using Nat.strong_induction_on generalizing st s with
  | _ n ih =>
    subst hlen
    rw [blockLoop_unfold hb st s]
    split
    · next h =>
      rw [ih _ (by rw [List.length_drop]; omega) _ _ rfl]
      have hj : blocksOf b keep s.length = blocksOf b keep (s.drop b).length + 1 := by
        simp only [blocksOf, List.length_drop]
        rw [show s.length - keep = (s.length - b - keep) + b by omega, Nat.add_div_right _ hb]
      rw [hj, List.range_succ_eq_map, List.foldl_cons, List.foldl_map]
      simp only [List.drop_drop, Nat.mul_zero, List.drop_zero, Nat.succ_eq_add_one, Nat.mul_add, Nat.mul_one]
      simp only [Nat.add_comm]
    · next h =>
      have hj : blocksOf b keep s.length = 0 := Nat.div_eq_of_lt (by omega)
      simp [hj]

/-- The length of what the loop leaves. -/
theorem blockLoop_rest_length (hb : 0 < b) (st : σ) (s : List Byte) :
    (blockLoop b keep f s.length st s).2.length = s.length - b * blocksOf b keep s.length := by
  rw [blockLoop_closed hb]; simp

theorem blocksOf_mul_le (n : Nat) : b * blocksOf b keep n ≤ n := by
  unfold blocksOf
  exact le_trans (Nat.mul_div_le _ _) (Nat.sub_le _ _)

/-- A property that every block keeps holds after the loop. -/
theorem blockLoop_keeps {P : σ → Prop} (hf : ∀ st m, P st → P (f st m)) (n : Nat) {st : σ} (s : List Byte) (h : P st) :
    P (blockLoop b keep f n st s).1 := by
  induction n generalizing st s with
  | zero => exact h
  | succ n ih =>
    simp only [blockLoop]
    split
    · exact ih _ (hf _ _ h)
    · exact h

end Sys2Proof.Laws
end

