-- ==== Sys2Proof/Laws/State.lean ====
section
/-! SUPPORT. One lemma per field per update of the state, so that no proof unfolds a record update. -/

namespace Sys2Proof.Laws

open Sys2Proof.Machine

variable (s : State) (code : StatusCode) (e : Effect) (v : Word64) (w : BitVec 32) (o : Option Output)

/-! ### complete -/

@[simp] theorem complete_regs : (complete s code).regs = s.regs := rfl
@[simp] theorem complete_irqEn : (complete s code).irqEn = s.irqEn := rfl
@[simp] theorem complete_code : (complete s code).status.code = codeNumber code := rfl
@[simp] theorem complete_busy : (complete s code).status.busy = false := rfl
@[simp] theorem complete_done : (complete s code).status.done = true := rfl
@[simp] theorem complete_overrun : (complete s code).status.overrun = s.status.overrun := rfl
@[simp] theorem complete_resultCtx : (complete s code).status.resultCtx = s.status.resultCtx := rfl
@[simp] theorem complete_latch : (complete s code).latch = none := rfl
@[simp] theorem complete_ctx : (complete s code).ctx = s.ctx := rfl
@[simp] theorem complete_mem : (complete s code).mem = s.mem := rfl
@[simp] theorem complete_platform : (complete s code).platform = s.platform := rfl
@[simp] theorem complete_agenda : (complete s code).agenda = s.agenda := rfl
@[simp] theorem complete_readData : (complete s code).readData = s.readData := rfl
@[simp] theorem complete_held : (complete s code).held = [] := rfl
@[simp] theorem complete_view : (complete s code).view = none := rfl
@[simp] theorem complete_draws : (complete s code).draws = s.draws + 1 := rfl
@[simp] theorem complete_looks : (complete s code).looks = s.looks := rfl

/-! ### commit -/

@[simp] theorem commit_error : commit s (.error code) = complete s code := rfl
@[simp] theorem commit_ok_regs : (commit s (.ok e)).regs = s.regs := rfl
@[simp] theorem commit_ok_irqEn : (commit s (.ok e)).irqEn = s.irqEn := rfl
@[simp] theorem commit_ok_code : (commit s (.ok e)).status.code = codeNumber .success := rfl
@[simp] theorem commit_ok_busy : (commit s (.ok e)).status.busy = false := rfl
@[simp] theorem commit_ok_done : (commit s (.ok e)).status.done = true := rfl
@[simp] theorem commit_ok_overrun : (commit s (.ok e)).status.overrun = s.status.overrun := rfl
@[simp] theorem commit_ok_resultCtx : (commit s (.ok e)).status.resultCtx = e.resultCtx := rfl
@[simp] theorem commit_ok_latch : (commit s (.ok e)).latch = none := rfl
@[simp] theorem commit_ok_ctx : (commit s (.ok e)).ctx = e.ctx := rfl
@[simp] theorem commit_ok_mem : (commit s (.ok e)).mem = landOutput s e.output := rfl
@[simp] theorem commit_ok_platform : (commit s (.ok e)).platform = s.platform := rfl
@[simp] theorem commit_ok_agenda : (commit s (.ok e)).agenda = s.agenda := rfl
@[simp] theorem commit_ok_readData : (commit s (.ok e)).readData = s.readData := rfl
@[simp] theorem commit_ok_held : (commit s (.ok e)).held = [] := rfl
@[simp] theorem commit_ok_view : (commit s (.ok e)).view = none := rfl
@[simp] theorem commit_ok_draws : (commit s (.ok e)).draws = s.draws + 1 := rfl
@[simp] theorem commit_ok_looks : (commit s (.ok e)).looks = s.looks := rfl

/-! ### latchCommand -/

@[simp] theorem latchCommand_regs : (latchCommand s w).regs = s.regs := rfl
@[simp] theorem latchCommand_irqEn : (latchCommand s w).irqEn = s.irqEn := rfl
@[simp] theorem latchCommand_code : (latchCommand s w).status.code = s.status.code := rfl
@[simp] theorem latchCommand_busy : (latchCommand s w).status.busy = true := rfl
@[simp] theorem latchCommand_done : (latchCommand s w).status.done = false := rfl
@[simp] theorem latchCommand_overrun : (latchCommand s w).status.overrun = s.status.overrun := rfl
@[simp] theorem latchCommand_resultCtx : (latchCommand s w).status.resultCtx = s.status.resultCtx := rfl
@[simp] theorem latchCommand_latch : (latchCommand s w).latch = some ⟨w, s.regs⟩ := rfl
@[simp] theorem latchCommand_ctx : (latchCommand s w).ctx = s.ctx := rfl
@[simp] theorem latchCommand_mem : (latchCommand s w).mem = s.mem := rfl
@[simp] theorem latchCommand_platform : (latchCommand s w).platform = s.platform := rfl
@[simp] theorem latchCommand_agenda : (latchCommand s w).agenda = s.agenda := rfl
@[simp] theorem latchCommand_readData : (latchCommand s w).readData = s.readData := rfl
@[simp] theorem latchCommand_held : (latchCommand s w).held = s.held := rfl
@[simp] theorem latchCommand_view : (latchCommand s w).view = s.view := rfl
@[simp] theorem latchCommand_draws : (latchCommand s w).draws = s.draws := rfl
@[simp] theorem latchCommand_looks : (latchCommand s w).looks = s.looks := rfl

/-! ### answer -/

@[simp] theorem answer_regs : (answer s v).regs = s.regs := rfl
@[simp] theorem answer_irqEn : (answer s v).irqEn = s.irqEn := rfl
@[simp] theorem answer_status : (answer s v).status = s.status := rfl
@[simp] theorem answer_latch : (answer s v).latch = s.latch := rfl
@[simp] theorem answer_ctx : (answer s v).ctx = s.ctx := rfl
@[simp] theorem answer_mem : (answer s v).mem = s.mem := rfl
@[simp] theorem answer_platform : (answer s v).platform = s.platform := rfl
@[simp] theorem answer_agenda : (answer s v).agenda = s.agenda := rfl
@[simp] theorem answer_readData : (answer s v).readData = v := rfl
@[simp] theorem answer_held : (answer s v).held = s.held := rfl
@[simp] theorem answer_view : (answer s v).view = s.view := rfl
@[simp] theorem answer_draws : (answer s v).draws = s.draws := rfl
@[simp] theorem answer_looks : (answer s v).looks = s.looks := rfl

/-! ### fixInputs -/

@[simp] theorem fixInputs_regs : (fixInputs s).regs = s.regs := rfl
@[simp] theorem fixInputs_irqEn : (fixInputs s).irqEn = s.irqEn := rfl
@[simp] theorem fixInputs_status : (fixInputs s).status = s.status := rfl
@[simp] theorem fixInputs_latch : (fixInputs s).latch = s.latch := rfl
@[simp] theorem fixInputs_ctx : (fixInputs s).ctx = s.ctx := rfl
@[simp] theorem fixInputs_mem : (fixInputs s).mem = s.mem := rfl
@[simp] theorem fixInputs_platform : (fixInputs s).platform = s.platform := rfl
@[simp] theorem fixInputs_agenda : (fixInputs s).agenda = s.agenda := rfl
@[simp] theorem fixInputs_readData : (fixInputs s).readData = s.readData := rfl
@[simp] theorem fixInputs_held : (fixInputs s).held = s.held := rfl
@[simp] theorem fixInputs_draws : (fixInputs s).draws = s.draws := rfl
@[simp] theorem fixInputs_looks : (fixInputs s).looks = s.looks := rfl
@[simp] theorem fixInputs_view : (fixInputs s).view = some (inputView s) := rfl

/-! ### deviceReset -/

@[simp] theorem deviceReset_regs : (deviceReset s o).regs = ArgRegs.zero := rfl
@[simp] theorem deviceReset_irqEn : (deviceReset s o).irqEn = false := rfl
@[simp] theorem deviceReset_status : (deviceReset s o).status = Status.zero := rfl
@[simp] theorem deviceReset_latch : (deviceReset s o).latch = none := rfl
@[simp] theorem deviceReset_ctx : (deviceReset s o).ctx = List.replicate s.ctx.length none := rfl
@[simp] theorem deviceReset_mem : (deviceReset s o).mem = abandonOutput s o := rfl
@[simp] theorem deviceReset_platform : (deviceReset s o).platform = s.platform := rfl
@[simp] theorem deviceReset_agenda : (deviceReset s o).agenda = s.agenda := rfl
@[simp] theorem deviceReset_readData : (deviceReset s o).readData = s.readData := rfl
@[simp] theorem deviceReset_held : (deviceReset s o).held = [] := rfl
@[simp] theorem deviceReset_view : (deviceReset s o).view = none := rfl
@[simp] theorem deviceReset_draws : (deviceReset s o).draws = s.draws + 1 := rfl
@[simp] theorem deviceReset_looks : (deviceReset s o).looks = s.looks := rfl

end Sys2Proof.Laws
end

