-- ==== Sys2Proof/Laws/Memory.lean ====
section
/-! SUPPORT. Host memory: read after write, the canonical form kept by every memory operation, and equal reads for equal
memories; the landing of a command's output (spec 20_memory.md R80, R83; 70_reset_and_hazards.md R494, R497). -/

namespace Sys2Proof.Laws

open Sys2Proof.Machine

@[simp] theorem readByte_nil (a : Nat) : readByte [] a = unlistedByte := rfl

theorem readByte_cons (x : Nat) (v : Byte) (m : Memory) (a : Nat) :
    readByte ((x, v) :: m) a = if a = x then v else readByte m a := rfl

/-- An address below every listed one reads as unlisted. -/
theorem readByte_of_lt {m : Memory} {a : Nat} (h : ∀ c ∈ m, a < c.1) : readByte m a = unlistedByte := by
  induction m with
  | nil => rfl
  | cons c m ih =>
    obtain ⟨x, v⟩ := c
    have hx : a < x := h (x, v) (by simp)
    rw [readByte_cons, if_neg (by omega)]
    exact ih fun c hc => h c (by simp [hc])

theorem readByte_consByte {m : Memory} {a : Nat} (h : ∀ c ∈ m, a < c.1) (b : Byte) (x : Nat) :
    readByte (consByte a b m) x = if x = a then b else readByte m x := by
  unfold consByte
  split
  · next hb =>
    split
    · next hx => rw [hx, readByte_of_lt h, hb]
    · rfl
  · rw [readByte_cons]

/-- A write leaves every other address alone, whatever the form of the memory. -/
theorem readByte_writeByte_ne (m : Memory) (a : Nat) (b : Byte) {x : Nat} (hx : x ≠ a) :
    readByte (writeByte m a b) x = readByte m x := by
  induction m with
  | nil => simp only [writeByte, consByte]; split <;> simp [readByte_cons, hx]
  | cons c m ih =>
    obtain ⟨y, v⟩ := c
    simp only [writeByte]
    split
    · simp only [consByte]; split <;> simp [readByte_cons, hx]
    · split
      · next hay => subst hay; simp only [consByte]; split <;> simp [readByte_cons, hx]
      · simp only [readByte_cons, ih]

theorem wf_tail {c : Host.Cell} {m : Memory} (h : Memory.wf (c :: m)) : Memory.wf m :=
  ⟨(List.pairwise_cons.1 h.1).2, fun d hd => h.2 d (by simp [hd])⟩

theorem wf_head_lt {c : Host.Cell} {m : Memory} (h : Memory.wf (c :: m)) : ∀ d ∈ m, c.1 < d.1 :=
  (List.pairwise_cons.1 h.1).1

/-- Read after write in a canonical memory. -/
theorem readByte_writeByte {m : Memory} (hm : Memory.wf m) (a : Nat) (b : Byte) (x : Nat) :
    readByte (writeByte m a b) x = if x = a then b else readByte m x := by
  by_cases hx : x = a
  · subst hx
    simp only [if_true]
    induction m with
    | nil => simp only [writeByte]; rw [readByte_consByte (by simp)]; simp
    | cons c m ih =>
      obtain ⟨y, v⟩ := c
      have hlt := wf_head_lt hm
      simp only [writeByte]
      split
      · next hxy =>
        rw [readByte_consByte]
        · simp
        · intro d hd
          rcases List.mem_cons.1 hd with rfl | hd
          · exact hxy
          · exact lt_trans hxy (hlt d hd)
      · split
        · next _ hxy => subst hxy; rw [readByte_consByte hlt]; simp
        · next _ hxy => rw [readByte_cons, if_neg hxy]; exact ih (wf_tail hm)
  · rw [if_neg hx]; exact readByte_writeByte_ne m a b hx

theorem mem_consByte {a : Nat} {b : Byte} {m : Memory} {c : Host.Cell} (h : c ∈ consByte a b m) :
    (c = (a, b) ∧ b ≠ unlistedByte) ∨ c ∈ m := by
  unfold consByte at h
  split at h
  · exact .inr h
  · next hb =>
    rcases List.mem_cons.1 h with h | h
    · exact .inl ⟨h, hb⟩
    · exact .inr h

/-- Every entry after a write is the written one or was there before. -/
theorem mem_writeByte {m : Memory} {a : Nat} {b : Byte} {c : Host.Cell} (h : c ∈ writeByte m a b) :
    (c = (a, b) ∧ b ≠ unlistedByte) ∨ c ∈ m := by
  induction m with
  | nil => exact mem_consByte h
  | cons d m ih =>
    obtain ⟨y, v⟩ := d
    simp only [writeByte] at h
    split at h
    · exact mem_consByte h
    · split at h
      · rcases mem_consByte h with h | h
        · exact .inl h
        · exact .inr (by simp [h])
      · rcases List.mem_cons.1 h with h | h
        · exact .inr (by simp [h])
        · rcases ih h with h | h
          · exact .inl h
          · exact .inr (by simp [h])

theorem consByte_wf {a : Nat} {b : Byte} {m : Memory} (hm : Memory.wf m) (h : ∀ c ∈ m, a < c.1) :
    Memory.wf (consByte a b m) := by
  unfold consByte
  split
  · exact hm
  · next hb =>
    refine ⟨List.pairwise_cons.2 ⟨h, hm.1⟩, fun c hc => ?_⟩
    rcases List.mem_cons.1 hc with rfl | hc
    · exact hb
    · exact hm.2 c hc

/-- A write keeps the canonical form. -/
theorem writeByte_wf {m : Memory} (hm : Memory.wf m) (a : Nat) (b : Byte) : Memory.wf (writeByte m a b) := by
  induction m with
  | nil => exact consByte_wf hm (by simp)
  | cons c m ih =>
    obtain ⟨y, v⟩ := c
    have hlt := wf_head_lt hm
    simp only [writeByte]
    split
    · next hay =>
      refine consByte_wf hm fun d hd => ?_
      rcases List.mem_cons.1 hd with rfl | hd
      · exact hay
      · exact lt_trans hay (hlt d hd)
    · split
      · next _ hay => exact consByte_wf (wf_tail hm) (by rw [hay]; exact hlt)
      · next h1 h2 =>
        have ht := ih (wf_tail hm)
        refine ⟨List.pairwise_cons.2 ⟨fun d hd => ?_, ht.1⟩, fun d hd => ?_⟩
        · rcases mem_writeByte hd with ⟨rfl, _⟩ | hd
          · show y < a; omega
          · exact hlt d hd
        · rcases List.mem_cons.1 hd with rfl | hd
          · exact hm.2 _ (by simp)
          · exact ht.2 d hd

/-- A write inside the address space keeps every entry inside it. -/
theorem writeByte_bounded {m : Memory} (hm : Memory.bounded m) {a : Nat} (ha : a < 18446744073709551616) (b : Byte) :
    Memory.bounded (writeByte m a b) := by
  intro c hc
  rcases mem_writeByte hc with ⟨rfl, _⟩ | hc
  · exact ha
  · exact hm c hc

/-- Canonical memories that read alike are equal. -/
theorem memory_ext {m n : Memory} (hm : Memory.wf m) (hn : Memory.wf n) (h : ∀ a, readByte m a = readByte n a) :
    m = n := by
  induction m generalizing n with
  | nil =>
    cases n with
    | nil => rfl
    | cons d n =>
      exact absurd (h d.1) (by rw [readByte_cons d.1 d.2 n, if_pos rfl]; exact fun e => hn.2 d (by simp) e.symm)
  | cons c m ih =>
    obtain ⟨x, v⟩ := c
    have hv : v ≠ unlistedByte := hm.2 (x, v) (by simp)
    cases n with
    | nil => exact absurd (h x) (by rw [readByte_cons, if_pos rfl]; exact hv)
    | cons d n =>
      obtain ⟨y, u⟩ := d
      have hu : u ≠ unlistedByte := hn.2 (y, u) (by simp)
      have hxm := wf_head_lt hm
      have hyn := wf_head_lt hn
      have hxy : x = y := by
        rcases lt_trichotomy x y with hlt | heq | hlt
        · have := h x
          rw [readByte_cons, if_pos rfl, readByte_of_lt] at this
          · exact absurd this hv
          · intro d hd
            rcases List.mem_cons.1 hd with rfl | hd
            · exact hlt
            · exact lt_trans hlt (hyn d hd)
        · exact heq
        · have := h y
          rw [readByte_cons y u, if_pos rfl, readByte_of_lt] at this
          · exact absurd this.symm hu
          · intro d hd
            rcases List.mem_cons.1 hd with rfl | hd
            · exact hlt
            · exact lt_trans hlt (hxm d hd)
      subst hxy
      have hvu : v = u := by have := h x; rwa [readByte_cons, if_pos rfl, readByte_cons, if_pos rfl] at this
      subst hvu
      congr 1
      refine ih (wf_tail hm) (wf_tail hn) fun a => ?_
      by_cases hax : a = x
      · subst hax
        rw [readByte_of_lt hxm, readByte_of_lt hyn]
      · have := h a
        rwa [readByte_cons, if_neg hax, readByte_cons, if_neg hax] at this

/-! ### Storing a string of bytes, each stored or not -/

/-- What `landBytes` leaves at each address. -/
theorem readByte_landBytes {s : State} {m : Memory} (hm : Memory.wf m) (a : Nat) (bs : List Byte) (x : Nat) :
    readByte (landBytes s m a bs) x =
      if h : a ≤ x ∧ x - a < bs.length then
        (if heldAt s x && Config.outputDraw s.draws x then readByte m x else bs[x - a]'h.2)
      else readByte m x := by
  induction bs generalizing a m with
  | nil => simp [landBytes]
  | cons b bs ih =>
    simp only [landBytes]
    have hm' : Memory.wf (if heldAt s a && Config.outputDraw s.draws a then m else writeByte m a b) := by
      split
      · exact hm
      · exact writeByte_wf hm a b
    rw [ih hm']
    by_cases hxa : x = a
    · subst hxa
      rw [dif_neg (by omega), dif_pos (by simp)]
      split
      · rfl
      · rw [readByte_writeByte hm]; simp
    · have hread : readByte (if heldAt s a && Config.outputDraw s.draws a then m else writeByte m a b) x = readByte m x := by
        split
        · rfl
        · exact readByte_writeByte_ne m a b hxa
      rw [hread]
      by_cases hin : a + 1 ≤ x ∧ x - (a + 1) < bs.length
      · rw [dif_pos hin, dif_pos ⟨by omega, by simp only [List.length_cons]; omega⟩]
        congr 1
        have : x - a = (x - (a + 1)) + 1 := by omega
        simp [this]
      · rw [dif_neg hin, dif_neg (by simp only [List.length_cons]; omega)]

/-- Outside the output range every address reads as before. -/
theorem readByte_landBytes_outside (s : State) (m : Memory) (a : Nat) (bs : List Byte) {x : Nat}
    (hx : x < a ∨ a + bs.length ≤ x) : readByte (landBytes s m a bs) x = readByte m x := by
  induction bs generalizing a m with
  | nil => rfl
  | cons b bs ih =>
    simp only [List.length_cons] at hx
    simp only [landBytes]
    rw [ih _ _ (by omega)]
    split
    · rfl
    · exact readByte_writeByte_ne m a b (by omega)

theorem landBytes_wf {s : State} {m : Memory} (hm : Memory.wf m) (a : Nat) (bs : List Byte) :
    Memory.wf (landBytes s m a bs) := by
  induction bs generalizing a m with
  | nil => exact hm
  | cons b bs ih =>
    simp only [landBytes]
    refine ih ?_ _
    split
    · exact hm
    · exact writeByte_wf hm a b

theorem landBytes_bounded {s : State} {m : Memory} (hm : Memory.bounded m) {a : Nat} {bs : List Byte}
    (h : a + bs.length ≤ 18446744073709551616) : Memory.bounded (landBytes s m a bs) := by
  induction bs generalizing a m with
  | nil => exact hm
  | cons b bs ih =>
    simp only [List.length_cons] at h
    simp only [landBytes]
    refine ih ?_ (by omega)
    split
    · exact hm
    · exact writeByte_bounded hm (by omega) b

/-- R494's two values of a byte. -/
theorem abandonByte_cases (s : State) (a : Nat) (b : Byte) : abandonByte s a b = b ∨ abandonByte s a b = byteBefore s a := by
  unfold abandonByte
  split
  · exact .inl rfl
  · exact .inr rfl

/-- What `abandonBytes` leaves at each address. -/
theorem readByte_abandonBytes (s : State) {m : Memory} (hm : Memory.wf m) (a : Nat) (bs : List Byte) (x : Nat) :
    readByte (abandonBytes s m a bs) x =
      if h : a ≤ x ∧ x - a < bs.length then abandonByte s x (bs[x - a]'h.2) else readByte m x := by
  induction bs generalizing a m with
  | nil => simp [abandonBytes]
  | cons b bs ih =>
    simp only [abandonBytes]
    rw [ih (writeByte_wf hm a _)]
    by_cases hxa : x = a
    · subst hxa
      rw [dif_neg (by omega), dif_pos (by simp), readByte_writeByte hm]; simp
    · rw [readByte_writeByte_ne m a _ hxa]
      by_cases hin : a + 1 ≤ x ∧ x - (a + 1) < bs.length
      · rw [dif_pos hin, dif_pos ⟨by omega, by simp only [List.length_cons]; omega⟩]
        congr 1
        have : x - a = (x - (a + 1)) + 1 := by omega
        simp [this]
      · rw [dif_neg hin, dif_neg (by simp only [List.length_cons]; omega)]

theorem abandonBytes_wf {s : State} {m : Memory} (hm : Memory.wf m) (a : Nat) (bs : List Byte) :
    Memory.wf (abandonBytes s m a bs) := by
  induction bs generalizing a m with
  | nil => exact hm
  | cons b bs ih => exact ih (writeByte_wf hm a _) _

theorem abandonBytes_bounded {s : State} {m : Memory} (hm : Memory.bounded m) {a : Nat} {bs : List Byte}
    (h : a + bs.length ≤ 18446744073709551616) : Memory.bounded (abandonBytes s m a bs) := by
  induction bs generalizing a m with
  | nil => exact hm
  | cons b bs ih =>
    simp only [List.length_cons] at h
    exact ih (writeByte_bounded hm (by omega) _) (by omega)

/-- With no byte written by HOST during the command, a byte's value before the command is memory's. -/
theorem byteBefore_of_not_held {s : State} (h : s.held = []) (a : Nat) : byteBefore s a = readByte s.mem a := by
  simp [byteBefore, heldValues, valuesAt, h]

/-- A HOST write while a command is in flight leaves every byte's value before the command as it was. -/
theorem byteBefore_hostStore {s : State} (h : s.latch ≠ none) (addr : Word64) (b : Byte) (x : Nat) :
    byteBefore (hostStore s addr b) x = byteBefore s x := by
  obtain ⟨l, hl⟩ := Option.ne_none_iff_exists'.mp h
  by_cases hx : x = addr.toNat
  · subst hx
    cases hv : s.held.filter (fun c => c.1 == addr.toNat) <;>
      simp [byteBefore, heldValues, valuesAt, hostStore, hl, hv, List.getLast?_cons]
  · have hne : (addr.toNat == x) = false := by simpa using Ne.symm hx
    simp [byteBefore, heldValues, valuesAt, hostStore, hl, hne, readByte_writeByte_ne s.mem _ b hx]

/-- With no byte written by HOST during the command, the output lands whole (R83). -/
theorem landBytes_of_not_held {s : State} (h : s.held = []) (m : Memory) (a : Nat) (bs : List Byte) :
    landBytes s m a bs = writeBytes m a bs := by
  induction bs generalizing a m with
  | nil => rfl
  | cons b bs ih =>
    have hh : heldAt s a = false := by simp [heldAt, h]
    simp [landBytes, writeBytes, hh, ih]

theorem writeBytes_wf {m : Memory} (hm : Memory.wf m) (a : Nat) (bs : List Byte) : Memory.wf (writeBytes m a bs) := by
  induction bs generalizing a m with
  | nil => exact hm
  | cons b bs ih => exact ih (writeByte_wf hm a b) _

end Sys2Proof.Laws
end

