-- ==== Sys2Proof/Laws/Words.lean ====
section
/-! SUPPORT. Byte strings and integers (spec 00_scope.md R12, R13). -/

namespace Sys2Proof.Laws

open Sys2Proof Sys2Proof.Machine

@[simp] theorem toLE_length (v n : Nat) : (toLE v n).length = n := by
  induction n generalizing v with
  | zero => rfl
  | succ n ih => simp [toLE, ih]

@[simp] theorem toBE_length (v n : Nat) : (toBE v n).length = n := by simp [toBE]

@[simp] theorem zeros_length (n : Nat) : (zeros n).length = n := by simp [zeros]

/-- Reading back the little-endian bytes of an integer gives its low n bytes (R13). -/
theorem leNat_toLE (v n : Nat) : leNat (toLE v n) = v % 256 ^ n := by
  induction n generalizing v with
  | zero => simp [toLE, leNat, Nat.mod_one]
  | succ n ih =>
    simp only [toLE, leNat, ih, BitVec.toNat_ofNat]
    rw [show (2 : Nat) ^ 8 = 256 from rfl, pow_succ' 256 n, Nat.mod_mul]

theorem beNat_toBE (v n : Nat) : beNat (toBE v n) = v % 256 ^ n := by
  simp [beNat, toBE, leNat_toLE]

theorem wordsLE_length {w : Nat} (h : List (BitVec w)) : (wordsLE h).length = h.length * (w / 8) := by
  induction h with
  | nil => simp [wordsLE]
  | cons v h ih =>
    simp only [wordsLE, List.flatMap_cons, List.length_append, toLE_length, List.length_cons] at *
    rw [ih]; ring

theorem wordsBE_length {w : Nat} (h : List (BitVec w)) : (wordsBE h).length = h.length * (w / 8) := by
  induction h with
  | nil => simp [wordsBE]
  | cons v h ih =>
    simp only [wordsBE, List.flatMap_cons, List.length_append, toBE_length, List.length_cons] at *
    rw [ih]; ring

theorem xorBytes_length (s t : List Byte) : (xorBytes s t).length = min s.length t.length := by simp [xorBytes]

end Sys2Proof.Laws
end

