-- ==== Sys2Proof/Laws/Contexts.lean ====
section
/-! SUPPORT. Context records: H keeps its family's shape, absorbing keeps a context good and adds exactly the bytes it is given
(spec 10_state.md R37 to R41), and absorbing in two parts is absorbing once (46_streaming.md R375). -/

namespace Sys2Proof.Laws

open Sys2Proof Sys2Proof.Machine

/-! ### The descriptor table -/

theorem blockLen_pos (alg : Alg) : 0 < blockLen alg := by cases alg <;> decide

theorem maxLen_lt (alg : Alg) : maxLen alg < 18446744073709551616 := by cases alg <;> decide

theorem outLen_le_blockLen (alg : Alg) : outLen alg ≤ blockLen alg := by cases alg <;> decide

/-! ### Shapes -/

theorem md5Compress_length (h : List Word32) (m : List Byte) : (md5Compress h m).length = 4 := rfl

theorem sha1Compress_length (h : List Word32) (m : List Byte) : (sha1Compress h m).length = 5 := rfl

theorem sha2Compress_length {w : Nat} (p : Sha2Family w) (h : List (BitVec w)) (m : List Byte) :
    (sha2Compress p h m).length = 8 := rfl

theorem blake2Compress_length {w : Nat} (p : Blake2Family w) (h : List (BitVec w)) (m : List Byte) (t : Nat) (last : Bool) :
    (blake2Compress p h m t last).length = 8 := by simp [blake2Compress]

/-- v[12] takes the counter's low word (R286). -/
theorem blake2Vector_counterLow {w : Nat} (p : Blake2Family w) (h : List (BitVec w)) (t : Nat) (last : Bool) :
    wordAt (blake2Vector p h (blake2Counter w t) last) 12 = wordAt p.iv 4 ^^^ BitVec.ofNat w t := by
  have hc : BitVec.ofNat w (blake2Counter w t) = BitVec.ofNat w t := by
    apply BitVec.eq_of_toNat_eq; simp [blake2Counter]
  simp [blake2Vector, wordAt, hc]

/-- v[13] takes no counter: the high word is 0 (R369, 90_conflicts.md C4). -/
theorem blake2Vector_counterHigh {w : Nat} (p : Blake2Family w) (h : List (BitVec w)) (t : Nat) (last : Bool) :
    wordAt (blake2Vector p h (blake2Counter w t) last) 13 = wordAt p.iv 5 := by
  have hc : blake2Counter w t / 2 ^ w = 0 := Nat.div_eq_of_lt (Nat.mod_lt _ (Nat.two_pow_pos w))
  simp [blake2Vector, wordAt, hc]

theorem keccakLanes_length (g : Nat → Nat → Word64) : (keccakLanes g).length = 25 := by simp [keccakLanes]

theorem keccakRound_length (a : List Word64) (ir : Nat) : (keccakRound a ir).length = 25 := by
  simp [keccakRound, keccakIota, keccakChi, keccakLanes_length]

theorem keccakF_length (a : List Word64) : (keccakF a).length = 25 := by
  unfold keccakF
  rw [show (24 : Nat) = 23 + 1 from rfl, List.range_succ, List.foldl_append]
  exact keccakRound_length _ _

theorem keccakAbsorb_length (a : List Word64) (m : List Byte) : (keccakAbsorb a m).length = 25 := keccakF_length _

theorem initialH_shape (alg : Alg) : hasShape alg (initialH alg) := by cases alg <;> exact ⟨rfl, rfl⟩

theorem compressEager_shape {alg : Alg} {h : Working} (hs : hasShape alg h) (m : List Byte) :
    hasShape alg (compressEager alg h m) := by
  unfold compressEager
  split
  · next hf => exact ⟨hs.1, by rw [md5Compress_length]; simp [wordCount, hf]⟩
  · next hf => exact ⟨hs.1, by rw [sha1Compress_length]; simp [wordCount, hf]⟩
  · next hf => exact ⟨hs.1, by rw [sha2Compress_length]; simp [wordCount, hf]⟩
  · next hf => exact ⟨hs.1, by rw [sha2Compress_length]; simp [wordCount, hf]⟩
  · next hf => exact ⟨hs.1, by rw [keccakAbsorb_length]; simp [wordCount, hf]⟩
  · next hf => exact ⟨hs.1, by rw [keccakAbsorb_length]; simp [wordCount, hf]⟩
  · exact hs

theorem compressLazy_shape {alg : Alg} {h : Working} (hs : hasShape alg h) (m : List Byte) (t : Nat) (last : Bool) :
    hasShape alg (compressLazy alg h m t last) := by
  unfold compressLazy
  split
  · next hf => exact ⟨hs.1, by rw [blake2Compress_length]; simp [wordCount, hf]⟩
  · next hf => exact ⟨hs.1, by rw [blake2Compress_length]; simp [wordCount, hf]⟩
  · exact hs

theorem permute_shape {alg : Alg} {h : Working} (hs : hasShape alg h) (h25 : wordCount alg = 25) :
    hasShape alg (permute h) := by
  cases h with
  | w32 v => exact hs
  | w64 v => exact ⟨hs.1, (keccakF_length v).trans h25.symm⟩

/-! ### absorb, field by field -/

@[simp] theorem absorb_alg (k : Context) (d : List Byte) : (absorb k d).alg = k.alg := by
  unfold absorb; split <;> rfl

@[simp] theorem absorb_totalLen (k : Context) (d : List Byte) :
    (absorb k d).totalLen = addLen k.totalLen d.length := by unfold absorb; split <;> rfl

theorem addLen_toNat {t : Word64} {n : Nat} (h : t.toNat + n < 18446744073709551616) :
    (addLen t n).toNat = t.toNat + n := by
  simp only [addLen, BitVec.toNat_ofNat]
  exact Nat.mod_eq_of_lt h

/-- The pending bytes of either family are at most the bytes accepted (R39). -/
theorem pendingLen_le (alg : Alg) (n : Nat) : pendingLen alg n ≤ n := by
  unfold pendingLen
  split
  · split
    · omega
    · have := Nat.mod_le (n - 1) (blockLen alg); omega
  · exact Nat.mod_le _ _

/-- What the loop leaves of the pending bytes and n more is again the pending length (R39). -/
theorem pendingLen_add (alg : Alg) (t n : Nat) :
    (pendingLen alg t + n) - blockLen alg * blocksOf (blockLen alg) (if isLazy alg then 1 else 0) (pendingLen alg t + n) =
      pendingLen alg (t + n) := by
  have hb := blockLen_pos alg
  cases hz : isLazy alg with
  | false =>
    simp only [pendingLen, hz, blocksOf, Nat.sub_zero, Bool.false_eq_true, if_false]
    rw [← Nat.mod_eq_sub_mul_div, Nat.mod_add_mod]
  | true =>
    simp only [pendingLen, hz, blocksOf, if_true]
    rcases Nat.eq_zero_or_pos t with ht | ht
    · subst ht
      rcases Nat.eq_zero_or_pos n with hn | hn
      · subst hn; simp
      · simp only [if_true, Nat.zero_add]
        rw [if_neg (by omega), Nat.mod_eq_sub_mul_div]
        have := Nat.mul_div_le (n - 1) (blockLen alg)
        omega
    · rw [if_neg (by omega), if_neg (by omega)]
      have h1 : (t - 1) % blockLen alg + 1 + n - 1 = (t - 1) % blockLen alg + n := by omega
      rw [h1]
      have h2 : (t + n - 1) % blockLen alg = ((t - 1) % blockLen alg + n) % blockLen alg := by
        rw [Nat.mod_add_mod]; congr 1; omega
      rw [h2, Nat.mod_eq_sub_mul_div]
      have := Nat.mul_div_le ((t - 1) % blockLen alg + n) (blockLen alg)
      rw [Nat.mod_eq_sub_mul_div] at *
      omega

/-- The pending bytes after an absorb, in closed form (R368, R369). -/
theorem absorb_buf (k : Context) (d : List Byte) :
    (absorb k d).buf = (k.buf ++ d).drop
      (blockLen k.alg * blocksOf (blockLen k.alg) (if isLazy k.alg then 1 else 0) (k.buf ++ d).length) := by
  have hb := blockLen_pos k.alg
  unfold absorb
  split
  · next h => simp only [absorbLazy]; rw [blockLoop_closed hb]
  · next h => simp only [absorbEager]; rw [blockLoop_closed hb]

theorem lazyRound_shape {alg : Alg} {st : Working × Nat} (hs : hasShape alg st.1) (m : List Byte) :
    hasShape alg (lazyRound alg st m).1 := compressLazy_shape hs m _ _

theorem absorb_shape {k : Context} (hs : hasShape k.alg k.H) (d : List Byte) : hasShape k.alg (absorb k d).H := by
  unfold absorb
  split
  · exact blockLoop_keeps (P := fun (st : Working × Nat) => hasShape k.alg st.1) (fun st m h => lazyRound_shape h m) _ _ hs
  · exact blockLoop_keeps (P := fun st => hasShape k.alg st) (fun st m h => compressEager_shape h m) _ _ hs

/-- A fresh context is good. -/
theorem freshContext_ok (alg : Alg) : (freshContext alg).Ok :=
  ⟨initialH_shape alg, Nat.zero_le _, by simp [freshContext, pendingLen]⟩

/-- Absorbing within MAXLEN keeps a context good (R38, R39). -/
theorem absorb_ok {k : Context} (hk : k.Ok) {d : List Byte} (h : k.totalLen.toNat + d.length ≤ maxLen k.alg) :
    (absorb k d).Ok := by
  have ht : (addLen k.totalLen d.length).toNat = k.totalLen.toNat + d.length :=
    addLen_toNat (by have := maxLen_lt k.alg; omega)
  refine ⟨by simpa using absorb_shape hk.shape d, by simpa [ht] using h, ?_⟩
  rw [absorb_buf, absorb_totalLen, absorb_alg, ht, List.length_drop, List.length_append, hk.pending]
  exact pendingLen_add k.alg _ _

/-- R375 at the level of a context: absorbing in two parts is absorbing once. -/
theorem absorb_append {k : Context} (hk : k.Ok) {d e : List Byte}
    (h : k.totalLen.toNat + (d.length + e.length) ≤ maxLen k.alg) : absorb (absorb k d) e = absorb k (d ++ e) := by
  have hb := blockLen_pos k.alg
  have hmax := maxLen_lt k.alg
  have htot : addLen (addLen k.totalLen d.length) e.length = addLen k.totalLen (d ++ e).length := by
    apply BitVec.eq_of_toNat_eq
    have h1 : (addLen k.totalLen d.length).toNat = k.totalLen.toNat + d.length := addLen_toNat (by omega)
    rw [addLen_toNat (by omega), h1, addLen_toNat (by rw [List.length_append]; omega), List.length_append]
    omega
  cases hz : isLazy k.alg with
  | false =>
    simp only [absorb, hz, Bool.false_eq_true, if_false, absorbEager]
    rw [← List.append_assoc, blockLoop_append hb k.H (k.buf ++ d) e, htot]
  | true =>
    have hdone : (addLen k.totalLen d.length).toNat -
        (blockLoop (blockLen k.alg) 1 (lazyRound k.alg) (k.buf ++ d).length (k.H, k.totalLen.toNat - k.buf.length)
          (k.buf ++ d)).2.length =
        (blockLoop (blockLen k.alg) 1 (lazyRound k.alg) (k.buf ++ d).length (k.H, k.totalLen.toNat - k.buf.length)
          (k.buf ++ d)).1.2 := by
      rw [blockLoop_rest_length hb, addLen_toNat (by omega), blockLoop_closed hb]
      have hcount : ∀ (n : Nat) (st : Working × Nat), ((List.range n).foldl
          (fun x i => lazyRound k.alg x (((k.buf ++ d).drop (blockLen k.alg * i)).take (blockLen k.alg))) st).2 =
          st.2 + blockLen k.alg * n := by
        intro n st
        induction n with
        | zero => simp
        | succ n ih =>
          rw [List.range_succ, List.foldl_append]
          show (List.foldl _ st (List.range n)).2 + blockLen k.alg = _
          rw [ih]; ring
      rw [hcount]
      have hle := blocksOf_mul_le (b := blockLen k.alg) (keep := 1) (k.buf ++ d).length
      have hp : k.buf.length ≤ k.totalLen.toNat := by rw [hk.pending]; exact pendingLen_le _ _
      rw [List.length_append] at *
      omega
    simp only [absorb, hz, if_true, absorbLazy]
    rw [← List.append_assoc, blockLoop_append hb (k.H, k.totalLen.toNat - k.buf.length) (k.buf ++ d) e, htot, hdone]

/-- Absorbing nothing changes nothing. -/
theorem absorb_nil {k : Context} (hk : k.Ok) : absorb k [] = k := by
  have hb := blockLen_pos k.alg
  have htot : addLen k.totalLen 0 = k.totalLen := by simp [addLen]
  have hlt : k.buf.length < blockLen k.alg + (if isLazy k.alg then 1 else 0) := by
    rw [hk.pending]
    unfold pendingLen
    cases hz : isLazy k.alg
    · simpa using Nat.mod_lt _ hb
    · simp only [if_true]
      split
      · omega
      · have := Nat.mod_lt (k.totalLen.toNat - 1) hb; omega
  cases hz : isLazy k.alg with
  | false =>
    simp only [hz, Bool.false_eq_true, if_false] at hlt
    simp only [absorb, hz, Bool.false_eq_true, if_false, absorbEager, List.append_nil]
    rw [blockLoop_unfold hb, if_neg (by omega)]
    simp [htot]
  | true =>
    simp only [hz, if_true] at hlt
    simp only [absorb, hz, if_true, absorbLazy, List.append_nil]
    rw [blockLoop_unfold hb, if_neg (by omega)]
    simp [htot]

/-- A fresh context has absorbed the empty message (R40). -/
theorem freshContext_absorbed (alg : Alg) : (freshContext alg).Absorbed :=
  ⟨[], by simp, (absorb_nil (freshContext_ok alg)).symm⟩

/-- Absorbing more keeps R40. -/
theorem absorb_absorbed {k : Context} (hk : k.Absorbed) {d : List Byte}
    (h : k.totalLen.toNat + d.length ≤ maxLen k.alg) : (absorb k d).Absorbed := by
  obtain ⟨m, hm, rfl'⟩ := hk
  have hlen : k.totalLen.toNat = m.length := by
    rw [rfl', absorb_totalLen, addLen_toNat]
    · simp [freshContext]
    · have := maxLen_lt k.alg; simp [freshContext]; omega
  refine ⟨m ++ d, by rw [absorb_alg, List.length_append]; omega, ?_⟩
  rw [absorb_alg, ← absorb_append (freshContext_ok k.alg) (by simp [freshContext]; omega), ← rfl']

end Sys2Proof.Laws
end

