-- ==== Sys2Proof/Laws/Output.lean ====
section
/-! SUPPORT. Finalisation: the length of an output, the sponge's output stream, and the length of a hash and of HMAC's blocks
(spec 45_padding.md R326, R330; 47_oneshot_hmac.md R411 to R414). -/

namespace Sys2Proof.Laws

open Sys2Proof Sys2Proof.Machine

/-! ### Squeezing -/

theorem squeezeLoop_length_le (b l n : Nat) (h : Working) (out : List Byte) :
    (squeezeLoop b l n h out).length ≤ l := by
  induction n generalizing h out with
  | zero => simp [squeezeLoop]
  | succ n ih =>
    simp only [squeezeLoop]
    split
    · simp
    · exact ih _ _

/-- A working state of 25 lanes gives whole output blocks. -/
def IsSponge (h : Working) : Prop := ∃ v : List Word64, h = .w64 v ∧ v.length = 25

theorem permute_isSponge {h : Working} (hh : IsSponge h) : IsSponge (permute h) := by
  obtain ⟨v, rfl, _⟩ := hh
  exact ⟨keccakF v, rfl, keccakF_length v⟩

theorem spongeBytes_length {h : Working} (hh : IsSponge h) {n : Nat} (hn : n ≤ 200) : (spongeBytes h n).length = n := by
  obtain ⟨v, rfl, hv⟩ := hh
  simp only [spongeBytes, stateBytes, List.length_take, wordsLE_length, hv]
  omega

/-- With fuel enough for the blocks still missing, the squeeze gives exactly l bytes (R326). -/
theorem squeezeLoop_length {b l n : Nat} {h : Working} {out : List Byte} (hb : b ≤ 200) (hh : IsSponge h)
    (hfuel : l ≤ out.length + n * b) : (squeezeLoop b l n h out).length = l := by
  induction n generalizing h out with
  | zero => simp only [squeezeLoop, List.length_take]; omega
  | succ n ih =>
    simp only [squeezeLoop]
    have hlen : (out ++ spongeBytes h b).length = out.length + b := by
      rw [List.length_append, spongeBytes_length hh hb]
    split
    · simp only [List.length_take]; omega
    · refine ih (permute_isSponge hh) ?_
      rw [hlen]
      have : (n + 1) * b = n * b + b := by ring
      omega

/-- What is already put out stays the front of the output. -/
theorem squeezeLoop_take (b l n : Nat) (h : Working) (out : List Byte) {j : Nat} (hj : j ≤ out.length) (hjl : j ≤ l) :
    (squeezeLoop b l n h out).take j = out.take j := by
  induction n generalizing h out with
  | zero => simp [squeezeLoop, List.take_take, hjl]
  | succ n ih =>
    simp only [squeezeLoop]
    have hout : (out ++ spongeBytes h b).take j = out.take j := List.take_append_of_le_length hj
    split
    · rw [List.take_take, Nat.min_eq_left hjl, hout]
    · rw [ih _ _ (by rw [List.length_append]; omega), hout]

/-- A shorter squeeze of the same state is the front of a longer one (R371). -/
theorem squeezeLoop_shorter {b l1 l2 n1 n2 : Nat} {h : Working} {out : List Byte} (hb : b ≤ 200) (hh : IsSponge h)
    (hl : l1 ≤ l2) (h1 : l1 ≤ out.length + n1 * b) (h2 : l2 ≤ out.length + n2 * b) :
    squeezeLoop b l1 n1 h out = (squeezeLoop b l2 n2 h out).take l1 := by
  induction n1 generalizing n2 h out with
  | zero =>
    rw [squeezeLoop_take _ _ _ _ _ (by omega) hl]; rfl
  | succ n1 ih =>
    have hlen : (out ++ spongeBytes h b).length = out.length + b := by
      rw [List.length_append, spongeBytes_length hh hb]
    have hm1 : (n1 + 1) * b = n1 * b + b := by ring
    cases n2 with
    | zero =>
      simp only [squeezeLoop]
      rw [List.take_take, Nat.min_eq_left hl, if_pos (by rw [hlen]; omega), List.take_append_of_le_length (by omega)]
    | succ n2 =>
      have hm2 : (n2 + 1) * b = n2 * b + b := by ring
      by_cases hdone : l1 ≤ (out ++ spongeBytes h b).length
      · conv_lhs => simp only [squeezeLoop]
        rw [if_pos hdone]
        simp only [squeezeLoop]
        split
        · rw [List.take_take, Nat.min_eq_left hl]
        · rw [squeezeLoop_take _ _ _ _ _ hdone hl]
      · simp only [squeezeLoop]
        rw [if_neg hdone, if_neg (by omega)]
        exact ih (permute_isSponge hh) (by rw [hlen]; omega) (by rw [hlen]; omega)

/-! ### Lengths of outputs -/

theorem serialise_length {alg : Alg} {h : Working} (hs : hasShape alg h) :
    (serialise alg h).length = wordCount alg * (wordWidth alg / 8) := by
  cases h with
  | w32 v =>
    obtain ⟨hw, hc⟩ := hs
    simp only [serialise]
    split <;> simp [wordsLE_length, wordsBE_length, hw, hc]
  | w64 v =>
    obtain ⟨hw, hc⟩ := hs
    simp only [serialise]
    split <;> simp [wordsLE_length, wordsBE_length, hw, hc]

theorem outLen_le_serialised (alg : Alg) : outLen alg ≤ wordCount alg * (wordWidth alg / 8) := by
  cases alg <;> decide

theorem blockLen_sponge {alg : Alg} (h : algFamily alg = .sha3 ∨ algFamily alg = .shake) :
    blockLen alg ≤ 200 ∧ 1 ≤ blockLen alg ∧ wordWidth alg = 64 ∧ wordCount alg = 25 := by
  cases alg <;> simp_all [algFamily, blockLen, wordWidth, wordCount]

theorem isSponge_of_shape {alg : Alg} {h : Working} (hs : hasShape alg h)
    (hf : algFamily alg = .sha3 ∨ algFamily alg = .shake) : IsSponge h := by
  obtain ⟨-, -, hw, hc⟩ := blockLen_sponge hf
  cases h with
  | w32 v => exact absurd (hs.1.symm.trans hw) (by decide)
  | w64 v => exact ⟨v, rfl, hs.2.trans hc⟩

theorem mdFinal_shape {k : Context} (hs : hasShape k.alg k.H) : hasShape k.alg (mdFinal k) := by
  simp only [mdFinal]
  generalize List.range _ = js
  suffices ∀ h, hasShape k.alg h → hasShape k.alg (js.foldl
      (fun h j => compressEager k.alg h (((mdTail k).drop (blockLen k.alg * j)).take (blockLen k.alg))) h) from this _ hs
  induction js with
  | nil => exact fun h hh => hh
  | cons j js ih => exact fun h hh => ih _ (compressEager_shape hh _)

/-- The number of bytes a finalisation gives (R330): OUT, or L for SHAKE. -/
def resultLen (alg : Alg) (l : Nat) : Nat := if algFamily alg = .shake then l else outLen alg

/-- No output is longer than R330 says, whatever the context. -/
theorem finalize_length_le (k : Context) (l : Nat) : (finalize k l).length ≤ resultLen k.alg l := by
  cases hf : algFamily k.alg <;> simp only [finalize, resultLen, hf] <;>
    first
      | (simp; done)
      | simpa [spongeFinal] using squeezeLoop_length_le _ _ _ _ _

/-- A good context gives exactly the bytes R330 says. -/
theorem finalize_length {k : Context} (hs : hasShape k.alg k.H) (l : Nat) : (finalize k l).length = resultLen k.alg l := by
  have hser := outLen_le_serialised k.alg
  have hmd := serialise_length (mdFinal_shape hs)
  have hbl : (serialise k.alg (blake2Final k)).length = _ := serialise_length (compressLazy_shape hs _ _ _)
  cases hf : algFamily k.alg <;> simp only [finalize, resultLen, hf]
  case sha3 =>
    obtain ⟨hb, hb1, -, -⟩ := blockLen_sponge (.inl hf)
    simp only [spongeFinal, reduceCtorEq, if_false]
    exact squeezeLoop_length hb (isSponge_of_shape (compressEager_shape hs _) (.inl hf))
      (by simp only [List.length_nil]; nlinarith)
  case shake =>
    obtain ⟨hb, hb1, -, -⟩ := blockLen_sponge (.inr hf)
    simp only [spongeFinal, if_true]
    exact squeezeLoop_length hb (isSponge_of_shape (compressEager_shape hs _) (.inr hf))
      (by simp only [List.length_nil]; nlinarith)
  all_goals
    simp only [reduceCtorEq, if_false, List.length_take]
    omega

theorem hash_length {alg : Alg} (h : algFamily alg ≠ .shake) (m : List Byte) : (hashOf alg m).length = outLen alg := by
  have hs : hasShape (absorb (freshContext alg) m).alg (absorb (freshContext alg) m).H := by
    rw [absorb_alg]; exact absorb_shape (initialH_shape alg) m
  unfold hashOf
  rw [finalize_length hs, absorb_alg]
  simp [resultLen, freshContext, h]

theorem hmacKeyBlock_length {alg : Alg} (h : algFamily alg ≠ .shake) (key : List Byte) :
    (hmacKeyBlock alg key).length = blockLen alg := by
  unfold hmacKeyBlock
  split
  · rw [List.length_append, zeros_length]; omega
  · rw [List.length_append, zeros_length, hash_length h]; have := outLen_le_blockLen alg; omega

theorem hmacPad_length {alg : Alg} (h : algFamily alg ≠ .shake) (key : List Byte) (b : Byte) :
    (hmacPad alg key b).length = blockLen alg := by
  simp [hmacPad, xorBytes_length, hmacKeyBlock_length h]

theorem hmacDigest_length {alg : Alg} (h : algFamily alg ≠ .shake) (key msg : List Byte) :
    (hmacDigest alg key msg).length = outLen alg := hash_length h _

end Sys2Proof.Laws
end

