-- ==== Sys2Proof/Laws/Slots.lean ====
section
/-! SUPPORT. Context slots: reading a slot after one is set, and the lowest free slot (spec 10_state.md R35, R36). -/

namespace Sys2Proof.Laws

open Sys2Proof Sys2Proof.Machine

theorem slot_eq (s : State) (c : Nat) : slot s c = s.ctx.getD c none := rfl

theorem slot_lt {s : State} {c : Nat} {k : Context} (h : slot s c = some k) : c < s.ctx.length := by
  by_contra hc
  rw [slot_eq, List.getD_eq_getElem?_getD, List.getElem?_eq_none (by omega)] at h
  simp at h

/-- A slot is empty when it does not exist or is free (R448). -/
theorem slot_none_iff (s : State) (c : Nat) : slot s c = none ↔ s.ctx.length ≤ c ∨ s.ctx[c]? = some none := by
  rw [slot_eq, List.getD_eq_getElem?_getD]
  by_cases hc : c < s.ctx.length
  · rw [List.getElem?_eq_getElem hc]; simp; omega
  · rw [List.getElem?_eq_none (by omega)]; simp; omega

theorem getD_set {α : Type} (l : List α) (n i : Nat) (v d : α) :
    (l.set n v).getD i d = if n = i ∧ i < l.length then v else l.getD i d := by
  simp only [List.getD_eq_getElem?_getD, List.getElem?_set]
  by_cases hn : n = i
  · subst hn
    by_cases hl : n < l.length
    · simp [hl]
    · simp [hl]
  · simp [hn]

/-- Reading a slot of a state whose slot n was set. -/
theorem slot_of_set {s t : State} {n : Nat} {v : Option Context} (h : t.ctx = s.ctx.set n v) (c : Nat) :
    slot t c = if n = c ∧ c < s.ctx.length then v else slot s c := by
  rw [slot_eq, h, getD_set]; rfl

theorem slot_congr {s t : State} (h : t.ctx = s.ctx) (c : Nat) : slot t c = slot s c := by rw [slot_eq, h]; rfl

/-- The lowest free slot (R36). -/
theorem freeSlot_some_iff (s : State) (n : Nat) :
    freeSlot s = some n ↔ n < s.ctx.length ∧ slot s n = none ∧ ∀ j, j < n → slot s j ≠ none := by
  unfold freeSlot
  rw [List.findIdx?_eq_some_iff_getElem]
  constructor
  · rintro ⟨h, h1, h2⟩
    refine ⟨h, ?_, fun j hj => ?_⟩
    · rw [slot_none_iff]; right; rw [List.getElem?_eq_getElem h]; simpa using h1
    · have := h2 j hj
      rw [Ne, slot_none_iff, List.getElem?_eq_getElem (by omega)]
      simp only [Option.isNone_iff_eq_none] at this
      simp only [Option.some.injEq, not_or]
      exact ⟨by omega, this⟩
  · rintro ⟨h, h1, h2⟩
    refine ⟨h, ?_, fun j hj => ?_⟩
    · rw [slot_none_iff, List.getElem?_eq_getElem h] at h1
      rcases h1 with h1 | h1
      · omega
      · simpa using h1
    · have := h2 j hj
      rw [Ne, slot_none_iff, List.getElem?_eq_getElem (by omega)] at this
      simp only [Option.some.injEq, not_or] at this
      simpa using this.2

theorem freeSlot_none_iff (s : State) : freeSlot s = none ↔ ∀ j, j < s.ctx.length → slot s j ≠ none := by
  unfold freeSlot
  rw [List.findIdx?_eq_none_iff]
  constructor
  · intro h j hj
    have := h s.ctx[j] (List.getElem_mem hj)
    rw [Ne, slot_none_iff, List.getElem?_eq_getElem hj]
    simp only [Option.some.injEq, not_or]
    exact ⟨by omega, fun h0 => by simp [h0] at this⟩
  · intro h x hx
    obtain ⟨j, hj, rfl⟩ := List.getElem_of_mem hx
    have := h j hj
    rw [Ne, slot_none_iff, List.getElem?_eq_getElem hj] at this
    simp only [Option.some.injEq, not_or] at this
    simpa [Option.isSome_iff_ne_none] using this.2

end Sys2Proof.Laws
end

