-- ==== Sys2Proof/Laws/Commands.lean ====
section
/-! SUPPORT. What a command can do, said once: every meaning commits its result, and a successful result is one of three
kinds of effect (spec 46_streaming.md R363, 60_exceptions.md R441). -/

namespace Sys2Proof.Laws

open Sys2Proof Sys2Proof.Machine

/-- Every command answers a next state: its committed result (R361). -/
theorem exec_eq (i : Instr) (s : State) : exec i s = .next (commit s (commandResult i s)) := by
  cases i <;> rfl

/-- An input byte depends on what the inputs are read from and the draw occasion (R495). -/
theorem inputByte_congr {s t : State} (hv : inputView t = inputView s) (hd : t.draws = s.draws) (a : Nat) :
    inputByte t a = inputByte s a := by
  unfold inputByte; rw [hv, hd]

/-- All a command's result depends on: its arguments, the slots, RESULT_CTX, what the platform admits, what its inputs are
read from and the draw occasion (R363, R45). -/
theorem commandResult_congr (i : Instr) {s t : State} (ha : commandArgs t = commandArgs s) (hc : t.ctx = s.ctx)
    (hr : t.status.resultCtx = s.status.resultCtx) (hp : t.platform = s.platform)
    (hv : inputView t = inputView s) (hd : t.draws = s.draws) : commandResult i t = commandResult i s := by
  have hs : ∀ c, slot t c = slot s c := fun c => slot_congr hc c
  have hf : freeSlot t = freeSlot s := by unfold freeSlot; rw [hc]
  have hi : ∀ a n, inputBytes t a n = inputBytes s a n := fun a n => by
    simp only [inputBytes, inputByte_congr hv hd]
  cases i <;>
    simp only [commandResult, allocResult, resetResult, updateResult, digestResult, squeezeResult, copyResult,
      releaseResult, oneshotResult, hmacResult, newSlotEffect, slotEffect, outputEffect, ha, hc, hr, hp, hs, hf, hi]

/-- Where an output lands depends only on memory, the values held and the draw occasion (R497). -/
theorem landOutput_congr {s t : State} (hm : t.mem = s.mem) (hh : t.held = s.held) (hd : t.draws = s.draws)
    (o : Option Output) : landOutput t o = landOutput s o := by
  cases o with
  | none => exact hm
  | some o =>
    simp only [landOutput, hm]
    generalize s.mem = m
    generalize o.addr = a
    induction o.bytes generalizing m a with
    | nil => rfl
    | cons b bs ih =>
      simp only [landBytes, heldAt, hh, hd]
      exact ih _ _

/-- All the output of the command in flight depends on. -/
theorem plannedOutput_congr {s t : State} (hl : t.latch = s.latch) (hc : t.ctx = s.ctx)
    (hr : t.status.resultCtx = s.status.resultCtx) (hp : t.platform = s.platform) (hv : inputView t = inputView s)
    (hd : t.draws = s.draws) : plannedOutput t = plannedOutput s := by
  unfold plannedOutput
  rw [hl]
  cases hs : s.latch with
  | none => rfl
  | some l =>
    have h : ∀ i, commandResult i t = commandResult i s := fun i =>
      commandResult_congr i (by simp only [commandArgs, hl, hs]) hc hr hp hv hd
    simp only [h]

/-- The agenda plays no part in what the command in flight would write. -/
theorem plannedOutput_agenda (s : State) (agenda : List Event) :
    plannedOutput { s with agenda := agenda } = plannedOutput s := plannedOutput_congr rfl rfl rfl rfl rfl rfl

/-- What HOST saw stays what the command would write: fixing the inputs does not change it (R496). -/
theorem plannedOutput_fixInputs (s : State) : plannedOutput (fixInputs s) = plannedOutput s :=
  plannedOutput_congr rfl rfl rfl rfl rfl rfl

/-- The ENGINE step lands what the command in flight would write (R361). -/
theorem engineStep_planned {s t : State} {o : Output} (h : plannedOutput s = some o) (ht : engineStep s = .next t) :
    t.mem = landOutput s (some o) := by
  unfold plannedOutput at h
  unfold engineStep at ht
  split at h
  · cases h
  · next l hl =>
    simp only [hl] at ht
    split at h
    · cases h
    · next i hi =>
      simp only [hi, exec_eq] at ht
      cases ht
      cases hr : commandResult i s with
      | error c => simp [hr] at h
      | ok e => simp only [hr] at h; simp [h]

/-- The output of a successful command: where it goes and how long it is (R80). -/
inductive OutputOf (i : Instr) (s : State) : Word64 → Nat → List Byte → Prop where
  | digest {c : Nat} {k : Context} (hi : i = .digest c) (hk : slot s c = some k) (hf : algFamily k.alg ≠ .shake)
      (ha : admitted s.platform (commandArgs s).dstAddr (outLen k.alg) = true) :
      OutputOf i s (commandArgs s).dstAddr (outLen k.alg) (finalize k (outLen k.alg))
  | squeeze {c : Nat} {k : Context} (hi : i = .squeeze c) (hk : slot s c = some k) (hf : algFamily k.alg = .shake)
      (hl : (commandArgs s).dstLen.toNat ≠ 0)
      (ha : admitted s.platform (commandArgs s).dstAddr (commandArgs s).dstLen.toNat = true) :
      OutputOf i s (commandArgs s).dstAddr (commandArgs s).dstLen.toNat (finalize k (commandArgs s).dstLen.toNat)
  | oneshot {alg : Alg} (hi : i = .oneshot alg) (hf : algFamily alg ≠ .shake)
      (hm : (commandArgs s).srcLen.toNat ≤ maxLen alg)
      (hr : admitted s.platform (commandArgs s).srcAddr (commandArgs s).srcLen.toNat = true)
      (ha : admitted s.platform (commandArgs s).dstAddr (outLen alg) = true) :
      OutputOf i s (commandArgs s).dstAddr (outLen alg)
        (hashOf alg (inputBytes s (commandArgs s).srcAddr (commandArgs s).srcLen.toNat))
  | hmac {alg : Alg} (hi : i = .hmac alg) (hf : algFamily alg ≠ .shake)
      (hm : hmacTooLong alg (commandArgs s).keyLen.toNat (commandArgs s).srcLen.toNat = false)
      (hk : admitted s.platform (commandArgs s).keyAddr (commandArgs s).keyLen.toNat = true)
      (hr : admitted s.platform (commandArgs s).srcAddr (commandArgs s).srcLen.toNat = true)
      (ha : admitted s.platform (commandArgs s).dstAddr (outLen alg) = true) :
      OutputOf i s (commandArgs s).dstAddr (outLen alg)
        (hmacDigest alg (inputBytes s (commandArgs s).keyAddr (commandArgs s).keyLen.toNat)
          (inputBytes s (commandArgs s).srcAddr (commandArgs s).srcLen.toNat))

/-- The slots a successful slot command leaves (R374). -/
inductive SlotsOf (i : Instr) (s : State) : List (Option Context) → BitVec 8 → Prop where
  | alloc {alg : Alg} {n : Nat} (hi : i = .alloc alg) (hn : freeSlot s = some n) :
      SlotsOf i s (s.ctx.set n (some (freshContext alg))) (BitVec.ofNat 8 n)
  | reset {c : Nat} {k : Context} (hi : i = .reset c) (hk : slot s c = some k) :
      SlotsOf i s (s.ctx.set c (some (freshContext k.alg))) s.status.resultCtx
  | update {c : Nat} {k : Context} (hi : i = .update c) (hk : slot s c = some k)
      (hm : k.totalLen.toNat + (commandArgs s).srcLen.toNat ≤ maxLen k.alg)
      (hr : admitted s.platform (commandArgs s).srcAddr (commandArgs s).srcLen.toNat = true) :
      SlotsOf i s
        (s.ctx.set c (some (absorb k (inputBytes s (commandArgs s).srcAddr (commandArgs s).srcLen.toNat))))
        s.status.resultCtx
  | copy {c n : Nat} {k : Context} (hi : i = .copy c) (hk : slot s c = some k) (hn : freeSlot s = some n) :
      SlotsOf i s (s.ctx.set n (some k)) (BitVec.ofNat 8 n)
  | release {c : Nat} {k : Context} (hi : i = .release c) (hk : slot s c = some k) :
      SlotsOf i s (s.ctx.set c none) s.status.resultCtx

/-- The inversion lemma of the commands: a result is a failure, a change of slots, or an output. -/
theorem commandResult_cases (i : Instr) (s : State) :
    (∃ code, code ≠ .success ∧ commandResult i s = .error code) ∨
    (∃ ctx r, SlotsOf i s ctx r ∧ commandResult i s = .ok ⟨ctx, r, none⟩) ∨
    (∃ a n bs, OutputOf i s a n bs ∧ commandResult i s = .ok ⟨s.ctx, s.status.resultCtx, some ⟨a.toNat, bs⟩⟩) := by
  cases i with
  | alloc alg =>
    simp only [commandResult, allocResult]
    cases hn : freeSlot s with
    | none => exact .inl ⟨_, by decide, rfl⟩
    | some n => exact .inr (.inl ⟨_, _, .alloc rfl hn, rfl⟩)
  | reset c =>
    simp only [commandResult, resetResult]
    cases hk : slot s c with
    | none => exact .inl ⟨_, by decide, rfl⟩
    | some k => exact .inr (.inl ⟨_, _, .reset rfl hk, rfl⟩)
  | update c =>
    simp only [commandResult, updateResult]
    cases hk : slot s c with
    | none => exact .inl ⟨_, by decide, rfl⟩
    | some k =>
      simp only
      split
      · exact .inl ⟨_, by decide, rfl⟩
      · next hm =>
        split
        · next hr => exact .inr (.inl ⟨_, _, .update rfl hk (by omega) hr, rfl⟩)
        · exact .inl ⟨_, by decide, rfl⟩
  | digest c =>
    simp only [commandResult, digestResult]
    cases hk : slot s c with
    | none => exact .inl ⟨_, by decide, rfl⟩
    | some k =>
      simp only
      split
      · exact .inl ⟨_, by decide, rfl⟩
      · next hf =>
        split
        · next ha => exact .inr (.inr ⟨_, _, _, .digest rfl hk hf ha, rfl⟩)
        · exact .inl ⟨_, by decide, rfl⟩
  | squeeze c =>
    simp only [commandResult, squeezeResult]
    cases hk : slot s c with
    | none => exact .inl ⟨_, by decide, rfl⟩
    | some k =>
      simp only
      split
      · exact .inl ⟨_, by decide, rfl⟩
      · next hf =>
        split
        · exact .inl ⟨_, by decide, rfl⟩
        · next hl =>
          split
          · next ha => exact .inr (.inr ⟨_, _, _, .squeeze rfl hk (by simpa using hf) hl ha, rfl⟩)
          · exact .inl ⟨_, by decide, rfl⟩
  | copy c =>
    simp only [commandResult, copyResult]
    cases hk : slot s c with
    | none => exact .inl ⟨_, by decide, rfl⟩
    | some k =>
      cases hn : freeSlot s with
      | none => exact .inl ⟨_, by decide, rfl⟩
      | some n => exact .inr (.inl ⟨_, _, .copy rfl hk hn, rfl⟩)
  | release c =>
    simp only [commandResult, releaseResult]
    cases hk : slot s c with
    | none => exact .inl ⟨_, by decide, rfl⟩
    | some k => exact .inr (.inl ⟨_, _, .release rfl hk, rfl⟩)
  | oneshot alg =>
    simp only [commandResult, oneshotResult]
    split
    · exact .inl ⟨_, by decide, rfl⟩
    · next hf =>
      split
      · exact .inl ⟨_, by decide, rfl⟩
      · next hm =>
        split
        · next ha =>
          rw [Bool.and_eq_true] at ha
          exact .inr (.inr ⟨_, _, _, .oneshot rfl hf (by omega) ha.1 ha.2, rfl⟩)
        · exact .inl ⟨_, by decide, rfl⟩
  | hmac alg =>
    simp only [commandResult, hmacResult]
    split
    · exact .inl ⟨_, by decide, rfl⟩
    · next hf =>
      split
      · exact .inl ⟨_, by decide, rfl⟩
      · next hm =>
        split
        · next ha =>
          rw [Bool.and_eq_true, Bool.and_eq_true] at ha
          exact .inr (.inr ⟨_, _, _, .hmac rfl hf (by simpa using hm) ha.1.1 ha.1.2 ha.2, rfl⟩)
        · exact .inl ⟨_, by decide, rfl⟩

/-- Admission bounds the range by the top of the address space (R81). -/
theorem admitted_le {p : Platform} {a : Word64} {n : Nat} (h : admitted p a n = true) :
    a.toNat + n ≤ 18446744073709551616 := by
  unfold admitted at h
  rw [Bool.or_eq_true, Bool.and_eq_true] at h
  rcases h with h | ⟨h, -⟩
  · have := a.isLt; have := of_decide_eq_true h; omega
  · exact of_decide_eq_true h

/-- An output is no longer than its range, and the range is admitted. -/
theorem OutputOf.bounds {i : Instr} {s : State} {a : Word64} {n : Nat} {bs : List Byte} (h : OutputOf i s a n bs) :
    bs.length ≤ n ∧ a.toNat + n ≤ 18446744073709551616 := by
  cases h with
  | @digest c k _ _ hf ha =>
    exact ⟨by simpa [resultLen, hf] using finalize_length_le k (outLen k.alg), admitted_le ha⟩
  | @squeeze c k _ _ hf _ ha =>
    exact ⟨by simpa [resultLen, hf] using finalize_length_le k (commandArgs s).dstLen.toNat, admitted_le ha⟩
  | oneshot _ hf _ _ ha => exact ⟨le_of_eq (hash_length hf _), admitted_le ha⟩
  | hmac _ hf _ _ _ ha => exact ⟨le_of_eq (hmacDigest_length hf _ _), admitted_le ha⟩

/-- The codes have distinct numbers (R116). -/
theorem codeNumber_inj {a b : StatusCode} (h : codeNumber a = codeNumber b) : a = b := by
  cases a <;> cases b <;> first | rfl | exact absurd h (by decide)

end Sys2Proof.Laws
end

