-- ==== Sys2Proof/Laws/Encoding.lean ====
section
/-! SUPPORT. The fields of a command word and the two forms of decoding, said once (spec 30_encoding.md R111, R113, R117). -/

namespace Sys2Proof.Laws

open Sys2Proof

/-- A command word as a sum of its fields. -/
theorem fields_sum {o a c : Nat} (ho : o < 256) (ha : a < 256) :
    c <<< 16 ||| a <<< 8 ||| o = c * 65536 + a * 256 + o := by
  have h : c <<< 16 ||| a <<< 8 = (c <<< 8 + a) <<< 8 := by
    rw [show c <<< 16 = (c <<< 8) <<< 8 by rw [← Nat.shiftLeft_add], ← Nat.shiftLeft_or_distrib,
      Nat.shiftLeft_add_eq_or_of_lt (by simpa using ha)]
  rw [h, ← Nat.shiftLeft_add_eq_or_of_lt (by simpa using ho)]
  simp only [Nat.shiftLeft_eq]
  omega

/-- The fields of the word of a line are what the line says (R111, R119). -/
theorem fields_commandWord {o a c : Nat} (ho : o < 256) (ha : a < 256) (hc : c < 256) :
    fieldOpc (commandWord o a c) = o ∧ fieldAlg (commandWord o a c) = a ∧ fieldCtx (commandWord o a c) = c ∧
      fieldRsv (commandWord o a c) = 0 := by
  simp only [commandWord, fields_sum ho ha, fieldOpc, fieldAlg, fieldCtx, fieldRsv, BitVec.extractLsb'_toNat,
    BitVec.toNat_ofNat, Nat.shiftRight_eq_div_pow]
  omega

/-- A word whose RSV is 0 is the word of its other fields (R111). -/
theorem commandWord_fields {w : BitVec 32} (h : fieldRsv w = 0) :
    commandWord (fieldOpc w) (fieldAlg w) (fieldCtx w) = w := by
  apply BitVec.eq_of_toNat_eq
  have hw := w.isLt
  simp only [fieldOpc, fieldAlg, fieldCtx, fieldRsv, BitVec.extractLsb'_toNat, Nat.shiftRight_eq_div_pow] at *
  simp only [commandWord, BitVec.toNat_ofNat]
  rw [fields_sum (by omega) (by omega)]
  omega

theorem fieldCtx_le (w : BitVec 32) : fieldCtx w ≤ 255 := by
  have := (w.extractLsb' 16 8).isLt
  unfold fieldCtx
  omega

/-- The mask of a row that uses ALG keeps RSV, CTX and OPC (R114). -/
theorem mask_alg {w : BitVec 32} {o : Nat} (ho : o < 256) :
    w &&& 0xFFFF00FF = BitVec.ofNat 32 o ↔ fieldRsv w = 0 ∧ fieldCtx w = 0 ∧ fieldOpc w = o := by
  have hm : (w &&& 0xFFFF00FF).toNat = fieldRsv w * 16777216 + fieldCtx w * 65536 + fieldOpc w := by
    have hw : w &&& 0xFFFF00FF =
        (w.extractLsb' 24 8 ++ w.extractLsb' 16 8 ++ 0#8 ++ w.extractLsb' 0 8 : BitVec 32) := by
      apply BitVec.eq_of_getLsbD_eq
      intro i hi
      simp only [BitVec.getLsbD_and, BitVec.getLsbD_append, BitVec.getLsbD_extractLsb', BitVec.getLsbD_zero]
      have hmem : i ∈ Finset.range 32 := Finset.mem_range.2 hi
      fin_cases hmem <;> simp
    rw [hw]
    simp only [BitVec.toNat_append]
    rw [← Nat.shiftLeft_add_eq_or_of_lt (by simp; omega), ← Nat.shiftLeft_add_eq_or_of_lt (by simp),
      ← Nat.shiftLeft_add_eq_or_of_lt (by simp; omega)]
    simp only [Nat.shiftLeft_eq, fieldRsv, fieldCtx, fieldOpc]
    simp
    omega
  have h1 : fieldRsv w < 256 := BitVec.isLt _
  have h2 : fieldCtx w < 256 := BitVec.isLt _
  have h3 : fieldOpc w < 256 := BitVec.isLt _
  rw [← BitVec.toNat_inj, hm, BitVec.toNat_ofNat]
  omega

/-- The mask of a row that uses CTX keeps RSV, ALG and OPC (R114). -/
theorem mask_ctx {w : BitVec 32} {o : Nat} (ho : o < 256) :
    w &&& 0xFF00FFFF = BitVec.ofNat 32 o ↔ fieldRsv w = 0 ∧ fieldAlg w = 0 ∧ fieldOpc w = o := by
  have hm : (w &&& 0xFF00FFFF).toNat = fieldRsv w * 16777216 + fieldAlg w * 256 + fieldOpc w := by
    have hw : w &&& 0xFF00FFFF =
        (w.extractLsb' 24 8 ++ 0#8 ++ w.extractLsb' 8 8 ++ w.extractLsb' 0 8 : BitVec 32) := by
      apply BitVec.eq_of_getLsbD_eq
      intro i hi
      simp only [BitVec.getLsbD_and, BitVec.getLsbD_append, BitVec.getLsbD_extractLsb', BitVec.getLsbD_zero]
      have hmem : i ∈ Finset.range 32 := Finset.mem_range.2 hi
      fin_cases hmem <;> simp
    rw [hw]
    simp only [BitVec.toNat_append]
    rw [← Nat.shiftLeft_add_eq_or_of_lt (by simp; omega), ← Nat.shiftLeft_add_eq_or_of_lt (by simp; omega),
      ← Nat.shiftLeft_add_eq_or_of_lt (by simp)]
    simp only [Nat.shiftLeft_eq, fieldRsv, fieldAlg, fieldOpc]
    simp
    omega
  have h1 : fieldRsv w < 256 := BitVec.isLt _
  have h2 : fieldAlg w < 256 := BitVec.isLt _
  have h3 : fieldOpc w < 256 := BitVec.isLt _
  rw [← BitVec.toNat_inj, hm, BitVec.toNat_ofNat]
  omega

/-! ### Algorithm ids -/

theorem algOfId_algId (alg : Alg) : algOfId (algId alg) = some alg := by cases alg <;> rfl

theorem algId_bounds (alg : Alg) : 1 ≤ algId alg ∧ algId alg ≤ 0x0E := by cases alg <;> decide

theorem algId_of_algOfId {n : Nat} {alg : Alg} (h : algOfId n = some alg) : algId alg = n := by
  unfold algOfId at h
  split at h <;> cases h <;> rfl

/-- The reserved ids are those outside 0x01..0x0E (R113). -/
theorem algOfId_eq_none {n : Nat} : algOfId n = none ↔ n < 0x01 ∨ 0x0E < n := by
  unfold algOfId
  split <;> simp_all
  omega

/-! ### The two forms of R117 -/

theorem decodeAlgForm_ok {make : Alg → Instr} {w : BitVec 32} {i : Instr} :
    decodeAlgForm make w = .ok i ↔
      fieldRsv w = 0 ∧ fieldCtx w = 0 ∧ ∃ alg, algOfId (fieldAlg w) = some alg ∧ make alg = i := by
  unfold decodeAlgForm
  by_cases hr : fieldRsv w = 0
  · cases ha : algOfId (fieldAlg w) with
    | none => simp [hr]
    | some alg => by_cases hc : fieldCtx w = 0 <;> simp [hr, hc]
  · simp [hr]

theorem decodeCtxForm_ok {make : Nat → Instr} {w : BitVec 32} {i : Instr} :
    decodeCtxForm make w = .ok i ↔ fieldRsv w = 0 ∧ fieldAlg w = 0 ∧ make (fieldCtx w) = i := by
  unfold decodeCtxForm
  by_cases hr : fieldRsv w = 0 <;> by_cases ha : fieldAlg w = 0 <;> simp [hr, ha]

/-- What a word that decodes looks like: RSV is 0, and it has one of the two forms (R117). -/
theorem decode_cases {w : BitVec 32} {i : Instr} (h : decode w = .ok i) :
    fieldRsv w = 0 ∧
      ((fieldCtx w = 0 ∧ ∃ alg, algOfId (fieldAlg w) = some alg ∧
          ((fieldOpc w = 0x01 ∧ i = .alloc alg) ∨ (fieldOpc w = 0x08 ∧ i = .oneshot alg) ∨
            (fieldOpc w = 0x09 ∧ i = .hmac alg))) ∨
        (fieldAlg w = 0 ∧
          ((fieldOpc w = 0x02 ∧ i = .reset (fieldCtx w)) ∨ (fieldOpc w = 0x03 ∧ i = .update (fieldCtx w)) ∨
            (fieldOpc w = 0x04 ∧ i = .digest (fieldCtx w)) ∨ (fieldOpc w = 0x05 ∧ i = .squeeze (fieldCtx w)) ∨
            (fieldOpc w = 0x06 ∧ i = .copy (fieldCtx w)) ∨ (fieldOpc w = 0x07 ∧ i = .release (fieldCtx w))))) := by
  unfold decode at h
  split at h
  case h_10 => cases h
  all_goals
    next ho =>
      first
        | (obtain ⟨hr, hc, alg, ha, rfl⟩ := decodeAlgForm_ok.1 h
           exact ⟨hr, .inl ⟨hc, alg, ha, by simp [ho]⟩⟩)
        | (obtain ⟨hr, ha, rfl⟩ := decodeCtxForm_ok.1 h
           exact ⟨hr, .inr ⟨ha, by simp [ho]⟩⟩)

/-- A word does not decode when a check of R117 fails. -/
theorem decode_error_iff (w : BitVec 32) : (∃ e, decode w = .error e) ↔ ∀ i, decode w ≠ .ok i := by
  cases decode w <;> simp

end Sys2Proof.Laws
end

