-- ==== Sys2Proof/Laws/Invariant.lean ====
section
/-! SUPPORT. The shared operations keep the machine's invariant `State.Inv`. -/

namespace Sys2Proof.Laws

open Sys2Proof Sys2Proof.Machine

/-- R46 fixes BUSY from the latch; the rest of the invariant does not see the agenda or the read data. -/
theorem inv_congr {s t : State} (h : s.Inv) (hm : t.mem = s.mem) (hst : t.status = s.status) (hl : t.latch = s.latch)
    (hh : t.held = s.held) (hv : t.view = s.view) (hc : t.ctx = s.ctx) : t.Inv where
  memory := hm ▸ h.memory
  bounded := hm ▸ h.bounded
  busy := by rw [hst, hl]; exact h.busy
  idleHeld := by rw [hl, hh, hv]; exact h.idleHeld
  viewHeld := by unfold heldValues; rw [hv, hm, hh]; exact h.viewHeld
  code := hst ▸ h.code
  slots := hc ▸ h.slots
  resultCtx := by rw [hst, hc]; exact h.resultCtx
  contexts := fun c k hk => h.contexts c k (by rw [← slot_congr hc]; exact hk)

theorem complete_inv {s : State} (h : s.Inv) (code : StatusCode) : (complete s code).Inv where
  memory := h.memory
  bounded := h.bounded
  busy := rfl
  idleHeld := fun _ => ⟨rfl, rfl⟩
  viewHeld := fun _ hv => nomatch hv
  code := ⟨code, rfl⟩
  slots := h.slots
  resultCtx := h.resultCtx
  contexts := fun c k hk => h.contexts c k hk

/-- Slots that change in one place to a good context, or to none, stay good. -/
theorem contexts_set {s : State} (h : s.Inv) {n : Nat} {v : Option Context}
    (hv : ∀ k, v = some k → k.Ok ∧ k.Absorbed) {t : State} (ht : t.ctx = s.ctx.set n v) (c : Nat) (k : Context)
    (hk : slot t c = some k) : k.Ok ∧ k.Absorbed := by
  rw [slot_of_set ht] at hk
  split at hk
  · exact hv k hk
  · exact h.contexts c k hk

theorem inputBytes_length (s : State) (a : Word64) (n : Nat) : (inputBytes s a n).length = n := by simp [inputBytes]

/-- A slot index below NCTX ≤ 255 fits RESULT_CTX. -/
theorem resultCtx_toNat {n m : Nat} (hn : n < m) (hm : m ≤ 255) : (BitVec.ofNat 8 n).toNat = n := by
  simp only [BitVec.toNat_ofNat]
  exact Nat.mod_eq_of_lt (by omega)

/-- A successful slot command leaves good contexts, the same number of slots, and a RESULT_CTX that names a slot. -/
theorem SlotsOf.inv {i : Instr} {s : State} (h : s.Inv) {ctx : List (Option Context)} {r : BitVec 8}
    (hs : SlotsOf i s ctx r) {t : State} (ht : t.ctx = ctx) :
    ctx.length = s.ctx.length ∧ r.toNat < s.ctx.length ∧ ∀ c k, slot t c = some k → k.Ok ∧ k.Absorbed := by
  cases hs with
  | @alloc alg n hi hn =>
    have hlt := ((freeSlot_some_iff s n).1 hn).1
    refine ⟨List.length_set, by rwa [resultCtx_toNat hlt h.slots.2], contexts_set h ?_ ht⟩
    rintro k hk
    cases hk
    exact ⟨freshContext_ok alg, freshContext_absorbed alg⟩
  | @reset c k hi hk =>
    refine ⟨List.length_set, h.resultCtx, contexts_set h ?_ ht⟩
    rintro k' hk'
    cases hk'
    exact ⟨freshContext_ok k.alg, freshContext_absorbed k.alg⟩
  | @update c k hi hk hm hr =>
    refine ⟨List.length_set, h.resultCtx, contexts_set h ?_ ht⟩
    rintro k' hk'
    cases hk'
    obtain ⟨hok, habs⟩ := h.contexts c k hk
    have hlen := inputBytes_length s (commandArgs s).srcAddr (commandArgs s).srcLen.toNat
    exact ⟨absorb_ok hok (by rw [hlen]; exact hm), absorb_absorbed habs (by rw [hlen]; exact hm)⟩
  | @copy c n k hi hk hn =>
    have hlt := ((freeSlot_some_iff s n).1 hn).1
    refine ⟨List.length_set, by rwa [resultCtx_toNat hlt h.slots.2], contexts_set h ?_ ht⟩
    rintro k' hk'
    cases hk'
    exact h.contexts c k hk
  | @release c k hi hk =>
    refine ⟨List.length_set, h.resultCtx, contexts_set h ?_ ht⟩
    rintro k' hk'
    cases hk'

/-- Every command keeps the invariant. -/
theorem commit_inv {s : State} (h : s.Inv) (i : Instr) : (commit s (commandResult i s)).Inv := by
  rcases commandResult_cases i s with ⟨code, -, hr⟩ | ⟨ctx, r, hs, hr⟩ | ⟨a, n, bs, ho, hr⟩
  · rw [hr]; exact complete_inv h code
  · rw [hr]
    obtain ⟨hlen, hres, hctx⟩ := hs.inv h (t := commit s (.ok ⟨ctx, r, none⟩)) rfl
    exact {
      memory := h.memory
      bounded := h.bounded
      busy := rfl
      idleHeld := fun _ => ⟨rfl, rfl⟩
      viewHeld := fun _ hv => nomatch hv
      code := ⟨.success, rfl⟩
      slots := by simpa [hlen] using h.slots
      resultCtx := by simpa [hlen] using hres
      contexts := hctx }
  · rw [hr]
    obtain ⟨hb1, hb2⟩ := ho.bounds
    exact {
      memory := landBytes_wf h.memory _ _
      bounded := landBytes_bounded h.bounded (show a.toNat + bs.length ≤ _ by omega)
      busy := rfl
      idleHeld := fun _ => ⟨rfl, rfl⟩
      viewHeld := fun _ hv => nomatch hv
      code := ⟨.success, rfl⟩
      slots := h.slots
      resultCtx := h.resultCtx
      contexts := fun c k hk => h.contexts c k hk }

/-- A register write keeps the invariant (R30, R360). -/
theorem writeReg_inv {s : State} (h : s.Inv) (width offset : Nat) (v : Word64) : (writeReg s width offset v).Inv := by
  unfold writeReg
  split
  · split
    · unfold writeCmd
      cases hl : s.latch with
      | none =>
        exact {
          memory := h.memory, bounded := h.bounded, busy := rfl, idleHeld := fun hn => absurd hn (by simp), viewHeld := h.viewHeld
          code := h.code, slots := h.slots, resultCtx := h.resultCtx, contexts := fun c k hk => h.contexts c k hk }
      | some l =>
        exact {
          memory := h.memory, bounded := h.bounded, busy := by simpa [hl] using h.busy
          idleHeld := fun hn => absurd hn (by simp), viewHeld := h.viewHeld
          code := h.code, slots := h.slots, resultCtx := h.resultCtx, contexts := fun c k hk => h.contexts c k hk }
    all_goals exact inv_congr h rfl rfl rfl rfl rfl rfl
  · exact h

/-- A byte stored by HOST keeps the invariant (R80). -/
theorem hostStore_inv {s : State} (h : s.Inv) (a : Word64) (b : Byte) : (hostStore s a b).Inv where
  memory := writeByte_wf h.memory _ _
  bounded := writeByte_bounded h.bounded a.isLt b
  busy := h.busy
  idleHeld := fun hl => by
    have hl' : s.latch = none := hl
    simp [hostStore, hl', h.idleHeld hl']
  viewHeld := fun v hv x y hy => by
    have hy' := h.viewHeld v hv x y hy
    cases hl : s.latch with
    | none => exact nomatch hv.symm.trans (h.idleHeld hl).2
    | some l =>
      by_cases hx : x = a.toNat
      · subst hx
        exact List.mem_cons_of_mem _ (by simpa [heldValues, valuesAt, hostStore, hl] using hy')
      · have hne : (a.toNat == x) = false := by simpa using Ne.symm hx
        simpa [heldValues, valuesAt, hostStore, hl, hne, readByte_writeByte_ne s.mem _ b hx] using hy'
  code := h.code
  slots := h.slots
  resultCtx := h.resultCtx
  contexts := fun c k hk => h.contexts c k hk

/-- A HOST read keeps the invariant, whether or not it fixes the inputs (R496). -/
theorem hostLoad_inv {s : State} (h : s.Inv) (a : Word64) : (hostLoad s a).Inv := by
  unfold hostLoad
  split
  · exact inv_congr h rfl rfl rfl rfl rfl rfl
  · next v hp =>
    split
    · have hl : s.latch ≠ none := fun hn => by simp [plannedByte, plannedOutput, hn] at hp
      exact {
        memory := h.memory, bounded := h.bounded, busy := h.busy, idleHeld := fun hn => absurd hn hl
        viewHeld := fun w hw x y hy => by
          have hw' : inputView s = w := Option.some.inj hw
          subst hw'
          cases hv : s.view with
          | none => simpa [inputView, hv, heldValues] using hy
          | some u => exact h.viewHeld u hv x y (by simpa [inputView, hv] using hy)
        code := h.code, slots := h.slots, resultCtx := h.resultCtx, contexts := h.contexts }
    · exact inv_congr h rfl rfl rfl rfl rfl rfl

/-- What the command in flight would write is within the address space (R81). -/
theorem plannedOutput_bounds {s : State} {o : Output} (h : plannedOutput s = some o) :
    o.addr + o.bytes.length ≤ 18446744073709551616 := by
  unfold plannedOutput at h
  split at h
  · cases h
  · split at h
    · cases h
    · next i _ =>
      rcases commandResult_cases i s with ⟨code, -, hr⟩ | ⟨ctx, r, hs, hr⟩ | ⟨a, n, bs, ho, hr⟩
      · simp [hr] at h
      · simp [hr] at h
      · simp only [hr, Option.some.injEq] at h
        subst h
        have := ho.bounds
        show a.toNat + bs.length ≤ _
        omega

/-- Device reset keeps the invariant (R490, R494). -/
theorem resetStep_inv {s : State} (h : s.Inv) : (resetStep s).Inv where
  memory := by
    show Memory.wf (abandonOutput s (plannedOutput s))
    cases hp : plannedOutput s with
    | none => exact h.memory
    | some o => exact abandonBytes_wf h.memory _ _
  bounded := by
    show Memory.bounded (abandonOutput s (plannedOutput s))
    cases hp : plannedOutput s with
    | none => exact h.bounded
    | some o => exact abandonBytes_bounded h.bounded (plannedOutput_bounds hp)
  busy := rfl
  idleHeld := fun _ => ⟨rfl, rfl⟩
  viewHeld := fun _ hv => nomatch hv
  code := ⟨.success, rfl⟩
  slots := by simpa [resetStep] using h.slots
  resultCtx := by
    have := h.slots.1
    simpa [resetStep, Status.zero] using by omega
  contexts := fun c k hk => by
    rw [slot_eq, List.getD_eq_getElem?_getD] at hk
    simp only [resetStep, deviceReset_ctx, List.getElem?_replicate] at hk
    split at hk <;> simp at hk

end Sys2Proof.Laws
end

