-- ==== Sys2Proof/Laws/PerInstr.lean ====
section
/-! SUPPORT. The family of per-instruction statements `EncodesRow`: the word of a well-formed instruction selects the
instruction's row of the opcode table (spec 30_encoding.md R114, R119). -/

namespace Sys2Proof.Laws

open Sys2Proof

/-- The word of the instruction selects its row. -/
def EncodesRow.Statement (i : Instr) : Prop := i.wellFormed = true → selects (encode i) (rowOf i)

/-- A line with an algorithm selects the row of its opcode. -/
theorem selects_alg {o : Nat} (ho : o < 256) (alg : Alg) :
    commandWord o (algId alg) 0 &&& 0xFFFF00FF = BitVec.ofNat 32 o := by
  have hb := algId_bounds alg
  obtain ⟨h1, -, h3, h4⟩ := fields_commandWord (o := o) (a := algId alg) (c := 0) ho (by omega) (by omega)
  exact (mask_alg ho).2 ⟨h4, h3, h1⟩

/-- A line with a slot selects the row of its opcode. -/
theorem selects_ctx {o c : Nat} (ho : o < 256) (hc : ctxFits c = true) :
    commandWord o 0 c &&& 0xFF00FFFF = BitVec.ofNat 32 o := by
  have hc' : c ≤ 255 := of_decide_eq_true hc
  obtain ⟨h1, h2, -, h4⟩ := fields_commandWord (o := o) (a := 0) (c := c) ho (by omega) (by omega)
  exact (mask_ctx ho).2 ⟨h4, h2, h1⟩

theorem EncodesRow.alloc (alg : Alg) : EncodesRow.Statement (.alloc alg) := fun _ => selects_alg (by decide) alg

theorem EncodesRow.reset (c : Nat) : EncodesRow.Statement (.reset c) := fun h => selects_ctx (by decide) h

theorem EncodesRow.update (c : Nat) : EncodesRow.Statement (.update c) := fun h => selects_ctx (by decide) h

theorem EncodesRow.digest (c : Nat) : EncodesRow.Statement (.digest c) := fun h => selects_ctx (by decide) h

theorem EncodesRow.squeeze (c : Nat) : EncodesRow.Statement (.squeeze c) := fun h => selects_ctx (by decide) h

theorem EncodesRow.copy (c : Nat) : EncodesRow.Statement (.copy c) := fun h => selects_ctx (by decide) h

theorem EncodesRow.release (c : Nat) : EncodesRow.Statement (.release c) := fun h => selects_ctx (by decide) h

theorem EncodesRow.oneshot (alg : Alg) : EncodesRow.Statement (.oneshot alg) := fun _ => selects_alg (by decide) alg

theorem EncodesRow.hmac (alg : Alg) : EncodesRow.Statement (.hmac alg) := fun _ => selects_alg (by decide) alg

end Sys2Proof.Laws
end

