-- ==== Sys2Proof/Laws/Platform.lean ====
section
/-! SUPPORT. What the platform admits: any predicate on ranges is that of some `Platform` record, so that holding MemOK as
plain data leaves out no platform (spec 00_scope.md R7, 20_memory.md R81). -/

namespace Sys2Proof.Laws

open Sys2Proof Sys2Proof.Machine

/-- The ranges of an address space of n addresses that a predicate refuses. -/
def refusedSpans (n : Nat) (ok : Nat → Nat → Bool) : List Span :=
  (List.range (n + 1)).flatMap fun a => ((List.range (n + 1)).filter fun k => !ok a k).map fun k => ⟨a, k⟩

theorem refusedSpans_contains {n : Nat} {ok : Nat → Nat → Bool} {a k : Nat} (h : a + k ≤ n) :
    (refusedSpans n ok).contains ⟨a, k⟩ = !ok a k := by
  rw [Bool.eq_iff_iff, List.contains_iff_mem]
  simp only [refusedSpans, List.mem_flatMap, List.mem_range, List.mem_map, List.mem_filter]
  constructor
  · rintro ⟨x, -, y, ⟨-, hy⟩, he⟩
    cases he
    exact hy
  · intro hk
    exact ⟨a, by omega, k, ⟨by omega, hk⟩, rfl⟩

/-- Every predicate on the ranges of an address space is `memOK` of some platform. -/
theorem platform_represents (n : Nat) (ok : Nat → Nat → Bool) :
    ∃ p : Platform, ∀ a k, a + k ≤ n → memOK p a k = ok a k := by
  refine ⟨⟨[⟨0, n⟩], refusedSpans n ok⟩, fun a k h => ?_⟩
  simp only [memOK, List.any_cons, List.any_nil, inSpan, refusedSpans_contains h]
  simp [h]

end Sys2Proof.Laws
end

