-- ==== Sys2Proof/Tests/Slice0.lean ====
section
/-! SUPPORT. Small tests: words written out from the spec's encoding, the vectors of spec 95_test_vectors.md, and for every
statement states and operands that meet its hypotheses. -/

namespace Sys2Proof.Tests

open Sys2Proof Sys2Proof.Machine

/-! ### WellFormed: a slot number that the eight-bit CTX field cannot hold is refused (R111) -/

theorem test_wellFormed_reset : (Instr.reset 256).wellFormed = false ∧ (Instr.reset 255).wellFormed = true := by decide

theorem test_wellFormed_update : (Instr.update 256).wellFormed = false ∧ (Instr.update 255).wellFormed = true := by decide

theorem test_wellFormed_digest : (Instr.digest 256).wellFormed = false ∧ (Instr.digest 255).wellFormed = true := by decide

theorem test_wellFormed_squeeze : (Instr.squeeze 256).wellFormed = false ∧ (Instr.squeeze 255).wellFormed = true := by
  decide

theorem test_wellFormed_copy : (Instr.copy 256).wellFormed = false ∧ (Instr.copy 255).wellFormed = true := by decide

theorem test_wellFormed_release : (Instr.release 256).wellFormed = false ∧ (Instr.release 255).wellFormed = true := by
  decide

/-! ### Decoding: words written bit by bit as RSV, CTX, ALG, OPC (R111, R112, R113) -/

theorem test_decode_alloc : decode 0b00000000_00000000_00000110_00000001 = .ok (.alloc .sha512) := by decide

theorem test_decode_reset : decode 0b00000000_00000011_00000000_00000010 = .ok (.reset 3) := by decide

theorem test_decode_update : decode 0b00000000_11001000_00000000_00000011 = .ok (.update 200) := by decide

theorem test_decode_digest : decode 0b00000000_00000010_00000000_00000100 = .ok (.digest 2) := by decide

theorem test_decode_squeeze : decode 0b00000000_00000001_00000000_00000101 = .ok (.squeeze 1) := by decide

theorem test_decode_copy : decode 0b00000000_11111111_00000000_00000110 = .ok (.copy 255) := by decide

theorem test_decode_release : decode 0b00000000_00001111_00000000_00000111 = .ok (.release 15) := by decide

theorem test_decode_oneshot : decode 0b00000000_00000000_00001110_00001000 = .ok (.oneshot .blake2b) := by decide

theorem test_decode_hmac : decode 0b00000000_00000000_00001010_00001001 = .ok (.hmac .sha3_512) := by decide

/-- The illegal words of vectors V16 to V21, and ALG 0 in ALLOC (R117). -/
theorem test_decode_illegal :
    decode 0x00000000 = .error .reservedOpcode ∧ decode 0x0000000A = .error .reservedOpcode ∧
    decode 0x00000F01 = .error .reservedAlg ∧ decode 0x00000001 = .error .reservedAlg ∧
    decode 0x01000401 = .error .reservedBits ∧ decode 0x00010401 = .error .ctxNotZero ∧
    decode 0x00000102 = .error .algNotZero := by decide

theorem test_decodeTableWord : decodeTableWord 32 0x000F0007 = some (.release 15) ∧ decodeTableWord 32 0x0A = none := by
  decide

/-! ### States for the tests -/

/-- The host memory of vectors V1 to V33: 0x10000 bytes. -/
def smallPlatform : Platform := ⟨[⟨0, 0x10000⟩], []⟩

/-- A machine with these slots and memory. -/
def machine (ctx : List (Option Context)) (mem : Memory) : State :=
  { State.reset with ctx := ctx, mem := mem, platform := smallPlatform }

/-- The machine after acceptance of a word with these arguments, ENGINE next. -/
def accepted (w : BitVec 32) (args : ArgRegs) (s : State) : State :=
  { s with latch := some ⟨w, args⟩, status := { s.status with busy := true, done := false }, agenda := [] }

/-- The machine with these events ahead. -/
def facing (events : List Event) (s : State) : State := { s with agenda := events }

/-- A check of the state after one step. -/
def after (s : State) (check : State → Bool) : Bool :=
  match step s with
  | .next t => check t
  | .fault _ => false
  | .refused _ => false

/-- The message "abc" at 0x100. -/
def abcMem : Memory := [(0x100, 0x61), (0x101, 0x62), (0x102, 0x63)]

/-- "abc". -/
def abc : List Byte := [0x61, 0x62, 0x63]

/-- Arguments for a message and an output. -/
def srcDst (src srcLen dst dstLen : Word64) : ArgRegs := ⟨src, srcLen, 0, 0, dst, dstLen⟩

/-- A context that has absorbed "abc". -/
def abcContext (alg : Alg) : Context := ⟨alg, initialH alg, 3, abc⟩

/-! ### The commands, one step each (spec 95 §2.8 to §2.10) -/

/-- V1. -/
theorem test_alloc : after (accepted 0x00000401 ArgRegs.zero (machine [none, none] [])) (fun t =>
    statusWord t.status == 0x200 && t.ctx == [some (freshContext .sha256), none]) = true := by decide +kernel

/-- V13, in a machine of two slots: RESULT_CTX stays 1. -/
theorem test_alloc_full : after (accepted 0x00000201 ArgRegs.zero
    { machine [some (freshContext .md5), some (freshContext .md5)] [] with status := ⟨0, false, true, false, 1⟩ })
    (fun t => statusWord t.status == 0x10204 && t.ctx == [some (freshContext .md5), some (freshContext .md5)]) = true := by
  decide +kernel

/-- V33. -/
theorem test_reset : after (accepted 0x00000002 ArgRegs.zero (machine [some (abcContext .sha1)] [])) (fun t =>
    t.status.code == 0x00 &&
      t.ctx == [some ⟨.sha1, .w32 [0x67452301, 0xEFCDAB89, 0x98BADCFE, 0x10325476, 0xC3D2E1F0], 0, []⟩]) = true := by
  decide +kernel

/-- V22: slot 255 does not exist. -/
theorem test_reset_missing : after (accepted 0x00FF0002 ArgRegs.zero (machine [some (abcContext .sha1)] [])) (fun t =>
    t.status.code == 0x11 && t.ctx == [some (abcContext .sha1)]) = true := by decide +kernel

/-- §2.8: one byte after 64 pending ones compresses a BLAKE2S block with t = 64, last = false. -/
theorem test_update_lazy : after (accepted 0x00000003 (srcDst 0x100 1 0 0)
    (machine [some ⟨.blake2s, initialH .blake2s, 64, List.replicate 64 0x71⟩] [(0x100, 0x72)])) (fun t =>
      t.ctx == [some ⟨.blake2s,
        .w32 [0xce13f1a4, 0x171c151d, 0xb75d7f10, 0x517f579c, 0xb54092da, 0x40a4f9c2, 0x2f124ff4, 0x9f69b1de],
        65, [0x72]⟩]) = true := by decide +kernel

/-- V4: exactly MAXLEN passes the length check and fails the range check. -/
theorem test_update_range : after (accepted 0x00000003 (srcDst 0x100 0x1ffffffffffffffc 0 0)
    (machine [some (abcContext .md5)] [])) (fun t =>
      t.status.code == 0x12 && t.ctx == [some (abcContext .md5)]) = true := by decide +kernel

/-- §2.1: MD5("abc") is written and the context kept. -/
theorem test_digest : after (accepted 0x00000004 (srcDst 0 0 0x200 0) (machine [some (abcContext .md5)] [])) (fun t =>
    readBytes t.mem 0x200 16 == toBE 0x900150983cd24fb0d6963f7d28e17f72 16 && t.ctx == [some (abcContext .md5)] &&
      t.status.code == 0x00) = true := by decide +kernel

/-- V7. -/
theorem test_digest_shake : after (accepted 0x00000004 (srcDst 0 0 0x200 0) (machine [some (freshContext .shake128)] []))
    (fun t => t.status.code == 0x01 && t.mem == []) = true := by decide +kernel

/-- V12: the last eight bytes of memory. -/
theorem test_squeeze : after (accepted 0x00000005 (srcDst 0 0 0xfff8 8) (machine [some (freshContext .shake256)] []))
    (fun t => readBytes t.mem 0xfff8 8 == toBE 0x46b9dd2b0ba88d13 8 && t.status.code == 0x00) = true := by decide +kernel

/-- V9: the class is checked before the length. -/
theorem test_squeeze_class : after (accepted 0x00000005 (srcDst 0 0 0x200 0) (machine [some (freshContext .sha256)] []))
    (fun t => t.status.code == 0x01) = true := by decide +kernel

/-- V15: the copy takes the lowest free slot. -/
theorem test_copy : after (accepted 0x00010006 ArgRegs.zero (machine [none, some (abcContext .md5), none] [])) (fun t =>
    t.status.code == 0x00 && t.status.resultCtx == 0 &&
      t.ctx == [some (abcContext .md5), some (abcContext .md5), none]) = true := by decide +kernel

/-- V14. -/
theorem test_copy_full : after (accepted 0x00000006 ArgRegs.zero
    (machine [some (abcContext .md5), some (freshContext .md5)] [])) (fun t =>
      t.status.code == 0x04 && t.ctx == [some (abcContext .md5), some (freshContext .md5)]) = true := by decide +kernel

/-- V31. -/
theorem test_release : after (accepted 0x00000007 ArgRegs.zero (machine [some (abcContext .md5)] [])) (fun t =>
    t.status.code == 0x00 && t.ctx == [none]) = true := by decide +kernel

/-- V32. -/
theorem test_release_free : after (accepted 0x00000007 ArgRegs.zero (machine [none] [])) (fun t =>
    t.status.code == 0x11 && t.ctx == [none]) = true := by decide +kernel

/-- §2.3, in place (R84): the digest of the input as it was overwrites the input. -/
theorem test_oneshot : after (accepted 0x00000408 (srcDst 0x100 3 0x100 0) (machine [none] abcMem)) (fun t =>
    readBytes t.mem 0x100 32 == toBE 0xba7816bf8f01cfea414140de5dae2223b00361a396177a9cb410ff61f20015ad 32) = true := by
  decide +kernel

/-- V26: the output range passes the end of memory by 16 bytes. -/
theorem test_oneshot_range : after (accepted 0x00000408 (srcDst 0x100 0 0xfff0 0) (machine [none] [])) (fun t =>
    t.status.code == 0x12 && t.mem == []) = true := by decide +kernel

/-- RFC 2202 HMAC-MD5 case 2 of §2.9: key "Jefe" at 0x80, the message at 0x100. -/
theorem test_hmac : after (accepted 0x00000109 ⟨0x100, 28, 0x80, 4, 0x200, 0⟩ (machine [none]
    (writeBytes (writeBytes [] 0x80 (toBE 0x4a656665 4)) 0x100
      (toBE 0x7768617420646f2079612077616e7420666f72206e6f7468696e673f 28)))) (fun t =>
    readBytes t.mem 0x200 16 == toBE 0x750c783e6ab0b503eaa86e310a5db738 16) = true := by decide +kernel

/-- V27: B + SRC_LEN is one byte past MAXLEN. -/
theorem test_hmac_length : after (accepted 0x00000109 ⟨0, 0x1fffffffffffffc0, 0, 0, 0x200, 0⟩ (machine [none] []))
    (fun t => t.status.code == 0x03) = true := by decide +kernel

/-! ### HOST's lines (R120) -/

/-- `SET CMD` writes all 64 bits to 0x00, `SET STATUS` and `SET CAPS` to 0x08 and 0x48. -/
theorem test_set :
    lineEvents (.set .cmd 0xFFFFFFFF00000401) = [.host (.regWrite 64 0x00 0xFFFFFFFF00000401)] ∧
    lineEvents (.set .status 1) = [.host (.regWrite 64 0x08 1)] ∧
    lineEvents (.set .caps 1) = [.host (.regWrite 64 0x48 1)] := by decide

/-! ### The algorithms on "abc", one for each family not met above (spec 95 §2.2 to §2.6) -/

theorem test_sha1 : hashOf .sha1 abc = toBE 0xa9993e364706816aba3e25717850c26c9cd0d89d 20 := by decide +kernel

theorem test_sha224 : hashOf .sha224 abc = toBE 0x23097d223405d8228642a477bda255b32aadbce4bda0b3f7e36c9da7 28 := by
  decide +kernel

theorem test_sha384 : hashOf .sha384 abc =
    toBE (0xcb00753f45a35e8bb5a03d699ac65007272c32ab0eded163 * 2 ^ 192 +
      0x1a8b605a43ff5bed8086072ba1e7cc2358baeca134c825a7) 48 := by decide +kernel

theorem test_sha3_256 : hashOf .sha3_256 abc =
    toBE 0x3a985da74fe225b2045c172d6bd390bd855f086e3e9d525b46bfe24511431532 32 := by decide +kernel

theorem test_blake2s : hashOf .blake2s abc =
    toBE 0x508c5e8c327c14e2e1a72ba34eeb452f37458b209ed63a294d999b4c86675982 32 := by decide +kernel

theorem test_blake2b : hashOf .blake2b abc =
    toBE (0xba80a53f981c4d0d6a2797b69f12f6e94c212f14685ac4b74b12bb6fdbffa2d1 * 2 ^ 256 +
      0x7d87c5392aab792dc252d5de4533cc9518d38aa8dbf1925ab92386edd4009923) 64 := by decide +kernel

/-! ### States and operands that meet the hypotheses of the statements -/

/-- MAXLEN of the 32-bit Merkle–Damgård families (R7). -/
def maxMd : Nat := 2305843009213693951

theorem witness_DecodeOfEncodeReturnsInstruction :
    (Instr.alloc .md5).wellFormed = true ∧ (Instr.release 255).wellFormed = true := by decide

theorem witness_EncodeOfDecodeReturnsWord : decode 0x00FF0007 = .ok (.release 255) := by decide

theorem witness_IllegalCommandWords :
    (accepted 0x00000F01 ArgRegs.zero State.reset).latch = some ⟨0x00000F01, ArgRegs.zero⟩ ∧
    decode 0x00000F01 = .error .reservedAlg := by decide

/-- One legal and one illegal word that have the fixed bits of ALLOC's row. -/
theorem witness_TableRowSelection :
    (0x00000E01 : BitVec 32) &&& 0xFFFF00FF = 0x00000001 ∧ (0x00000F01 : BitVec 32) &&& 0xFFFF00FF = 0x00000001 := by
  decide

theorem witness_RegisterBlockMap :
    0x10 ∈ [0x10, 0x18, 0x20, 0x28, 0x30, 0x38] ∧ 0x38 ∈ [0x10, 0x18, 0x20, 0x28, 0x30, 0x38] ∧
    State.reset.ctx.length = (accepted 0x00000401 ArgRegs.zero State.reset).ctx.length ∧
    (0x50 ≤ 0x50 ∨ 0x50 % 8 ≠ 0) ∧ (0x50 ≤ 0x4F ∨ 0x4F % 8 ≠ 0) ∧ (0x40 : Nat) ≠ 0x48 := by decide

theorem witness_UnmappedRegisterAccess :
    (32 ≠ 64 ∨ 0x10 % 8 ≠ 0) ∧ (64 ≠ 64 ∨ 0x47 % 8 ≠ 0) ∧
    (facing [.host (.regRead 64 0x08)] State.reset).agenda = [.host (.regRead 64 0x08)] ∧ (0x08 : Nat) ≠ 0x00 := by
  decide

theorem witness_InterruptLineLifecycle_completion :
    (accepted 0x00000000 ArgRegs.zero State.reset).latch ≠ none ∧
    ∃ t, engineStep (accepted 0x00000000 ArgRegs.zero State.reset) = .next t :=
  ⟨by decide, _, rfl⟩

theorem witness_InterruptLineLifecycle_steps :
    State.reset.latch = none ∧
    (∃ t, step (facing [.deviceReset] State.reset) = .next t) ∧
    ∃ t, step (facing [.host (.regRead 64 0x08)] State.reset) = .next t :=
  ⟨rfl, ⟨_, rfl⟩, _, rfl⟩

/-- The line rises at a completion, and when the interrupt is enabled while DONE. -/
theorem witness_InterruptLineLifecycle_rises :
    (∃ t, step { accepted 0x00000000 ArgRegs.zero State.reset with irqEn := true } = .next t ∧
      irqLine { accepted 0x00000000 ArgRegs.zero State.reset with irqEn := true } = false ∧ irqLine t = true) ∧
    ∃ t, step { facing [.host (.regWrite 64 0x40 1)] State.reset with status := ⟨0, false, true, false, 0⟩ } = .next t ∧
      irqLine { facing [.host (.regWrite 64 0x40 1)] State.reset with status := ⟨0, false, true, false, 0⟩ } = false ∧
      irqLine t = true :=
  ⟨⟨_, rfl, rfl, rfl⟩, _, rfl, rfl, rfl⟩

theorem witness_CapsLayout :
    (machine (List.replicate 255 none) []).ctx.length ≤ 255 ∧ (machine [none] []).ctx.length ≤ 255 := by decide +kernel

theorem witness_CommandAcceptance :
    State.reset.latch = none ∧ (accepted 0x00000401 ArgRegs.zero State.reset).latch ≠ none ∧
    (facing [.host (.regWrite 64 0x00 0x401)] State.reset).agenda = [.host (.regWrite 64 0x00 0x401)] := by decide

theorem witness_OverrunIsSticky :
    (accepted 0x00000401 ArgRegs.zero State.reset).latch ≠ none ∧
    (∃ t, ({ State.reset with status := ⟨0, false, false, true, 0⟩ } : State).status.overrun = true ∧
      (∀ rest, ({ State.reset with status := ⟨0, false, false, true, 0⟩ } : State).agenda ≠ .deviceReset :: rest) ∧
      step { State.reset with status := ⟨0, false, false, true, 0⟩ } = .next t) ∧
    ∃ t, step (facing [.deviceReset] State.reset) = .next t :=
  ⟨by decide, ⟨_, rfl, fun _ h => (nomatch h), rfl⟩, _, rfl⟩

theorem witness_FailedCommandHasNoEffect :
    ∃ t, exec (.digest 3) (accepted 0x00030004 ArgRegs.zero State.reset) = .next t ∧ t.status.code ≠ 0x00 :=
  ⟨_, rfl, by decide⟩

theorem witness_StepRunsDecodedInstruction :
    (accepted 0x00000401 ArgRegs.zero State.reset).latch = some ⟨0x00000401, ArgRegs.zero⟩ ∧
    decode 0x00000401 = .ok (.alloc .sha256) ∧
    (facing [.engine] (accepted 0x00000401 ArgRegs.zero State.reset)).agenda = [.engine] ∧
    (accepted 0x00000401 ArgRegs.zero State.reset).agenda = [] ∧
    (facing [.host .wait] (accepted 0x00000401 ArgRegs.zero State.reset)).agenda = [.host .wait] ∧
    (facing [.host .wait] (accepted 0x00000401 ArgRegs.zero State.reset)).status.busy = true := by decide

theorem witness_FetchWordRunsNext :
    (0x000F0007 : Nat) < 2 ^ 32 ∧ decode (BitVec.ofNat 32 0x000F0007) = .ok (.release 15) := by decide

/-- The highest slot is the only free one; and none is. -/
theorem witness_AllocFillsLowestFreeSlot :
    (let s := machine [some (abcContext .md5), none] []
     1 < s.ctx.length ∧ slot s 1 = none ∧ ∀ j, j < 1 → slot s j ≠ none) ∧
    (let s := machine [some (abcContext .md5), some (abcContext .sha1)] []
     ∀ j, j < s.ctx.length → slot s j ≠ none) := by decide

theorem witness_ResetReinitialisesContext :
    slot (machine [none, some (abcContext .md5)] []) 1 = some (abcContext .md5) ∧
    slot (machine [none, some (abcContext .md5)] []) 0 = none ∧
    slot (machine [none, some (abcContext .md5)] []) 2 = none := by decide

/-- Exactly MAXLEN in a machine whose platform admits every range; one byte more; and a range past the end. -/
theorem witness_UpdateAbsorbsMessage :
    (abcContext .md5).totalLen.toNat + (0x1ffffffffffffffc : Word64).toNat = maxMd ∧ maxLen .md5 = maxMd ∧
    admitted State.reset.platform 0 (0x1ffffffffffffffc : Word64).toNat = true ∧
    (maxLen .md5 < (abcContext .md5).totalLen.toNat + (0x1ffffffffffffffd : Word64).toNat) ∧
    admitted smallPlatform 0xffff 2 = false ∧ admitted smallPlatform 0xffff 1 = true ∧
    (accepted 3 (srcDst 0 0x1ffffffffffffffc 0 0) State.reset).latch =
      some ⟨3, srcDst 0 0x1ffffffffffffffc 0 0⟩ := by decide

/-- DIGEST ending at the last byte, on SHAKE, past the end, and with no context. -/
theorem witness_DigestWritesDigest :
    slot (machine [some (abcContext .md5), none] []) 0 = some (abcContext .md5) ∧ algFamily .md5 ≠ .shake ∧
    admitted smallPlatform 0xfff0 (outLen .md5) = true ∧ admitted smallPlatform 0xfff1 (outLen .md5) = false ∧
    algFamily (abcContext .shake256).alg = .shake ∧ slot (machine [some (abcContext .md5), none] []) 1 = none ∧
    (accepted 4 (srcDst 0 0 0xfff0 0) State.reset).latch = some ⟨4, srcDst 0 0 0xfff0 0⟩ := by decide

/-- SQUEEZE of one byte at the last address, of no bytes, past the end, and on another algorithm. -/
theorem witness_SqueezeWritesOutput :
    slot (machine [some (abcContext .shake128)] []) 0 = some (abcContext .shake128) ∧
    algFamily (abcContext .shake128).alg = .shake ∧ (1 : Word64) ≠ 0 ∧
    admitted smallPlatform 0xffff (1 : Word64).toNat = true ∧ admitted smallPlatform 0xffff (2 : Word64).toNat = false ∧
    algFamily (abcContext .sha3_256).alg ≠ .shake ∧ slot (machine [some (abcContext .shake128)] []) 1 = none ∧
    (accepted 5 (srcDst 0 0 0xffff 1) State.reset).latch = some ⟨5, srcDst 0 0 0xffff 1⟩ := by decide

theorem witness_CopyDuplicatesContext :
    (let s := machine [some (abcContext .md5), none] []
     slot s 0 = some (abcContext .md5) ∧ 1 < s.ctx.length ∧ slot s 1 = none ∧ ∀ j, j < 1 → slot s j ≠ none) ∧
    (let s := machine [some (abcContext .md5)] []
     slot s 0 = some (abcContext .md5) ∧ (∀ j, j < s.ctx.length → slot s j ≠ none) ∧ slot s 1 = none) := by decide

theorem witness_ReleaseFreesSlot :
    slot (machine [some (abcContext .md5)] []) 0 = some (abcContext .md5) ∧
    (∃ t, exec (.release 0) (machine [some (abcContext .md5)] []) = .next t) ∧
    Instr.copy 0 ∈ [Instr.reset 0, .update 0, .digest 0, .squeeze 0, .copy 0, .release 0] ∧
    slot (machine [none] []) 0 = none :=
  ⟨by decide, ⟨_, rfl⟩, by decide, by decide⟩

/-- ONESHOT of exactly MAXLEN bytes in a machine whose platform admits every range, one byte more, SHAKE, and a range past
the end. -/
theorem witness_OneshotWritesDigest :
    algFamily .sha256 ≠ .shake ∧ (0x1fffffffffffffff : Word64).toNat ≤ maxLen .sha256 ∧
    admitted State.reset.platform 0 (0x1fffffffffffffff : Word64).toNat = true ∧
    admitted State.reset.platform 0xffffffffffffffe0 (outLen .sha256) = true ∧ algFamily .shake128 = .shake ∧
    maxLen .sha256 < (0x2000000000000000 : Word64).toNat ∧ admitted smallPlatform 0xffe1 (outLen .sha256) = false ∧
    (accepted 8 (srcDst 0 0 0x200 0) State.reset).latch = some ⟨8, srcDst 0 0 0x200 0⟩ := by decide

/-- HMAC at the longest message and at a hashed key of B + 1 bytes, one byte too long a message, too long a key, SHAKE, and
a key range past the end. -/
theorem witness_HmacWritesMac :
    algFamily .md5 ≠ .shake ∧
    ¬(maxLen .md5 < blockLen .md5 + (0x1fffffffffffffbf : Word64).toNat ∨
      (blockLen .md5 < (65 : Word64).toNat ∧ maxLen .md5 < (65 : Word64).toNat)) ∧
    admitted State.reset.platform 0 (65 : Word64).toNat = true ∧
    admitted State.reset.platform 0 (0x1fffffffffffffbf : Word64).toNat = true ∧
    admitted State.reset.platform 0xfffffffffffffff0 (outLen .md5) = true ∧ algFamily .shake256 = .shake ∧
    maxLen .md5 < blockLen .md5 + (0x1fffffffffffffc0 : Word64).toNat ∧
    (blockLen .md5 < (0x2000000000000000 : Word64).toNat ∧ maxLen .md5 < (0x2000000000000000 : Word64).toNat) ∧
    admitted smallPlatform 0xffff (2 : Word64).toNat = false ∧
    (accepted 9 ArgRegs.zero State.reset).latch = some ⟨9, ArgRegs.zero⟩ := by decide

theorem witness_CheckOrderDecidesStatus :
    (accepted 0x00000F01 ArgRegs.zero State.reset).latch = some ⟨0x00000F01, ArgRegs.zero⟩ ∧
    (accepted 0x00000401 ArgRegs.zero State.reset).latch = some ⟨0x00000401, ArgRegs.zero⟩ := by decide

theorem witness_InvalidContextCause :
    Instr.release 15 ∈ [Instr.reset 15, .update 15, .digest 15, .squeeze 15, .copy 15, .release 15] ∧
    (∃ t, exec (.release 15) State.reset = .next t) ∧ (∃ t, exec (.release 16) State.reset = .next t) ∧
    Instr.oneshot .md5 ∈ [Instr.alloc .md5, .oneshot .md5, .hmac .md5] ∧
    ∃ t, exec (.oneshot .shake128) State.reset = .next t :=
  ⟨by decide, ⟨_, rfl⟩, ⟨_, rfl⟩, by decide, _, rfl⟩

theorem witness_InvalidAlgorithmCause :
    (∃ t, exec (.oneshot .shake128) State.reset = .next t) ∧
    ((0x00000F08 : BitVec 32).extractLsb' 0 8).toNat ∈ [0x01, 0x08, 0x09] ∧
    0x0E < ((0x00000F08 : BitVec 32).extractLsb' 8 8).toNat ∧ ((0x00000008 : BitVec 32).extractLsb' 8 8).toNat = 0 :=
  ⟨⟨_, rfl⟩, by decide⟩

theorem witness_InvalidLengthCause : ∃ t, exec (.squeeze 0) (machine [some (freshContext .shake256)] []) = .next t ∧
    t.status.code = 0x02 := ⟨_, rfl, by decide⟩

theorem witness_MaximumLengthCause :
    ∃ t, exec (.update 0) (accepted 3 (srcDst 0 0x1ffffffffffffffd 0 0) (machine [some (abcContext .md5)] [])) = .next t ∧
      t.status.code = 0x03 := ⟨_, rfl, by decide⟩

theorem witness_OutOfMemoryCause :
    ∃ t, exec (.copy 0) (machine [some (abcContext .md5)] []) = .next t ∧ t.status.code = 0x04 := ⟨_, rfl, by decide⟩

/-- One output command of each kind that answers a next state, the slot it names, and an address outside its range. -/
theorem witness_OutputCommandFrame :
    (∃ t, exec (.digest 0) (accepted 4 (srcDst 0 0 0x200 0) (machine [some (abcContext .md5)] [])) = .next t) ∧
    slot (machine [some (abcContext .md5)] []) 0 = some (abcContext .md5) ∧
    slot (machine [some (abcContext .md5)] []) 1 = none ∧
    (∃ t, exec (.squeeze 0) (accepted 5 (srcDst 0 0 0x200 1) (machine [some (abcContext .shake128)] [])) = .next t) ∧
    (∃ t, exec (.oneshot .md5) (accepted 8 (srcDst 0 0 0x200 0) State.reset) = .next t) ∧
    (∃ t, exec (.hmac .md5) (accepted 9 (srcDst 0 0 0x200 0) State.reset) = .next t) ∧
    ((0x1ff : Nat) < 0x200 ∨ 0x200 + outLen .md5 ≤ 0x1ff) ∧ ((0x210 : Nat) < 0x200 ∨ 0x200 + outLen .md5 ≤ 0x210) :=
  ⟨⟨_, rfl⟩, by decide, by decide, ⟨_, rfl⟩, ⟨_, rfl⟩, ⟨_, rfl⟩, by decide, by decide⟩

/-- One slot command of each kind that answers a next state with Success. -/
theorem witness_SlotCommandFrame :
    (∃ t, exec (.alloc .md5) (machine [none] []) = .next t ∧ t.status.code = 0x00) ∧
    (∃ t, exec (.reset 0) (machine [some (abcContext .md5)] []) = .next t ∧ t.status.code = 0x00) ∧
    (∃ t, exec (.update 0) (machine [some (abcContext .md5)] []) = .next t ∧ t.status.code = 0x00) ∧
    (∃ t, exec (.copy 0) (machine [some (abcContext .md5), none] []) = .next t ∧ t.status.code = 0x00) ∧
    (∃ t, exec (.release 0) (machine [some (abcContext .md5)] []) = .next t ∧ t.status.code = 0x00) ∧
    Instr.copy 0 ∈ [Instr.reset 0, .update 0, .copy 0, .release 0] ∧
    Instr.release 0 ∈ [Instr.reset 0, .update 0, .release 0] :=
  ⟨⟨_, rfl, by decide⟩, ⟨_, rfl, by decide⟩, ⟨_, rfl, by decide⟩, ⟨_, rfl, by decide⟩, ⟨_, rfl, by decide⟩, by decide,
    by decide⟩

theorem witness_OnlySlotCommandsChangeSlots :
    (∃ t, exec (.digest 0) (machine [some (abcContext .md5)] []) = .next t) ∧
    (∃ t, exec (.alloc .md5) (machine [none] []) = .next t ∧ slot t 0 ≠ slot (machine [none] []) 0) ∧
    (∃ t, exec (.reset 0) (machine [some (abcContext .md5)] []) = .next t ∧
      slot t 0 ≠ slot (machine [some (abcContext .md5)] []) 0) ∧
    ∃ t, exec (.release 0) (machine [some (abcContext .md5)] []) = .next t ∧
      slot t 0 ≠ slot (machine [some (abcContext .md5)] []) 0 :=
  ⟨⟨_, rfl⟩, ⟨_, rfl, by decide⟩, ⟨_, rfl, by decide⟩, _, rfl, by decide⟩

theorem witness_HostByteStore :
    Memory.wf (facing [.host (.memWrite 0xFFFFFFFFFFFFFFFF 1)] (machine [none] abcMem)).mem ∧
    (facing [.host (.memWrite 0xFFFFFFFFFFFFFFFF 1)] (machine [none] abcMem)).agenda =
      [.host (.memWrite 0xFFFFFFFFFFFFFFFF 1)] := by decide

/-- A byte HOST wrote during the command, one it did not, and an address on either side of the range. -/
theorem witness_RacedOutputBytes :
    (let s : State := { accepted 8 ArgRegs.zero (machine [none] abcMem) with held := [(0x101, 0x00)] }
     Memory.wf s.mem ∧ ([0xAA, 0xBB] : List Byte)[0]? = some 0xAA ∧ ([0xAA, 0xBB] : List Byte)[1]? = some 0xBB ∧
     heldAt s (0x100 + 0) = false ∧ heldAt s (0x100 + 1) = true ∧ s.latch ≠ none) ∧
    ((0xFF : Nat) < 0x100 ∨ 0x100 + ([0xAA, 0xBB] : List Byte).length ≤ 0xFF) ∧
    ((0x102 : Nat) < 0x100 ∨ 0x100 + ([0xAA, 0xBB] : List Byte).length ≤ 0x102) := by decide

/-- A ONESHOT of SHA256 of 0x100..0x102 to 0x200 in flight; HOST saw its output and then wrote 0x61 at 0x100, which held
0x00. -/
def raced (events : List Event) : State :=
  { facing events (accepted 0x00000408 (srcDst 0x100 3 0x200 0) (machine [some (freshContext .md5)] abcMem)) with
    held := [(0x100, 0x00)]
    view := some ⟨[(0x101, 0x62), (0x102, 0x63)], []⟩ }

theorem raced_inv (events : List Event) : (raced events).Inv where
  memory := show Memory.wf abcMem by decide
  bounded := show Memory.bounded abcMem by decide
  busy := rfl
  idleHeld := fun h => nomatch h
  viewHeld := fun v hv a b hb => by
    cases hv
    simp only [valuesAt, List.filter_nil, List.map_nil, List.mem_singleton] at hb
    subst hb
    by_cases ha : a = 0x100
    · subst ha; exact show (0x00 : Byte) ∈ [0x61, 0x00] by decide
    · simp [raced, facing, accepted, machine, abcMem, readByte, ha]
  code := ⟨.success, rfl⟩
  slots := by show 1 ≤ 1 ∧ 1 ≤ 255; decide
  resultCtx := by show 0 < 1; decide
  contexts := fun c k h => by
    match c, h with
    | 0, h => cases h; exact ⟨Laws.freshContext_ok .md5, Laws.freshContext_absorbed .md5⟩

/-- R495, R496: the command uses the byte HOST saw the output of, not the one HOST wrote after. -/
theorem test_seen_inputs : inputBytes (raced []) 0x100 3 = [0x00, 0x62, 0x63] := by decide

theorem witness_RacedInputBytes :
    (raced []).Inv ∧ (State.reset.view = none ∧ ∀ v : Byte, (0x100, v) ∉ ({ State.reset with held := [(0x101, 0x62)] } : State).held) ∧
    (accepted 8 ArgRegs.zero State.reset).latch ≠ none ∧ State.reset.held = [] :=
  ⟨raced_inv _, by decide, by decide, by decide⟩

/-- A DIGEST of MD5("") to 0x200 in flight, in a memory that holds abcMem; HOST has overwritten 0x42 at 0x201. -/
def digesting (events : List Event) : State :=
  { facing events (accepted 0x00000004 (srcDst 0 0 0x200 0) (machine [some (freshContext .md5)] abcMem)) with
    held := [(0x201, 0x42)] }

/-- A HOST read of an output byte; a HOST write to the input of a command whose output HOST has seen; its ENGINE step. -/
theorem witness_HostReadOfRunningOutput :
    ((digesting [.host (.memRead 0x200)]).agenda = [.host (.memRead 0x200)] ∧
     plannedByte (digesting [.host (.memRead 0x200)]) 0x200 = some 0xd4 ∧
     (facing [.host (.memRead 0x200)] State.reset).latch = none) ∧
    (let s := raced [.host (.memWrite 0x101 0)]
     s.view ≠ none ∧ s.latch ≠ none ∧ s.agenda = [.host (.memWrite 0x101 0)] ∧
     after s (fun t => t.latch != none && inputBytes t 0x100 3 == [0x00, 0x62, 0x63]) = true) ∧
    (plannedOutput (raced [])).isSome = true ∧ after (raced []) (fun t => t.latch == none) = true := by decide +kernel

/-- A command with output in flight: at 0x200, where HOST wrote nothing, at 0x201, which held 0x42 before the command, and
past its end; nothing in flight; nothing held. -/
theorem witness_DeviceResetClearsAll :
    (let s := digesting [.deviceReset]
     Memory.wf s.mem ∧ s.agenda = [.deviceReset] ∧ s.latch ≠ none ∧
     plannedByte s 0x200 = some 0xd4 ∧ byteBefore s 0x200 = 0x00 ∧
     plannedByte s 0x201 = some 0x1d ∧ byteBefore s 0x201 = 0x42 ∧
     plannedByte s 0x20F = some 0x7e ∧ plannedByte s 0x210 = none ∧ plannedByte s 0x1FF = none) ∧
    (let s := facing [.deviceReset] (machine [some (abcContext .md5)] abcMem)
     Memory.wf s.mem ∧ s.agenda = [.deviceReset] ∧ s.latch = none ∧ s.held = []) := by decide +kernel

/-- A running machine with a context, memory, a held byte and fixed inputs meets the invariant, and its step answers a next
state. -/
theorem witness_StepKeepsInvariant : (raced []).Inv ∧ ∃ t, step (raced []) = .next t := ⟨raced_inv _, _, rfl⟩

theorem witness_AbsorbEagerByBlocks :
    isLazy (abcContext .md5).alg = false ∧ (abcContext .md5).totalLen.toNat + abc.length ≤ maxLen (abcContext .md5).alg ∧
    (freshContext .md5).Ok := ⟨rfl, by decide, Laws.freshContext_ok .md5⟩

theorem witness_AbsorbLazyByBlocks :
    isLazy (abcContext .blake2b).alg = true ∧
    (abcContext .blake2b).totalLen.toNat + abc.length ≤ maxLen (abcContext .blake2b).alg ∧
    (abcContext .blake2b).buf ++ abc ≠ [] := by decide

/-- The state before the second of two UPDATEs of MD5 that absorb "a" and "bc". -/
def splitState (src len : Word64) (k : Context) : State := accepted 0x00000003 (srcDst src len 0 0) (machine [some k] abcMem)

theorem witness_SplitUpdateEqualsOneUpdate : ∃ t1 t2 t3 : State, (freshContext .md5).Ok ∧
    (splitState 0x100 1 (freshContext .md5)).latch = some ⟨3, srcDst 0x100 1 0 0⟩ ∧
    slot (splitState 0x100 1 (freshContext .md5)) 0 = some (freshContext .md5) ∧
    slot (splitState 0x100 3 (freshContext .md5)) 0 = some (freshContext .md5) ∧
    slot (splitState 0x101 2 ⟨.md5, initialH .md5, 1, [0x61]⟩) 0 = slot t1 0 ∧
    exec (.update 0) (splitState 0x100 1 (freshContext .md5)) = .next t1 ∧
    exec (.update 0) (splitState 0x101 2 ⟨.md5, initialH .md5, 1, [0x61]⟩) = .next t2 ∧
    exec (.update 0) (splitState 0x100 3 (freshContext .md5)) = .next t3 ∧
    t1.status.code = 0x00 ∧ t2.status.code = 0x00 ∧ t3.status.code = 0x00 ∧
    inputBytes (splitState 0x100 3 (freshContext .md5)) 0x100 3 =
      inputBytes (splitState 0x100 1 (freshContext .md5)) 0x100 1 ++
        inputBytes (splitState 0x101 2 ⟨.md5, initialH .md5, 1, [0x61]⟩) 0x101 2 :=
  ⟨_, _, _, Laws.freshContext_ok .md5, rfl, rfl, rfl, by decide +kernel, rfl, rfl, rfl, rfl, rfl, rfl, by decide +kernel⟩

theorem witness_ChunkedHashEqualsOneshot :
    ([[], abc, [], [0x64]] : List (List Byte)).flatten.length ≤ maxLen .md5 ∧ algFamily .md5 ≠ .shake := by decide

theorem witness_SqueezeOutputsShareOneStream :
    (freshContext .shake128).Ok ∧ algFamily (freshContext .shake128).alg = .shake ∧
    slot (machine [some (freshContext .shake128)] []) 0 = some (freshContext .shake128) ∧
    Memory.wf (machine [some (freshContext .shake128)] []).mem ∧ (machine [some (freshContext .shake128)] []).held = [] ∧
    (1 : Word64) ≠ 0 ∧ (1 : Word64).toNat ≤ (200 : Word64).toNat ∧
    admitted smallPlatform 0xffff (1 : Word64).toNat = true ∧ admitted smallPlatform 0x200 (200 : Word64).toNat = true :=
  ⟨Laws.freshContext_ok .shake128, by decide⟩

/-- A key of B + 1 bytes. -/
theorem witness_HmacLongKeyEqualsHashedKey :
    algFamily .md5 ≠ .shake ∧ blockLen .md5 < (List.replicate 65 (0x0b : Byte)).length := by decide

/-- The first and last step of every range of steps. -/
theorem witness_RoundFunctionsBitwise :
    ((0 : Nat) ≤ 15 ∧ (15 : Nat) ≤ 15) ∧ ((16 : Nat) ≤ 16 ∧ (31 : Nat) ≤ 31) ∧ ((32 : Nat) ≤ 32 ∧ (47 : Nat) ≤ 47) ∧
    ((48 : Nat) ≤ 48 ∧ (63 : Nat) ≤ 63) ∧ (31 : Nat) < 32 ∧ ((20 : Nat) ≤ 20 ∧ (39 : Nat) ≤ 39) ∧
    ((60 : Nat) ≤ 60 ∧ (79 : Nat) ≤ 79) ∧ (40 : Nat) ≤ 40 ∧ (59 : Nat) ≤ 59 := by decide

/-- The last given word and the first and last computed one. -/
theorem witness_MessageSchedules :
    (15 : Nat) < 16 ∧ ((16 : Nat) ≤ 16 ∧ (16 : Nat) ≤ 63) ∧ ((16 : Nat) ≤ 63 ∧ (63 : Nat) ≤ 63) ∧
    ((16 : Nat) ≤ 79 ∧ (79 : Nat) ≤ 79) := by decide

/-- Pending bytes at the edges of one and of two blocks, for both length fields. -/
theorem witness_MdPaddingShape :
    (let k : Context := ⟨.md5, initialH .md5, 55, List.replicate 55 0⟩
     algFamily k.alg = .md5 ∧ k.buf.length < blockLen k.alg ∧ k.totalLen.toNat ≤ maxLen k.alg ∧ k.buf.length ≤ 55) ∧
    (let k : Context := ⟨.sha256, initialH .sha256, 56, List.replicate 56 0⟩
     algFamily k.alg = .sha256 ∧ k.buf.length < blockLen k.alg ∧ k.totalLen.toNat ≤ maxLen k.alg ∧
       (k.buf.length < 57 ∧ 57 < 2 * blockLen k.alg - 8)) ∧
    (let k : Context := ⟨.sha512, initialH .sha512, 127, List.replicate 127 0⟩
     algFamily k.alg = .sha512 ∧ k.buf.length < blockLen k.alg ∧ k.totalLen.toNat ≤ maxLen k.alg) := by decide

/-- No pending byte, and all but one of the rate. -/
theorem witness_SpongePaddingBlock :
    algFamily (freshContext .sha3_256).alg = .sha3 ∧
    (freshContext .sha3_256).buf.length < blockLen (freshContext .sha3_256).alg ∧
    algFamily Alg.shake128 = .shake ∧ (List.replicate 167 (0 : Byte)).length < blockLen .shake128 ∧
    (167 : Nat) < blockLen .shake128 := by decide +kernel

theorem witness_KeccakPiForms : (4 : Nat) < 5 ∧ (0 : Nat) < 5 := by decide

theorem witness_CompressionCounts : algFamily .sha3_512 ≠ .shake ∧ algFamily .blake2s ≠ .shake := by decide

/-- Slot lists that agree in slot 0 and differ in slot 1. -/
theorem witness_SlotIsolation :
    Instr.digest 0 ∈ [Instr.reset 0, .update 0, .digest 0, .squeeze 0, .release 0] ∧
    [some (abcContext .md5), none].length = (machine [some (abcContext .md5), some (abcContext .sha1)] []).ctx.length ∧
    [some (abcContext .md5), none].getD 0 none =
      (machine [some (abcContext .md5), some (abcContext .sha1)] []).ctx.getD 0 none ∧
    Instr.hmac .md5 ∈ [Instr.oneshot .md5, .hmac .md5] := by decide

theorem witness_LatchIsolatesArguments : (accepted 0x00000401 ArgRegs.zero State.reset).latch ≠ none := by decide

/-- Arguments that differ in every register DIGEST does not use. -/
theorem witness_UnusedArgumentsIgnored :
    (⟨1, 1, 1, 1, 0x200, 1⟩ : ArgRegs).dstAddr = (⟨2, 2, 2, 2, 0x200, 2⟩ : ArgRegs).dstAddr := by decide

theorem witness_AcceptedCommandEnds :
    (let s := facing [.host (.memWrite 0x100 1), .host (.regRead 64 0x08)] (accepted 0x00000401 ArgRegs.zero State.reset)
     s.latch ≠ none ∧ s.status.busy = s.latch.isSome) ∧
    ∀ code, Event.host (.expect code) ∉ [Event.host (.memWrite 0x100 1), .host (.regRead 64 0x08)] :=
  ⟨by decide, fun _ h => by simp at h⟩

end Sys2Proof.Tests
end

section
/-! PROOF. The register block (spec 10_state.md R30 to R33, R43, R44, R47): what a read returns and what a write changes, by
offset, and the bits of the words read. -/

namespace Sys2Proof.Proofs

open Sys2Proof Sys2Proof.Machine Sys2Proof.Laws

/-! ### Unmapped accesses -/

/-- The offsets of the ten registers (R30). -/
def registerOffsets : List Nat := [0x00, 0x08, 0x10, 0x18, 0x20, 0x28, 0x30, 0x38, 0x40, 0x48]

theorem not_mem_registerOffsets {o : Nat} (h : 0x50 ≤ o ∨ o % 8 ≠ 0) : o ∉ registerOffsets := by
  have hmapped : ∀ a ∈ registerOffsets, a < 0x50 ∧ a % 8 = 0 := by decide
  intro ho
  have := hmapped o ho
  omega

theorem readReg_unmapped (s : State) {width o : Nat} (h : width ≠ 64 ∨ o ∉ registerOffsets) : readReg s width o = 0 := by
  unfold readReg
  split
  · next hw =>
    have ho : o ∉ registerOffsets := h.resolve_left (not_not_intro hw)
    split
    case h_11 => rfl
    all_goals exact absurd (by decide) ho
  · rfl

theorem writeReg_unmapped (s : State) {width o : Nat} (h : width ≠ 64 ∨ o ∉ registerOffsets) (v : Word64) :
    writeReg s width o v = s := by
  unfold writeReg
  split
  · next hw =>
    have ho : o ∉ registerOffsets := h.resolve_left (not_not_intro hw)
    split
    case h_9 => rfl
    all_goals exact absurd (by decide) ho
  · rfl

/-! ### Reads and writes by register -/

@[simp] theorem readReg_cmd (s : State) : readReg s 64 0x00 = 0 := rfl
@[simp] theorem readReg_status (s : State) : readReg s 64 0x08 = statusWord s.status := rfl
@[simp] theorem readReg_irqEn (s : State) : readReg s 64 0x40 = irqEnWord s.irqEn := rfl
@[simp] theorem readReg_caps (s : State) : readReg s 64 0x48 = capsWord s := rfl
@[simp] theorem writeReg_status (s : State) (v : Word64) : writeReg s 64 0x08 v = s := rfl
@[simp] theorem writeReg_irqEn (s : State) (v : Word64) : writeReg s 64 0x40 v = { s with irqEn := v.getLsbD 0 } := rfl
@[simp] theorem writeReg_caps (s : State) (v : Word64) : writeReg s 64 0x48 v = s := rfl

/-- The offsets of the six argument registers (R30, R42). -/
def argOffsets : List Nat := [0x10, 0x18, 0x20, 0x28, 0x30, 0x38]

theorem argOffsets_cases {o : Nat} (h : o ∈ argOffsets) :
    o = 0x10 ∨ o = 0x18 ∨ o = 0x20 ∨ o = 0x28 ∨ o = 0x30 ∨ o = 0x38 := by
  simpa [argOffsets] using h

theorem writeReg_arg (s : State) {o : Nat} (h : o ∈ argOffsets) (v : Word64) :
    ∃ regs, writeReg s 64 o v = { s with regs := regs } := by
  obtain rfl | rfl | rfl | rfl | rfl | rfl := argOffsets_cases h <;> exact ⟨_, rfl⟩

theorem readReg_writeReg_arg (s : State) {o : Nat} (h : o ∈ argOffsets) (v : Word64) :
    readReg (writeReg s 64 o v) 64 o = v := by
  obtain rfl | rfl | rfl | rfl | rfl | rfl := argOffsets_cases h <;> rfl

/-- A write at another offset than CMD's changes registers only (R31). -/
theorem writeReg_changes_registers (s : State) (width : Nat) {o : Nat} (ho : o ≠ 0x00) (v : Word64) :
    ∃ regs en, writeReg s width o v = { s with regs := regs, irqEn := en } := by
  unfold writeReg
  split
  · split
    · exact absurd rfl ho
    all_goals exact ⟨_, _, rfl⟩
  · exact ⟨_, _, rfl⟩

/-- A write at another offset than CMD's shows at its own offset only (R31). -/
theorem readReg_writeReg_of_ne (s : State) (width : Nat) {o o' : Nat} (ho : o ≠ 0x00) (hne : o' ≠ o) (v : Word64) :
    readReg (writeReg s width o v) 64 o' = readReg s 64 o' := by
  unfold writeReg
  split
  · split
    · exact absurd rfl ho
    case h_9 => rfl
    all_goals
      unfold readReg
      rw [if_pos rfl, if_pos rfl]
      split <;> simp_all [capsWord]
  · rfl

theorem readReg_reset {o : Nat} (h : o ≠ 0x48) : readReg State.reset 64 o = 0 := by
  unfold readReg
  rw [if_pos rfl]
  split
  case h_10 => exact absurd rfl h
  all_goals rfl

/-! ### The words read -/

@[simp] theorem getElem_flagBit (b : Bool) : (flagBit b)[0] = b := by cases b <;> rfl

section
variable (st : Status) (s : State)

theorem statusWord_code : (statusWord st).extractLsb' 0 8 = st.code := BitVec.extractLsb'_append_eq_right

theorem statusWord_busy : (statusWord st).getLsbD 8 = st.busy := by
  simp only [statusWord, BitVec.getLsbD_append]; simp

theorem statusWord_done : (statusWord st).getLsbD 9 = st.done := by
  simp only [statusWord, BitVec.getLsbD_append]; simp

theorem statusWord_overrun : (statusWord st).getLsbD 10 = st.overrun := by
  simp only [statusWord, BitVec.getLsbD_append]; simp

theorem statusWord_reserved_low : (statusWord st).extractLsb' 11 5 = 0 := by
  simp (disch := decide) only [statusWord, BitVec.extractLsb'_append_eq_of_le, Nat.reduceSub,
    BitVec.extractLsb'_append_eq_right]

theorem statusWord_resultCtx : (statusWord st).extractLsb' 16 8 = st.resultCtx := by
  simp (disch := decide) only [statusWord, BitVec.extractLsb'_append_eq_of_le, Nat.reduceSub,
    BitVec.extractLsb'_append_eq_right]

theorem statusWord_reserved_high : (statusWord st).extractLsb' 24 40 = 0 := by
  simp (disch := decide) only [statusWord, BitVec.extractLsb'_append_eq_of_le, Nat.reduceSub, BitVec.extractLsb'_eq_self]

theorem capsWord_nctx : (capsWord s).extractLsb' 0 8 = BitVec.ofNat 8 s.ctx.length := BitVec.extractLsb'_append_eq_right

theorem capsWord_algorithms : (capsWord s).extractLsb' 8 8 = 0x0E := by
  simp (disch := decide) only [capsWord, BitVec.extractLsb'_append_eq_of_le, Nat.reduceSub,
    BitVec.extractLsb'_append_eq_right, capsAlgorithms]

theorem capsWord_reserved : (capsWord s).extractLsb' 16 48 = 0 := by
  simp (disch := decide) only [capsWord, BitVec.extractLsb'_append_eq_of_le, Nat.reduceSub, BitVec.extractLsb'_eq_self]

end

theorem capsWord_congr {s t : State} (h : s.ctx.length = t.ctx.length) : capsWord s = capsWord t := by
  unfold capsWord; rw [h]

@[simp] theorem irqEnWord_getLsbD_zero (en : Bool) : (irqEnWord en).getLsbD 0 = en := by cases en <;> rfl

theorem irqEnWord_bit0 (v : Word64) : irqEnWord (v.getLsbD 0) = v &&& 1 := by
  have hword : ∀ en, irqEnWord en = (BitVec.ofBool en).setWidth 64 := by decide
  exact (hword _).trans BitVec.and_one_eq_setWidth_ofBool_getLsbD.symm

/-! ### The register obligations -/

/-- Settles O6: register by register, from the reads and writes above. -/
theorem registerBlockMap : Obligations.RegisterBlockMap := by
  unfold Obligations.RegisterBlockMap
  refine ⟨fun s v o ho => ⟨writeReg_arg s ho v, fun o' => ?_⟩, fun s v => ?_, fun s t h => capsWord_congr h,
    fun s v o h => ?_, fun o ho => readReg_reset ho⟩
  · have hcmd : o ≠ 0x00 := fun h0 => absurd (h0 ▸ ho) (by decide)
    split
    · next h => exact h ▸ readReg_writeReg_arg s ho v
    · next h => exact readReg_writeReg_of_ne s 64 hcmd h v
  · exact ⟨readReg_cmd s, readReg_status s, writeReg_status s v, irqEnWord_bit0 v, writeReg_caps s v⟩
  · have hu : 64 ≠ 64 ∨ o ∉ registerOffsets := .inr (not_mem_registerOffsets h)
    exact ⟨readReg_unmapped s hu, writeReg_unmapped s hu v⟩

/-- Settles O7: unmapped accesses, the HOST step of a register read, and the frame of a write that is not CMD's. -/
theorem unmappedRegisterAccess : Obligations.UnmappedRegisterAccess := by
  unfold Obligations.UnmappedRegisterAccess
  refine fun s width o v => ⟨fun h => ?_, fun rest hs => ?_, fun ho => ?_⟩
  · have hu : width ≠ 64 ∨ o ∉ registerOffsets := h.imp_right fun h8 => not_mem_registerOffsets (.inr h8)
    exact ⟨readReg_unmapped s hu, writeReg_unmapped s hu v⟩
  · unfold step
    rw [hs]
    rfl
  · exact ⟨writeReg_changes_registers s width ho v, fun o' hne => readReg_writeReg_of_ne s width ho hne v⟩

/-- Settles O8: the word IRQ_EN reads is its one bit, and the line is that bit and DONE. -/
theorem interruptEnableRegister : Obligations.InterruptEnableRegister := by
  unfold Obligations.InterruptEnableRegister
  refine ⟨fun s v => ⟨writeReg_irqEn s v, irqEnWord_bit0 v, ?_⟩, readReg_reset (by decide)⟩
  rw [readReg_irqEn, irqEnWord_getLsbD_zero, irqLine, Bool.and_eq_true]

/-- Settles O10: the fields of the status word. -/
theorem statusWordLayout : Obligations.StatusWordLayout := by
  unfold Obligations.StatusWordLayout
  exact fun s v =>
    ⟨statusWord_code _, statusWord_busy _, statusWord_done _, statusWord_overrun _, statusWord_reserved_low _,
      statusWord_resultCtx _, statusWord_reserved_high _, writeReg_status s v⟩

/-- Settles O11: NCTX up to 255 fits its eight bits (R7). -/
theorem capsLayout : Obligations.CapsLayout := by
  unfold Obligations.CapsLayout
  intro s v h
  have hn : (BitVec.ofNat 8 s.ctx.length).toNat = s.ctx.length := by
    rw [BitVec.toNat_ofNat, Nat.mod_eq_of_lt (by omega)]
  exact ⟨(congrArg BitVec.toNat (capsWord_nctx s)).trans hn, capsWord_algorithms s, capsWord_reserved s,
    writeReg_caps s v⟩

end Sys2Proof.Proofs
end

section
/-! PROOF. A command's result with the other slots, or with the argument registers, replaced (spec 10_state.md R35, R45). -/

namespace Sys2Proof.Proofs

open Sys2Proof Sys2Proof.Machine Sys2Proof.Laws

/-! ### Commits with other slots or other argument registers -/

@[simp] theorem landOutput_withCtx (s : State) (x : List (Option Context)) (o : Option Output) :
    landOutput { s with ctx := x } o = landOutput s o :=
  landOutput_congr (s := s) (t := { s with ctx := x }) rfl rfl rfl o

@[simp] theorem landOutput_withRegs (s : State) (r : ArgRegs) (o : Option Output) :
    landOutput { s with regs := r } o = landOutput s o :=
  landOutput_congr (s := s) (t := { s with regs := r }) rfl rfl rfl o

/-- With a command latched the arguments are LATCH's, whatever the argument registers hold (R45). -/
theorem commandArgs_withRegs {s : State} (h : s.latch ≠ none) (r : ArgRegs) :
    commandArgs { s with regs := r } = commandArgs s := by
  unfold commandArgs
  cases hl : s.latch with
  | none => exact absurd hl h
  | some l => rfl

/-- A commit neither reads nor writes the argument registers. -/
theorem commit_withRegs (s : State) (r : ArgRegs) (res : Except StatusCode Effect) :
    commit { s with regs := r } res = { commit s res with regs := r } := by
  cases res with
  | error code => rfl
  | ok e => simp only [commit, landOutput_withRegs, complete]

/-- The same effect, leaving other slots. -/
def withSlots (x : List (Option Context)) (e : Effect) : Effect := { e with ctx := x }

/-- A result that is only moved to other slots is committed as before but for the slots. -/
theorem commit_withSlots (s : State) (x : List (Option Context)) (res : Except StatusCode Effect) :
    commit { s with ctx := x } (res.map (withSlots x)) = { commit s res with ctx := x } := by
  cases res with
  | error code => rfl
  | ok e => simp only [Except.map, commit, withSlots, landOutput_withCtx, complete]

/-! ### Results with other slots -/

/-- An empty slot is an invalid context (R448). -/
theorem commandResult_missing {s : State} {c : Nat} {i : Instr}
    (hi : i ∈ [Instr.reset c, .update c, .digest c, .squeeze c, .release c]) (hc : slot s c = none) :
    commandResult i s = .error .invalidContext := by
  simp only [List.mem_cons, List.not_mem_nil, or_false] at hi
  obtain rfl | rfl | rfl | rfl | rfl := hi <;>
    simp only [commandResult, resetResult, updateResult, digestResult, squeezeResult, releaseResult, hc]

/-- An effect on slot c, made on other slots: what it leaves in c is put there, the others stay. -/
def moveSlot (c : Nat) (x : List (Option Context)) (e : Effect) : Effect := withSlots (x.set c (e.ctx.getD c none)) e

theorem moveSlot_slotEffect {s : State} {c : Nat} (hc : c < s.ctx.length) (x : List (Option Context)) (v : Option Context) :
    moveSlot c x (slotEffect s (s.ctx.set c v)) = slotEffect { s with ctx := x } (x.set c v) := by
  simp only [moveSlot, slotEffect, withSlots, getD_set, hc, and_self, if_true]

theorem set_getD_self (x : List (Option Context)) (c : Nat) : x.set c (x.getD c none) = x := by
  by_cases hc : c < x.length
  · rw [List.getD_eq_getElem _ _ hc, List.set_getElem_self]
  · exact List.set_eq_of_length_le (by omega)

theorem moveSlot_outputEffect {s : State} {c : Nat} {x : List (Option Context)}
    (hx : x.getD c none = s.ctx.getD c none) (a : Word64) (bs : List Byte) :
    moveSlot c x (outputEffect s a bs) = outputEffect { s with ctx := x } a bs := by
  simp only [moveSlot, outputEffect, withSlots, ← hx, set_getD_self]

/-- RESET, UPDATE, DIGEST, SQUEEZE and RELEASE see one slot: on other slots that agree there, each has the same result, its
effect on the slot made there (R35). -/
theorem commandResult_moveSlot {s : State} {c : Nat} {i : Instr} {k : Context} {x : List (Option Context)}
    (hi : i ∈ [Instr.reset c, .update c, .digest c, .squeeze c, .release c]) (hk : slot s c = some k)
    (hx : x.getD c none = s.ctx.getD c none) :
    commandResult i { s with ctx := x } = (commandResult i s).map (moveSlot c x) := by
  have hk' : slot { s with ctx := x } c = some k := hx.trans hk
  have hset := moveSlot_slotEffect (slot_lt hk) x
  have hout := moveSlot_outputEffect hx
  simp only [List.mem_cons, List.not_mem_nil, or_false] at hi
  obtain rfl | rfl | rfl | rfl | rfl := hi
  · simp only [commandResult, resetResult, hk, hk', Except.map, hset]
  · simp only [commandResult, updateResult, hk, hk', apply_ite (Except.map _)]
    simp only [Except.map, hset]
    rfl
  · simp only [commandResult, digestResult, hk, hk', apply_ite (Except.map _)]
    simp only [Except.map, hout]
    rfl
  · simp only [commandResult, squeezeResult, hk, hk', apply_ite (Except.map _)]
    simp only [Except.map, hout]
    rfl
  · simp only [commandResult, releaseResult, hk, hk', Except.map, hset]

/-- ONESHOT and HMAC see no slot (R410, R415). -/
theorem commandResult_withSlots {alg : Alg} {i : Instr} (hi : i ∈ [Instr.oneshot alg, .hmac alg]) (s : State)
    (x : List (Option Context)) :
    commandResult i { s with ctx := x } = (commandResult i s).map (withSlots x) := by
  simp only [List.mem_cons, List.not_mem_nil, or_false] at hi
  obtain rfl | rfl := hi
  · simp only [commandResult, oneshotResult, apply_ite (Except.map _)]; rfl
  · simp only [commandResult, hmacResult, apply_ite (Except.map _)]; rfl

/-- What a commit leaves when its result is moved to other slots that agree in slot c. -/
theorem commit_moveSlot {s : State} {c : Nat} {x : List (Option Context)} (hc : c < x.length)
    (hx : x.getD c none = s.ctx.getD c none) (res : Except StatusCode Effect) :
    let t := commit s res
    let u := commit { s with ctx := x } (res.map (moveSlot c x))
    u.status = t.status ∧ u.mem = t.mem ∧ slot u c = slot t c ∧ ∀ j, j ≠ c → slot u j = x.getD j none := by
  cases res with
  | error code => exact ⟨rfl, rfl, hx, fun _ _ => rfl⟩
  | ok e =>
    refine ⟨rfl, landOutput_withCtx s x e.output, ?_, fun j hj => ?_⟩
    · exact (getD_set x c c _ none).trans (if_pos ⟨rfl, hc⟩)
    · exact (getD_set x c j _ none).trans (if_neg fun h => hj h.1.symm)

/-! ### The isolation obligations -/

/-- Settles O57: an empty slot fails alike, and a context makes the same effect wherever the other slots stand. -/
theorem slotIsolation : Obligations.SlotIsolation := by
  unfold Obligations.SlotIsolation
  refine fun s x => ⟨fun c i hi hlen hx => ⟨_, _, exec_eq i s, exec_eq i _, ?_⟩, fun alg i hi => ⟨_, exec_eq i s, ?_⟩⟩
  · cases hk : slot s c with
    | none =>
      have hk' : slot { s with ctx := x } c = none := hx.trans hk
      rw [commandResult_missing hi hk, commandResult_missing hi hk']
      exact ⟨rfl, rfl, hx, fun _ _ => rfl⟩
    | some k =>
      rw [commandResult_moveSlot hi hk hx]
      exact commit_moveSlot (hlen ▸ slot_lt hk) hx _
  · rw [exec_eq, commandResult_withSlots hi, commit_withSlots]

/-- Settles O58: the arguments are LATCH's, and the commit passes the argument registers by. -/
theorem latchIsolatesArguments : Obligations.LatchIsolatesArguments := by
  unfold Obligations.LatchIsolatesArguments
  intro i s r hl
  have hres : commandResult i { s with regs := r } = commandResult i s :=
    commandResult_congr i (commandArgs_withRegs hl r) rfl rfl rfl rfl rfl
  exact ⟨_, exec_eq i s, by rw [exec_eq, hres, commit_withRegs]⟩

end Sys2Proof.Proofs
end

section
/-! PROOF. Host memory as HOST and the commands see it: admission (spec 20_memory.md R81), the input bytes of a command (R83,
70_reset_and_hazards.md R495) and HOST's byte stores (R80, R87). -/

namespace Sys2Proof.Proofs

open Sys2Proof Sys2Proof.Machine Sys2Proof.Laws

/-! ### Input bytes -/

theorem mem_valuesAt {held : List Host.Cell} {a : Nat} {b : Byte} : b ∈ valuesAt held a ↔ (a, b) ∈ held := by
  simp [valuesAt]

theorem inputView_of_view_none {s : State} (h : s.view = none) : inputView s = ⟨s.mem, s.held⟩ := by simp [inputView, h]

/-- R495's set of values: an input byte is the view's byte or one of the values the view lists for the address. -/
theorem inputByte_mem (s : State) (a : Nat) :
    inputByte s a ∈ readByte (inputView s).mem a :: valuesAt (inputView s).held a := by
  unfold inputByte
  split
  · exact List.mem_cons_self
  · next v vs hv =>
    have hlt : Config.inputDraw s.draws a % (vs.length + 2) < (readByte (inputView s).mem a :: v :: vs).length :=
      Nat.mod_lt _ (Nat.succ_pos _)
    rw [hv, List.getD_eq_getElem _ _ hlt]
    exact List.getElem_mem _

theorem inputByte_of_not_held {s : State} {a : Nat} (hv : s.view = none) (h : ∀ v, (a, v) ∉ s.held) :
    inputByte s a = readByte s.mem a := by
  have hmem := inputByte_mem s a
  rw [inputView_of_view_none hv, List.mem_cons, mem_valuesAt] at hmem
  exact hmem.resolve_right (h _)

/-- Where the view's values are memory's or held ones, so is the input byte. -/
theorem inputByte_cases {s : State} {a : Nat}
    (h : ∀ b, b ∈ readByte (inputView s).mem a :: valuesAt (inputView s).held a → b ∈ readByte s.mem a :: heldValues s a) :
    inputByte s a = readByte s.mem a ∨ (a, inputByte s a) ∈ s.held := by
  have hmem := h _ (inputByte_mem s a)
  rwa [List.mem_cons, heldValues, mem_valuesAt] at hmem

theorem inputByte_cases_of_view_none {s : State} (hv : s.view = none) (a : Nat) :
    inputByte s a = readByte s.mem a ∨ (a, inputByte s a) ∈ s.held :=
  inputByte_cases fun b hb => by rwa [inputView_of_view_none hv] at hb

theorem inputByte_cases_of_inv {s : State} (h : s.Inv) (a : Nat) :
    inputByte s a = readByte s.mem a ∨ (a, inputByte s a) ∈ s.held := by
  cases hv : s.view with
  | none => exact inputByte_cases_of_view_none hv a
  | some v =>
    have hview : inputView s = v := by simp [inputView, hv]
    exact inputByte_cases fun b hb => h.viewHeld v hv a b (by rwa [hview] at hb)

theorem inputBytes_of_not_held {s : State} (hv : s.view = none) (hh : s.held = []) (a : Word64) (n : Nat) :
    inputBytes s a n = readBytes s.mem a.toNat n :=
  List.map_congr_left fun _ _ => inputByte_of_not_held hv fun _ => by simp [hh]

theorem hostStore_held {s : State} (h : s.latch ≠ none) (addr : Word64) (b : Byte) :
    (hostStore s addr b).held = (addr.toNat, readByte s.mem addr.toNat) :: s.held := by
  obtain ⟨l, hl⟩ := Option.ne_none_iff_exists'.mp h
  simp only [hostStore, hl]

/-! ### The memory obligations -/

/-- Settles O33: the two disjuncts of admission, read as propositions. -/
theorem rangeAdmission : Obligations.RangeAdmission := by
  unfold Obligations.RangeAdmission
  intro p a n
  unfold admitted
  rw [Bool.or_eq_true, Bool.and_eq_true, decide_eq_true_iff, decide_eq_true_iff]
  exact Iff.rfl

/-- Settles O37: the step is HOST's store, and memory reads back what was written. -/
theorem hostByteStore : Obligations.HostByteStore := by
  unfold Obligations.HostByteStore
  intro s addr b rest hm hs
  refine ⟨hostStore { s with agenda := rest } addr b, ?_, readByte_writeByte hm addr.toNat b, rfl, rfl, rfl, rfl, rfl⟩
  unfold step
  rw [hs]
  rfl

/-- Settles O39, clause by clause. -/
theorem racedInputBytes : Obligations.RacedInputBytes := by
  unfold Obligations.RacedInputBytes
  exact ⟨fun s a h => inputByte_cases_of_inv h a,
    fun s a hv => ⟨inputByte_cases_of_view_none hv a, inputByte_of_not_held hv⟩,
    fun s addr b hl => hostStore_held hl addr b,
    fun s a n hv hh => inputBytes_of_not_held hv hh a n⟩

end Sys2Proof.Proofs
end

section
/-! PROOF. The frames of the commands: what a commit leaves unchanged, the output range outside which memory stays, and the
one slot that a slot command changes (spec 20_memory.md R80, 46_streaming.md R363, R374). -/

namespace Sys2Proof.Proofs

open Sys2Proof Sys2Proof.Machine Sys2Proof.Laws

/-! ### What every commit leaves -/

section
variable (s : State) (res : Except StatusCode Effect)

@[simp] theorem commit_regs : (commit s res).regs = s.regs := by cases res <;> rfl
@[simp] theorem commit_irqEn : (commit s res).irqEn = s.irqEn := by cases res <;> rfl
@[simp] theorem commit_platform : (commit s res).platform = s.platform := by cases res <;> rfl
@[simp] theorem commit_agenda : (commit s res).agenda = s.agenda := by cases res <;> rfl
@[simp] theorem commit_readData : (commit s res).readData = s.readData := by cases res <;> rfl
@[simp] theorem commit_overrun : (commit s res).status.overrun = s.status.overrun := by cases res <;> rfl

end

/-! ### Memory outside the output range -/

/-- The size of a command's output range at DST_ADDR (R370, R371, R410, R415): 0 when it has none. -/
def outputLen (i : Instr) (s : State) : Nat :=
  match i with
  | .digest c => (slot s c).elim 0 fun k => outLen k.alg
  | .squeeze _ => (commandArgs s).dstLen.toNat
  | .oneshot alg => outLen alg
  | .hmac alg => outLen alg
  | .alloc _ => 0
  | .reset _ => 0
  | .update _ => 0
  | .copy _ => 0
  | .release _ => 0

/-- A successful output command's range is DST_ADDR's, of that size. -/
theorem outputOf_range {i : Instr} {s : State} {a : Word64} {n : Nat} {bs : List Byte} (h : OutputOf i s a n bs) :
    a = (commandArgs s).dstAddr ∧ n = outputLen i s := by
  cases h with
  | digest hi hk => subst hi; simp [outputLen, hk]
  | squeeze hi => subst hi; exact ⟨rfl, rfl⟩
  | oneshot hi => subst hi; exact ⟨rfl, rfl⟩
  | hmac hi => subst hi; exact ⟨rfl, rfl⟩

/-- No command changes a byte outside its output range (R80). -/
theorem readByte_commit_outside {i : Instr} {s : State} {x : Nat}
    (hx : x < (commandArgs s).dstAddr.toNat ∨ (commandArgs s).dstAddr.toNat + outputLen i s ≤ x) :
    readByte (commit s (commandResult i s)).mem x = readByte s.mem x := by
  obtain ⟨code, -, hr⟩ | ⟨ctx, r, -, hr⟩ | ⟨a, n, bs, ho, hr⟩ := commandResult_cases i s
  · rw [hr]; rfl
  · rw [hr]; rfl
  · obtain ⟨rfl, rfl⟩ := outputOf_range ho
    have hlen : bs.length ≤ outputLen i s := ho.bounds.1
    have hout : x < (commandArgs s).dstAddr.toNat ∨ (commandArgs s).dstAddr.toNat + bs.length ≤ x := by omega
    rw [hr]
    exact readByte_landBytes_outside s s.mem _ bs hout

/-- A command without an output range changes no byte. -/
theorem readByte_commit_of_outputLen_zero {i : Instr} {s : State} (h : outputLen i s = 0) (x : Nat) :
    readByte (commit s (commandResult i s)).mem x = readByte s.mem x := readByte_commit_outside (by omega)

/-! ### The slots and RESULT_CTX -/

/-- A command leaves the slots and RESULT_CTX, or is a slot command that succeeded. -/
theorem commit_slots (i : Instr) (s : State) :
    let t := commit s (commandResult i s)
    (t.ctx = s.ctx ∧ t.status.resultCtx = s.status.resultCtx) ∨ SlotsOf i s t.ctx t.status.resultCtx := by
  obtain ⟨code, -, hr⟩ | ⟨ctx, r, hs, hr⟩ | ⟨a, n, bs, -, hr⟩ := commandResult_cases i s
  · rw [hr]; exact .inl ⟨rfl, rfl⟩
  · rw [hr]; exact .inr hs
  · rw [hr]; exact .inl ⟨rfl, rfl⟩

/-- A successful slot command sets one slot: a free one that ALLOC and COPY fill, or the one that RESET, UPDATE and RELEASE
name, with RESULT_CTX as it was (R374). -/
theorem slotsOf_set {i : Instr} {s : State} {ctx : List (Option Context)} {r : BitVec 8} (h : SlotsOf i s ctx r) :
    ∃ n v, ctx = s.ctx.set n v ∧
      ((((∃ alg, i = .alloc alg) ∨ ∃ c, i = .copy c) ∧ slot s n = none) ∨
        (i ∈ [Instr.reset n, .update n, .release n] ∧ r = s.status.resultCtx)) := by
  have hfree {n : Nat} (hn : freeSlot s = some n) : slot s n = none := ((freeSlot_some_iff s n).1 hn).2.1
  cases h with
  | alloc hi hn => exact ⟨_, _, rfl, .inl ⟨.inl ⟨_, hi⟩, hfree hn⟩⟩
  | reset hi => exact ⟨_, _, rfl, .inr ⟨by simp [hi], rfl⟩⟩
  | update hi => exact ⟨_, _, rfl, .inr ⟨by simp [hi], rfl⟩⟩
  | copy hi _ hn => exact ⟨_, _, rfl, .inl ⟨.inr ⟨_, hi⟩, hfree hn⟩⟩
  | release hi => exact ⟨_, _, rfl, .inr ⟨by simp [hi], rfl⟩⟩

/-- Setting a slot leaves the others. -/
theorem slot_of_set_ne {s t : State} {n : Nat} {v : Option Context} (h : t.ctx = s.ctx.set n v) {j : Nat} (hj : j ≠ n) :
    slot t j = slot s j := (slot_of_set h j).trans (if_neg fun hn => hj hn.1.symm)

theorem commit_ctx_length (i : Instr) (s : State) : (commit s (commandResult i s)).ctx.length = s.ctx.length := by
  obtain ⟨hctx, -⟩ | hs := commit_slots i s
  · rw [hctx]
  · obtain ⟨n, v, hset, -⟩ := slotsOf_set hs
    rw [hset, List.length_set]

/-- DIGEST, SQUEEZE, ONESHOT and HMAC change no slot and not RESULT_CTX (R374). -/
theorem commit_slots_of_output {i : Instr} (s : State)
    (hi : (∃ c, i = .digest c) ∨ (∃ c, i = .squeeze c) ∨ (∃ alg, i = .oneshot alg) ∨ ∃ alg, i = .hmac alg) :
    (commit s (commandResult i s)).ctx = s.ctx ∧
    (commit s (commandResult i s)).status.resultCtx = s.status.resultCtx := by
  refine (commit_slots i s).resolve_right fun hs => ?_
  obtain ⟨c, rfl⟩ | ⟨c, rfl⟩ | ⟨alg, rfl⟩ | ⟨alg, rfl⟩ := hi <;> (obtain ⟨n, v, -, h⟩ := slotsOf_set hs; simp at h)

/-- RESET, UPDATE and RELEASE of c leave RESULT_CTX and every other slot. -/
theorem commit_named_slot {i : Instr} {c : Nat} (s : State) (hi : i ∈ [Instr.reset c, .update c, .release c]) :
    (commit s (commandResult i s)).status.resultCtx = s.status.resultCtx ∧
    ∀ j, j ≠ c → slot (commit s (commandResult i s)) j = slot s j := by
  obtain ⟨hctx, hr⟩ | hs := commit_slots i s
  · exact ⟨hr, fun j _ => slot_congr hctx j⟩
  · obtain ⟨n, v, hset, ⟨hnew, -⟩ | ⟨hn, hr⟩⟩ := slotsOf_set hs
    · obtain ⟨alg, rfl⟩ | ⟨d, rfl⟩ := hnew <;> simp at hi
    · have hcn : c = n := by
        simp only [List.mem_cons, List.not_mem_nil, or_false] at hi hn
        obtain rfl | rfl | rfl := hi <;> simpa using hn
      subst hcn
      exact ⟨hr, fun j hj => slot_of_set_ne hset hj⟩

/-- ALLOC and COPY change at most one slot, and one that held a context not at all. -/
theorem commit_new_slot {i : Instr} (s : State) (hi : (∃ alg, i = .alloc alg) ∨ ∃ c, i = .copy c) :
    ∃ n, (slot s n ≠ none → (commit s (commandResult i s)).ctx = s.ctx) ∧
      ∀ j, j ≠ n → slot (commit s (commandResult i s)) j = slot s j := by
  obtain ⟨hctx, -⟩ | hs := commit_slots i s
  · exact ⟨0, fun _ => hctx, fun j _ => slot_congr hctx j⟩
  · obtain ⟨n, v, hset, ⟨-, hfree⟩ | ⟨hn, -⟩⟩ := slotsOf_set hs
    · exact ⟨n, fun hheld => absurd hfree hheld, fun j hj => slot_of_set_ne hset hj⟩
    · obtain ⟨alg, rfl⟩ | ⟨d, rfl⟩ := hi <;> simp at hn

/-! ### The frame obligations -/

/-- Settles O34: the frame of a commit, no slot change, and memory outside the range of each command. -/
theorem outputCommandFrame : Obligations.OutputCommandFrame := by
  unfold Obligations.OutputCommandFrame
  intro i s t hi ht
  rw [exec_eq] at ht
  cases ht
  obtain ⟨hctx, hres⟩ := commit_slots_of_output s hi
  refine ⟨commit_regs s _, commit_irqEn s _, hctx, commit_platform s _, commit_agenda s _, commit_readData s _,
    commit_overrun s _, hres, ?digest, ?missing, ?squeeze, ?transient⟩
  case digest =>
    rintro c k rfl hk x hx
    exact readByte_commit_outside (by simpa [outputLen, hk] using hx)
  case missing =>
    rintro c rfl hk x
    exact readByte_commit_of_outputLen_zero (by simp [outputLen, hk]) x
  case squeeze =>
    rintro c rfl x hx
    exact readByte_commit_outside hx
  case transient =>
    rintro alg (rfl | rfl) x hx
    · exact readByte_commit_outside hx
    · exact readByte_commit_outside hx

/-- Settles O35: the frame of a commit, no output range, and the one slot set. -/
theorem slotCommandFrame : Obligations.SlotCommandFrame := by
  unfold Obligations.SlotCommandFrame
  intro i s t hi ht
  rw [exec_eq] at ht
  cases ht
  have hlen : outputLen i s = 0 := by
    simp only [List.mem_cons, List.not_mem_nil, or_false] at hi
    obtain ⟨alg, rfl⟩ | ⟨c, rfl | rfl | rfl | rfl⟩ := hi <;> rfl
  exact ⟨commit_regs s _, commit_irqEn s _, commit_platform s _, commit_agenda s _, commit_readData s _,
    commit_overrun s _, commit_ctx_length i s, readByte_commit_of_outputLen_zero hlen,
    fun c hc => commit_named_slot s hc, commit_new_slot s⟩

end Sys2Proof.Proofs
end

section
/-! PROOF. Every step keeps the machine's invariant: the ENGINE step by its outcomes, HOST's steps by operation, and device
reset (spec 20_memory.md R87, 46_streaming.md R361). -/

namespace Sys2Proof.Proofs

open Sys2Proof Sys2Proof.Machine Sys2Proof.Laws

/-- The inversion lemma of the ENGINE step (R361, R447). -/
theorem engineStep_cases {s t : State} (ht : engineStep s = .next t) :
    (s.latch = none ∧ t = s) ∨
    (∃ l e, s.latch = some l ∧ decode l.word = .error e ∧ t = complete s .illegalCommand) ∨
    (∃ l i, s.latch = some l ∧ decode l.word = .ok i ∧ t = commit s (commandResult i s)) := by
  unfold engineStep at ht
  split at ht
  · next hl => exact .inl ⟨hl, (Host.Outcome.next.inj ht).symm⟩
  · next l hl =>
    split at ht
    · next e he => exact .inr (.inl ⟨l, e, hl, he, (Host.Outcome.next.inj ht).symm⟩)
    · next i hi =>
      rw [exec_eq] at ht
      exact .inr (.inr ⟨l, i, hl, hi, (Host.Outcome.next.inj ht).symm⟩)

theorem engineStep_inv {s t : State} (h : s.Inv) (ht : engineStep s = .next t) : t.Inv := by
  obtain ⟨-, rfl⟩ | ⟨-, -, -, -, rfl⟩ | ⟨-, i, -, -, rfl⟩ := engineStep_cases ht
  · exact h
  · exact complete_inv h .illegalCommand
  · exact commit_inv h i

theorem answer_inv {s : State} (h : s.Inv) (v : Word64) : (answer s v).Inv := inv_congr h rfl rfl rfl rfl rfl rfl

theorem withAgenda_inv {s : State} (h : s.Inv) (rest : List Event) : ({ s with agenda := rest } : State).Inv :=
  inv_congr h rfl rfl rfl rfl rfl rfl

theorem hostStep_inv {s t : State} (h : s.Inv) (op : HostOp) (rest : List Event) (ht : hostStep op rest s = .next t) :
    t.Inv := by
  have hrest := withAgenda_inv h rest
  cases op with
  | regRead width offset => cases ht; exact answer_inv hrest _
  | regWrite width offset v => cases ht; exact writeReg_inv hrest width offset v
  | memRead addr => cases ht; exact hostLoad_inv hrest addr
  | memWrite addr b => cases ht; exact hostStore_inv hrest addr b
  | wait =>
    simp only [hostStep, hostWait] at ht
    split at ht
    · exact engineStep_inv h ht
    · cases ht; exact answer_inv hrest _
  | expect code =>
    simp only [hostStep, hostExpect] at ht
    split at ht
    · cases ht; exact answer_inv hrest _
    · cases ht

/-- Settles O44, by the entry of the agenda that the step takes. -/
theorem stepKeepsInvariant : Obligations.StepKeepsInvariant := by
  unfold Obligations.StepKeepsInvariant
  intro s t h ht
  unfold step at ht
  split at ht
  · exact engineStep_inv h ht
  · next rest _ => exact engineStep_inv (withAgenda_inv h rest) ht
  · next rest _ => cases ht; exact resetStep_inv (withAgenda_inv h rest)
  · next op rest _ => exact hostStep_inv h op rest ht

end Sys2Proof.Proofs
end

section
/-! PROOF. The command word (spec 30_encoding.md R111, R114, R117, R119): a word decodes to an instruction exactly
when its four fields are the instruction's. Round trips and row selection follow. -/

namespace Sys2Proof.Proofs

open Sys2Proof Sys2Proof.Machine Sys2Proof.Laws

/-! ### The fields of an instruction -/

/-- OPC of an instruction's row (R112). -/
def opcode (i : Instr) : Nat := (rowOf i).value.toNat

/-- What the ALG field of an instruction's word holds (R113): 0 where ALG is not used. -/
def algOperand : Instr → Nat
  | .alloc alg => algId alg
  | .oneshot alg => algId alg
  | .hmac alg => algId alg
  | .reset _ => 0
  | .update _ => 0
  | .digest _ => 0
  | .squeeze _ => 0
  | .copy _ => 0
  | .release _ => 0

/-- What the CTX field of an instruction's word holds (R118): 0 where CTX is not used. -/
def ctxOperand (i : Instr) : Nat := (namedSlot i).getD 0

/-- The instruction of the same row with these operands. -/
def withOperands (alg : Alg) (c : Nat) : Instr → Instr
  | .alloc _ => .alloc alg
  | .reset _ => .reset c
  | .update _ => .update c
  | .digest _ => .digest c
  | .squeeze _ => .squeeze c
  | .copy _ => .copy c
  | .release _ => .release c
  | .oneshot _ => .oneshot alg
  | .hmac _ => .hmac alg

theorem encode_eq_commandWord (i : Instr) : encode i = commandWord (opcode i) (algOperand i) (ctxOperand i) := by
  cases i <;> rfl

theorem ofNat_opcode (i : Instr) : BitVec.ofNat 32 (opcode i) = (rowOf i).value := by simp [opcode]

theorem opcode_lt (i : Instr) : opcode i < 256 := by cases i <;> simp [opcode, rowOf]

theorem algOperand_lt (i : Instr) : algOperand i < 256 := by
  have hid (alg : Alg) : algId alg < 256 := by have := algId_bounds alg; omega
  cases i <;> simp [algOperand, hid]

/-- Only CTX can be ill formed (R111, R118). -/
theorem wellFormed_iff (i : Instr) : i.wellFormed = true ↔ ctxOperand i ≤ 255 := by
  cases i <;> simp [Instr.wellFormed, ctxFits, ctxOperand, namedSlot]

/-- Each row uses ALG with CTX 0, or CTX with ALG 0; its mask says which (R112, R114). -/
theorem row_forms (i : Instr) :
    ((rowOf i).mask = 0xFFFF00FF ∧ ctxOperand i = 0 ∧ ∃ alg, algOperand i = algId alg) ∨
    ((rowOf i).mask = 0xFF00FFFF ∧ algOperand i = 0) := by
  cases i with
  | alloc alg => exact .inl ⟨rfl, rfl, alg, rfl⟩
  | oneshot alg => exact .inl ⟨rfl, rfl, alg, rfl⟩
  | hmac alg => exact .inl ⟨rfl, rfl, alg, rfl⟩
  | _ => exact .inr ⟨rfl, rfl⟩

section
variable (alg : Alg) (c : Nat) (i : Instr)

@[simp] theorem rowOf_withOperands : rowOf (withOperands alg c i) = rowOf i := by cases i <;> rfl

@[simp] theorem opcode_withOperands : opcode (withOperands alg c i) = opcode i := by simp [opcode]

theorem algOperand_withOperands (h : (rowOf i).mask = 0xFFFF00FF) :
    algOperand (withOperands alg c i) = algId alg ∧ ctxOperand (withOperands alg c i) = 0 := by
  cases i <;> simp_all [rowOf, algOperand, ctxOperand, withOperands, namedSlot]

theorem ctxOperand_withOperands (h : (rowOf i).mask = 0xFF00FFFF) :
    algOperand (withOperands alg c i) = 0 ∧ ctxOperand (withOperands alg c i) = c := by
  cases i <;> simp_all [rowOf, algOperand, ctxOperand, withOperands, namedSlot]

end

/-! ### Decoding by fields -/

/-- The fields of a word are those of an instruction: RSV 0, OPC the row's, ALG and CTX the operands (R111). -/
def HasFields (w : BitVec 32) (i : Instr) : Prop :=
  fieldRsv w = 0 ∧ fieldOpc w = opcode i ∧ fieldAlg w = algOperand i ∧ fieldCtx w = ctxOperand i

theorem hasFields_of_decode {w : BitVec 32} {i : Instr} (h : decode w = .ok i) : HasFields w i := by
  obtain ⟨hr, ⟨hc, alg, ha, hi⟩ | ⟨ha, hi⟩⟩ := decode_cases h
  · have hid := (algId_of_algOfId ha).symm
    obtain ⟨ho, rfl⟩ | ⟨ho, rfl⟩ | ⟨ho, rfl⟩ := hi <;> exact ⟨hr, ho, hid, hc⟩
  · obtain ⟨ho, rfl⟩ | ⟨ho, rfl⟩ | ⟨ho, rfl⟩ | ⟨ho, rfl⟩ | ⟨ho, rfl⟩ | ⟨ho, rfl⟩ := hi <;> exact ⟨hr, ho, ha, rfl⟩

theorem decode_of_hasFields {w : BitVec 32} {i : Instr} (h : HasFields w i) : decode w = .ok i := by
  obtain ⟨hr, ho, ha, hc⟩ := h
  have halg (make : Alg → Instr) {alg : Alg} (ha : fieldAlg w = algId alg) (hc : fieldCtx w = 0) :
      decodeAlgForm make w = .ok (make alg) :=
    decodeAlgForm_ok.2 ⟨hr, hc, alg, by rw [ha, algOfId_algId], rfl⟩
  have hctx (make : Nat → Instr) {c : Nat} (ha : fieldAlg w = 0) (hc : fieldCtx w = c) :
      decodeCtxForm make w = .ok (make c) :=
    decodeCtxForm_ok.2 ⟨hr, ha, congrArg make hc⟩
  unfold decode
  rw [ho]
  cases i with
  | alloc alg => exact halg _ ha hc
  | oneshot alg => exact halg _ ha hc
  | hmac alg => exact halg _ ha hc
  | _ => exact hctx _ ha hc

/-- R117 on a word's fields. -/
theorem decode_ok_iff {w : BitVec 32} {i : Instr} : decode w = .ok i ↔ HasFields w i :=
  ⟨hasFields_of_decode, decode_of_hasFields⟩

/-- The word of a well-formed instruction has the instruction's fields (R119). -/
theorem hasFields_encode {i : Instr} (h : i.wellFormed = true) : HasFields (encode i) i := by
  have hc := (wellFormed_iff i).1 h
  obtain ⟨ho, ha, hc, hr⟩ := fields_commandWord (opcode_lt i) (algOperand_lt i) (Nat.lt_succ_of_le hc)
  rw [encode_eq_commandWord]
  exact ⟨hr, ho, ha, hc⟩

/-- A word with an instruction's fields is the instruction's word (R119). -/
theorem encode_of_hasFields {w : BitVec 32} {i : Instr} (h : HasFields w i) : encode i = w := by
  obtain ⟨hr, ho, ha, hc⟩ := h
  rw [encode_eq_commandWord, ← ho, ← ha, ← hc, commandWord_fields hr]

theorem wellFormed_of_hasFields {w : BitVec 32} {i : Instr} (h : HasFields w i) : i.wellFormed = true := by
  obtain ⟨-, -, -, hc⟩ := h
  exact (wellFormed_iff i).2 (hc ▸ fieldCtx_le w)

/-! ### Row selection -/

section
variable {w : BitVec 32} {i : Instr}

/-- A row that uses ALG fixes RSV, CTX and OPC (R114). -/
theorem selects_alg_row (hm : (rowOf i).mask = 0xFFFF00FF) :
    w &&& (rowOf i).mask = (rowOf i).value ↔ fieldRsv w = 0 ∧ fieldCtx w = 0 ∧ fieldOpc w = opcode i := by
  rw [hm, ← ofNat_opcode, mask_alg (opcode_lt i)]

/-- A row that uses CTX fixes RSV, ALG and OPC (R114). -/
theorem selects_ctx_row (hm : (rowOf i).mask = 0xFF00FFFF) :
    w &&& (rowOf i).mask = (rowOf i).value ↔ fieldRsv w = 0 ∧ fieldAlg w = 0 ∧ fieldOpc w = opcode i := by
  rw [hm, ← ofNat_opcode, mask_ctx (opcode_lt i)]

theorem exists_algOfId {n : Nat} (h : 0x01 ≤ n ∧ n ≤ 0x0E) : ∃ alg, algOfId n = some alg := by
  refine Option.ne_none_iff_exists'.1 fun hn => ?_
  have := algOfId_eq_none.1 hn
  omega

/-- A word that decodes selects the row of its instruction, with a legal ALG where the row uses it. -/
theorem selects_of_decode (h : decode w = .ok i) :
    w &&& (rowOf i).mask = (rowOf i).value ∧
      ((rowOf i).mask = 0xFFFF00FF → 0x01 ≤ fieldAlg w ∧ fieldAlg w ≤ 0x0E) := by
  obtain ⟨hr, ho, ha, hc⟩ := decode_ok_iff.1 h
  obtain ⟨hm, hc0, alg, halg⟩ | ⟨hm, ha0⟩ := row_forms i
  · exact ⟨(selects_alg_row hm).2 ⟨hr, hc.trans hc0, ho⟩, fun _ => (ha.trans halg) ▸ algId_bounds alg⟩
  · exact ⟨(selects_ctx_row hm).2 ⟨hr, ha.trans ha0, ho⟩, fun hm' => absurd (hm.symm.trans hm') (by decide)⟩

/-- A word that selects a row, with a legal ALG where the row uses it, decodes to an instruction of the row. -/
theorem decode_of_selects (hs : w &&& (rowOf i).mask = (rowOf i).value)
    (hl : (rowOf i).mask = 0xFFFF00FF → 0x01 ≤ fieldAlg w ∧ fieldAlg w ≤ 0x0E) :
    ∃ j, decode w = .ok j ∧ rowOf j = rowOf i := by
  obtain ⟨hm, -⟩ | ⟨hm, -⟩ := row_forms i
  · obtain ⟨hr, hc, ho⟩ := (selects_alg_row hm).1 hs
    obtain ⟨alg, halg⟩ := exists_algOfId (hl hm)
    obtain ⟨ha', hc'⟩ := algOperand_withOperands alg 0 i hm
    exact ⟨withOperands alg 0 i, decode_ok_iff.2 ⟨hr, ho.trans (opcode_withOperands alg 0 i).symm,
      (algId_of_algOfId halg).symm.trans ha'.symm, hc.trans hc'.symm⟩, rowOf_withOperands alg 0 i⟩
  · obtain ⟨hr, ha, ho⟩ := (selects_ctx_row hm).1 hs
    obtain ⟨ha', hc'⟩ := ctxOperand_withOperands .md5 (fieldCtx w) i hm
    exact ⟨withOperands .md5 (fieldCtx w) i, decode_ok_iff.2 ⟨hr, ho.trans (opcode_withOperands _ _ i).symm,
      ha.trans ha'.symm, hc'.symm⟩, rowOf_withOperands _ _ i⟩

end

/-! ### The encoding obligations -/

/-- Settles O1: the word has the instruction's fields, and they decode to it. -/
theorem decodeOfEncodeReturnsInstruction : Obligations.DecodeOfEncodeReturnsInstruction := by
  unfold Obligations.DecodeOfEncodeReturnsInstruction
  exact fun i h => decode_ok_iff.2 (hasFields_encode h)

/-- Settles O2: the word's fields are the instruction's, and CTX has eight bits. -/
theorem encodeOfDecodeReturnsWord : Obligations.EncodeOfDecodeReturnsWord := by
  unfold Obligations.EncodeOfDecodeReturnsWord
  intro w i h
  have hf := decode_ok_iff.1 h
  exact ⟨encode_of_hasFields hf, wellFormed_of_hasFields hf⟩

/-- Settles O4: forward by the fields of the decoded instruction, back by taking the operands from the word. -/
theorem tableRowSelection : Obligations.TableRowSelection := by
  unfold Obligations.TableRowSelection
  intro w i
  constructor
  · rintro ⟨j, hj, hrow⟩
    exact hrow ▸ selects_of_decode hj
  · exact fun ⟨hs, hl⟩ => decode_of_selects hs hl

/-- Settles O5: the nine words evaluated. -/
theorem specWordsDecode : Obligations.SpecWordsDecode := by
  unfold Obligations.SpecWordsDecode
  decide

end Sys2Proof.Proofs
end

section
/-! PROOF. The arguments a command ignores (spec 30_encoding.md R115): its result is that of the record with the unused
registers cleared, and the commit does not read the record. -/

namespace Sys2Proof.Proofs

open Sys2Proof Sys2Proof.Machine Sys2Proof.Laws

/-- The argument registers the instruction uses, the others 0 (R115). -/
def usedArgs (a : ArgRegs) : Instr → ArgRegs
  | .alloc _ => ArgRegs.zero
  | .reset _ => ArgRegs.zero
  | .copy _ => ArgRegs.zero
  | .release _ => ArgRegs.zero
  | .update _ => { ArgRegs.zero with srcAddr := a.srcAddr, srcLen := a.srcLen }
  | .digest _ => { ArgRegs.zero with dstAddr := a.dstAddr }
  | .squeeze _ => { ArgRegs.zero with dstAddr := a.dstAddr, dstLen := a.dstLen }
  | .oneshot _ => { ArgRegs.zero with srcAddr := a.srcAddr, srcLen := a.srcLen, dstAddr := a.dstAddr }
  | .hmac _ => { a with dstLen := 0 }

/-- No command's result depends on a register it does not use (R115). -/
theorem commandResult_usedArgs (i : Instr) (s : State) (w : BitVec 32) (a : ArgRegs) :
    commandResult i { s with latch := some ⟨w, a⟩ } = commandResult i { s with latch := some ⟨w, usedArgs a i⟩ } := by
  cases i <;> rfl

/-- A commit does not read LATCH. -/
theorem commit_withLatch (s : State) (l m : Option Latch) (res : Except StatusCode Effect) :
    commit { s with latch := l } res = commit { s with latch := m } res := by
  cases res with
  | error code => rfl
  | ok e =>
    have hland : landOutput { s with latch := l } e.output = landOutput { s with latch := m } e.output :=
      landOutput_congr (s := { s with latch := m }) (t := { s with latch := l }) rfl rfl rfl _
    simp only [commit, complete, hland]

/-- Records that agree on the used registers give the same step. -/
theorem exec_of_usedArgs_eq {i : Instr} {a b : ArgRegs} (h : usedArgs a i = usedArgs b i) (s : State) (w : BitVec 32) :
    exec i { s with latch := some ⟨w, a⟩ } = exec i { s with latch := some ⟨w, b⟩ } := by
  have hres : commandResult i { s with latch := some ⟨w, a⟩ } = commandResult i { s with latch := some ⟨w, b⟩ } := by
    rw [commandResult_usedArgs i s w a, h, ← commandResult_usedArgs i s w b]
  rw [exec_eq, exec_eq, hres, commit_withLatch]

/-- Settles O59: the registers listed for a command are those it uses. -/
theorem unusedArgumentsIgnored : Obligations.UnusedArgumentsIgnored := by
  unfold Obligations.UnusedArgumentsIgnored
  intro i s w a b h
  have hused : usedArgs a i = usedArgs b i := by
    cases i <;> simp only [usedArgs] <;> simp only [h]
  exact exec_of_usedArgs_eq hused s w

end Sys2Proof.Proofs
end

section
/-! PROOF. The step functions of MD5 (spec 40_md5.md R152 to R155, R159), SHA-1 (spec 41_sha1.md R183) and SHA-2 (spec
42_sha2.md R205, R206) bit by bit. Three shapes cover all but MD5's I: the choice `shaCh`, the majority `shaMaj` and the
parity of three words; each is read at a bit once. -/

namespace Sys2Proof.Proofs

open Sys2Proof Sys2Proof.Machine

section
variable {w i : Nat}

/-- Each bit of `shaCh` is chosen by the bit of its first operand. -/
theorem shaCh_getLsbD (x y z : BitVec w) (hi : i < w) :
    (shaCh x y z).getLsbD i = if x.getLsbD i then y.getLsbD i else z.getLsbD i := by
  simp only [shaCh, BitVec.getLsbD_xor, BitVec.getLsbD_and, BitVec.getLsbD_not, hi]
  cases x.getLsbD i <;> simp

/-- Where two operands agree they are the majority, and otherwise the third decides. -/
theorem shaMaj_getLsbD (x y z : BitVec w) :
    (shaMaj x y z).getLsbD i = if x.getLsbD i = y.getLsbD i then x.getLsbD i else z.getLsbD i := by
  simp only [shaMaj, BitVec.getLsbD_xor, BitVec.getLsbD_and]
  cases x.getLsbD i <;> cases y.getLsbD i <;> simp

theorem parity_getLsbD (x y z : BitVec w) :
    (x ^^^ y ^^^ z).getLsbD i = (x.getLsbD i != (y.getLsbD i != z.getLsbD i)) := by
  simp only [BitVec.getLsbD_xor, Bool.bne_assoc]

end

section
variable (x y z : Word32)

/-- MD5's F (R152) is the choice: its two halves never share a bit, so `or` and `xor` agree on them. -/
theorem md5F_eq_shaCh : md5F x y z = shaCh x y z := by
  apply BitVec.eq_of_getLsbD_eq
  intro i hi
  rw [shaCh_getLsbD x y z hi]
  simp only [md5F, BitVec.getLsbD_or, BitVec.getLsbD_and, BitVec.getLsbD_not, hi]
  cases x.getLsbD i <;> simp

/-- MD5's G (R153) is F with its operands turned: z chooses. -/
theorem md5G_eq_md5F : md5G x y z = md5F z x y := by
  simp only [md5G, md5F, BitVec.and_comm]

theorem md5I_getLsbD {i : Nat} (hi : i < 32) :
    (md5I x y z).getLsbD i = (y.getLsbD i != (x.getLsbD i || !z.getLsbD i)) := by
  simp [md5I, hi]

/-- The word of 32 ones, as the library's lemmas name it. -/
theorem word32_ones_eq_allOnes : (0xFFFFFFFF : Word32) = BitVec.allOnes 32 := rfl

theorem md5F_allOnes : md5F 0xFFFFFFFF y z = y := by
  rw [word32_ones_eq_allOnes, md5F, BitVec.allOnes_and, BitVec.not_allOnes, BitVec.zero_and, BitVec.or_zero]

theorem md5F_zero : md5F 0 y z = z := by
  rw [md5F, BitVec.ofNat_eq_ofNat, BitVec.zero_and, BitVec.not_zero, BitVec.allOnes_and, BitVec.zero_or]

theorem md5H_self : md5H x x z = z := by
  simp [md5H]

/-- Against the complement of 0, I's `or` is all ones and its `xor` the complement (R155). -/
theorem md5I_zero : md5I x y 0 = ~~~y := by
  rw [md5I, BitVec.ofNat_eq_ofNat, BitVec.not_zero, BitVec.or_allOnes, BitVec.xor_allOnes]

end

section
variable {t : Nat}

theorem md5Fun_round1 (h : t ≤ 15) : md5Fun t = md5F := if_pos h

theorem md5Fun_round2 (hlo : 16 ≤ t) (hhi : t ≤ 31) : md5Fun t = md5G := by
  rw [md5Fun, if_neg (by omega), if_pos hhi]

theorem md5Fun_round3 (hlo : 32 ≤ t) (hhi : t ≤ 47) : md5Fun t = md5H := by
  rw [md5Fun, if_neg (by omega), if_neg (by omega), if_pos hhi]

theorem md5Fun_round4 (hlo : 48 ≤ t) : md5Fun t = md5I := by
  rw [md5Fun, if_neg (by omega), if_neg (by omega), if_neg (by omega)]

variable (b c d : Word32)

theorem sha1Fun_choice (h : t ≤ 19) : sha1Fun t b c d = shaCh b c d := if_pos h

/-- SHA-1 uses the parity in two ranges of steps (R183). -/
theorem sha1Fun_parity (h : (20 ≤ t ∧ t ≤ 39) ∨ (60 ≤ t ∧ t ≤ 79)) : sha1Fun t b c d = b ^^^ c ^^^ d := by
  obtain ⟨hlo, hhi⟩ | ⟨hlo, -⟩ := h
  · rw [sha1Fun, if_neg (by omega), if_pos hhi]
  · rw [sha1Fun, if_neg (by omega), if_neg (by omega), if_neg (by omega)]

theorem sha1Fun_majority (hlo : 40 ≤ t) (hhi : t ≤ 59) : sha1Fun t b c d = shaMaj b c d := by
  rw [sha1Fun, if_neg (by omega), if_neg (by omega), if_pos hhi, shaMaj]

end

section
variable {t i : Nat}

/-- MD5's function of step t (R159) at a bit, in its four rounds. -/
theorem md5Fun_getLsbD (x y z : Word32) (hi : i < 32) :
    (t ≤ 15 → (md5Fun t x y z).getLsbD i = if x.getLsbD i then y.getLsbD i else z.getLsbD i) ∧
    (16 ≤ t → t ≤ 31 → (md5Fun t x y z).getLsbD i = if z.getLsbD i then x.getLsbD i else y.getLsbD i) ∧
    (32 ≤ t → t ≤ 47 → (md5Fun t x y z).getLsbD i = (x.getLsbD i != (y.getLsbD i != z.getLsbD i))) ∧
    (48 ≤ t → t ≤ 63 → (md5Fun t x y z).getLsbD i = (y.getLsbD i != (x.getLsbD i || !z.getLsbD i))) := by
  refine ⟨fun h => ?_, fun hlo hhi => ?_, fun hlo hhi => ?_, fun hlo _ => ?_⟩
  · rw [md5Fun_round1 h, md5F_eq_shaCh, shaCh_getLsbD x y z hi]
  · rw [md5Fun_round2 hlo hhi, md5G_eq_md5F, md5F_eq_shaCh, shaCh_getLsbD z x y hi]
  · rw [md5Fun_round3 hlo hhi, md5H, parity_getLsbD]
  · rw [md5Fun_round4 hlo, md5I_getLsbD x y z hi]

/-- SHA-1's f_t (R183) at a bit, in its ranges of steps. -/
theorem sha1Fun_getLsbD (b c d : Word32) (hi : i < 32) :
    (t ≤ 19 → (sha1Fun t b c d).getLsbD i = if b.getLsbD i then c.getLsbD i else d.getLsbD i) ∧
    ((20 ≤ t ∧ t ≤ 39) ∨ (60 ≤ t ∧ t ≤ 79) →
      (sha1Fun t b c d).getLsbD i = (b.getLsbD i != (c.getLsbD i != d.getLsbD i))) ∧
    (40 ≤ t → t ≤ 59 →
      (sha1Fun t b c d).getLsbD i = if b.getLsbD i = c.getLsbD i then b.getLsbD i else d.getLsbD i) := by
  refine ⟨fun h => ?_, fun h => ?_, fun hlo hhi => ?_⟩
  · rw [sha1Fun_choice b c d h, shaCh_getLsbD b c d hi]
  · rw [sha1Fun_parity b c d h, parity_getLsbD]
  · rw [sha1Fun_majority b c d hlo hhi, shaMaj_getLsbD]

end

/-- Settles O51: each step function is, in its range, one of the shapes read bit by bit above. -/
theorem roundFunctionsBitwise : Obligations.RoundFunctionsBitwise := by
  unfold Obligations.RoundFunctionsBitwise
  refine ⟨fun x y z t i hi => md5Fun_getLsbD x y z hi, fun x y z => ?corners,
    fun b c d t i hi => sha1Fun_getLsbD b c d hi,
    fun w x y z i hi => ⟨shaCh_getLsbD x y z hi, shaMaj_getLsbD x y z⟩⟩
  case corners =>
    exact ⟨md5F_allOnes y z, md5F_zero y z, (md5G_eq_md5F x y _).trans (md5F_allOnes x y),
      (md5G_eq_md5F x y _).trans (md5F_zero x y), md5H_self x z, md5I_zero x y⟩

end Sys2Proof.Proofs
end

section
/-! PROOF. The message schedules of SHA-1 (spec 41_sha1.md R181, R182) and SHA-2 (spec 42_sha2.md R204 to R206, R209).
Both start from the sixteen words of the block and append one word after another. A word, once written, keeps its value,
and a rule that only reads words before its own gives the same word on the finished schedule as when it was written. -/

namespace Sys2Proof.Proofs

open Sys2Proof Sys2Proof.Machine

/-- The words of a block, then n more: word t is `next W t`, where W reads the words so far. -/
def schedule {w : Nat} (next : (Nat → BitVec w) → Nat → BitVec w) (m : List Byte) (n : Nat) : List (BitVec w) :=
  (List.range' 16 n).foldl (fun ws t => ws ++ [next (wordAt ws) t]) ((List.range 16).map (beWord w m))

/-- From word 16 on, the rule reads only words before the one it gives. -/
def ReadsEarlier {w : Nat} (next : (Nat → BitVec w) → Nat → BitVec w) : Prop :=
  ∀ (W V : Nat → BitVec w) (t : Nat), 16 ≤ t → (∀ i < t, W i = V i) → next W t = next V t

/-- Word t of SHA-1's schedule from the words before it (R182). -/
def sha1Next (W : Nat → Word32) (t : Nat) : Word32 :=
  rotl (W (t - 3) ^^^ W (t - 8) ^^^ W (t - 14) ^^^ W (t - 16)) 1

/-- Word t of SHA-2's schedule from the words before it (R209). -/
def sha2Next {w : Nat} (p : Sha2Family w) (W : Nat → BitVec w) (t : Nat) : BitVec w :=
  sha2SmallSigma1 p (W (t - 2)) + W (t - 7) + sha2SmallSigma0 p (W (t - 15)) + W (t - 16)

theorem sha1Schedule_eq (m : List Byte) : sha1Schedule m = schedule sha1Next m 64 := rfl

theorem sha2Schedule_eq {w : Nat} (p : Sha2Family w) (m : List Byte) :
    sha2Schedule p m = schedule (sha2Next p) m (p.steps - 16) := rfl

theorem sha1Next_readsEarlier : ReadsEarlier sha1Next := by
  intro W V t ht hread
  have hback (d : Nat) (hd : 0 < d) : W (t - d) = V (t - d) := hread _ (by omega)
  simp only [sha1Next, hback, Nat.ofNat_pos]

theorem sha2Next_readsEarlier {w : Nat} (p : Sha2Family w) : ReadsEarlier (sha2Next p) := by
  intro W V t ht hread
  have hback (d : Nat) (hd : 0 < d) : W (t - d) = V (t - d) := hread _ (by omega)
  simp only [sha2Next, hback, Nat.ofNat_pos]

theorem wordAt_append_of_lt {w i : Nat} {ws : List (BitVec w)} (h : i < ws.length) (vs : List (BitVec w)) :
    wordAt (ws ++ vs) i = wordAt ws i :=
  List.getD_append _ _ _ _ h

theorem wordAt_concat_of_length_eq {w i : Nat} {ws : List (BitVec w)} (h : ws.length = i) (v : BitVec w) :
    wordAt (ws ++ [v]) i = v := by
  simp [wordAt, ← h]

section
variable {w : Nat} (next : (Nat → BitVec w) → Nat → BitVec w) (m : List Byte)

theorem schedule_succ (n : Nat) :
    schedule next m (n + 1) = schedule next m n ++ [next (wordAt (schedule next m n)) (16 + n)] := by
  simp [schedule, List.range'_concat]

@[simp] theorem schedule_length (n : Nat) : (schedule next m n).length = 16 + n := by
  induction n with
  | zero => rfl
  | succ n ih => rw [schedule_succ, List.length_append, ih, List.length_singleton, Nat.add_assoc]

/-- Appending further words changes no word already there. -/
theorem wordAt_schedule_of_le {i k n : Nat} (hi : i < 16 + k) (hk : k ≤ n) :
    wordAt (schedule next m n) i = wordAt (schedule next m k) i := by
  induction n, hk using Nat.le_induction with
  | base => rfl
  | succ n hn ih => rw [schedule_succ, wordAt_append_of_lt (by rw [schedule_length]; omega), ih]

/-- The first sixteen words are the block's (R181, R204). -/
theorem wordAt_schedule_block {t : Nat} (n : Nat) (ht : t < 16) : wordAt (schedule next m n) t = beWord w m t := by
  rw [wordAt_schedule_of_le next m (k := 0) ht (Nat.zero_le n)]
  simp [schedule, wordAt, ht]

/-- A later word satisfies its rule on the finished schedule (R182, R209). -/
theorem wordAt_schedule_next {t n : Nat} (hnext : ReadsEarlier next) (hlo : 16 ≤ t) (hhi : t < 16 + n) :
    wordAt (schedule next m n) t = next (wordAt (schedule next m n)) t := by
  obtain ⟨k, rfl⟩ := Nat.exists_eq_add_of_le hlo
  calc wordAt (schedule next m n) (16 + k)
      = wordAt (schedule next m (k + 1)) (16 + k) := wordAt_schedule_of_le next m (by omega) (by omega)
    _ = next (wordAt (schedule next m k)) (16 + k) := by
        rw [schedule_succ, wordAt_concat_of_length_eq (schedule_length next m k)]
    _ = next (wordAt (schedule next m n)) (16 + k) :=
        hnext _ _ _ hlo fun i hi => (wordAt_schedule_of_le next m hi (by omega)).symm

end

/-- Settles O52: each schedule is the general one under its own rule, whose σ unfold to the rotations and shifts. -/
theorem messageSchedules : Obligations.MessageSchedules := by
  unfold Obligations.MessageSchedules
  intro m t
  refine ⟨?sha1, ?sha256, ?sha512⟩
  case sha1 =>
    rw [sha1Schedule_eq]
    exact ⟨wordAt_schedule_block _ m _,
      fun hlo hhi => wordAt_schedule_next _ m sha1Next_readsEarlier hlo (Nat.lt_succ_of_le hhi)⟩
  case sha256 =>
    rw [sha2Schedule_eq]
    exact ⟨wordAt_schedule_block _ m _,
      fun hlo hhi => wordAt_schedule_next _ m (sha2Next_readsEarlier sha256Family) hlo (Nat.lt_succ_of_le hhi)⟩
  case sha512 =>
    rw [sha2Schedule_eq]
    exact ⟨wordAt_schedule_block _ m _,
      fun hlo hhi => wordAt_schedule_next _ m (sha2Next_readsEarlier sha512Family) hlo (Nat.lt_succ_of_le hhi)⟩

end Sys2Proof.Proofs
end

section
/-! PROOF. The two forms of Keccak's π (spec 43_keccak.md R243). The model's π reads lane (x + 3y mod 5, x) into
lane (x, y); the other form sends lane (x, y) to lane (y, 2x + 3y mod 5). They agree because the read undoes the move:
y + 3 (2x + 3y) = 6x + 10y is x modulo 5. -/

namespace Sys2Proof.Proofs

open Sys2Proof Sys2Proof.Machine

section
variable {x y : Nat}

/-- Where x and y are lane coordinates, lane x + 5y of the lanes given by f is f x y (R240). -/
theorem lane_keccakLanes (f : Nat → Nat → Word64) (hx : x < 5) (hy : y < 5) : lane (keccakLanes f) x y = f x y := by
  have hi : x + 5 * y < 25 := by omega
  have hcol : (x + 5 * y) % 5 = x := by omega
  have hrow : (x + 5 * y) / 5 = y := by omega
  simp [lane, keccakLanes, wordAt, hi, hcol, hrow]

theorem lane_keccakPi (a : List Word64) (hx : x < 5) (hy : y < 5) :
    lane (keccakPi a) x y = lane a ((x + 3 * y) % 5) x :=
  lane_keccakLanes _ hx hy

/-- The column that π reads for the lane to which the other form of R243 sends column x. -/
theorem keccakPi_source_of_target (y : Nat) (hx : x < 5) : (y + 3 * ((2 * x + 3 * y) % 5)) % 5 = x := by
  omega

theorem lane_keccakPi_target (a : List Word64) (hx : x < 5) (hy : y < 5) :
    lane (keccakPi a) y ((2 * x + 3 * y) % 5) = lane a x y := by
  rw [lane_keccakPi a hy (Nat.mod_lt _ (by decide)), keccakPi_source_of_target y hx]

end

/-- Settles O55: the second form is the model's own π read at a lane, and the first form follows because that read undoes
the move; lane 0 is the second form at x = y = 0. -/
theorem keccakPiForms : Obligations.KeccakPiForms := by
  unfold Obligations.KeccakPiForms
  intro a
  exact ⟨fun _ _ => lane_keccakPi_target a, fun _ _ => lane_keccakPi a,
    lane_keccakPi a (x := 0) (y := 0) (by decide) (by decide)⟩

end Sys2Proof.Proofs
end

section
/-! PROOF. The padded tail of a Merkle–Damgård message (spec 45_padding.md R320 to R322). It is three parts in a row, the
pending bytes with 0x80, zeros, and the length field; where they fit, it fills its blocks exactly and the field ends it. -/

namespace Sys2Proof.Proofs

open Sys2Proof Sys2Proof.Machine Sys2Proof.Laws

/-- The families padded as Merkle–Damgård messages (R320, R321). -/
def IsMd (alg : Alg) : Prop :=
  algFamily alg = .md5 ∨ algFamily alg = .sha1 ∨ algFamily alg = .sha256 ∨ algFamily alg = .sha512

section
variable {alg : Alg}

/-- Block size and MAXLEN of the two kinds of Merkle–Damgård family: 128-byte blocks for SHA-512's, 64-byte ones for the
others (R113). -/
theorem IsMd.descriptor (h : IsMd alg) :
    blockLen alg = (if algFamily alg = .sha512 then 128 else 64) ∧
    maxLen alg = (if algFamily alg = .sha512 then 2 ^ 64 - 1 else 2 ^ 61 - 1) := by
  obtain h | h | h | h := h <;> cases alg <;> simp_all [algFamily, blockLen, maxLen]

theorem IsMd.lengthField_fits_block (h : IsMd alg) : 1 + lengthFieldLen alg ≤ blockLen alg := by
  rw [h.descriptor.1, lengthFieldLen]
  split <;> decide

theorem IsMd.mdBlockCount_eq (h : IsMd alg) (p : Nat) :
    mdBlockCount (blockLen alg) (lengthFieldLen alg) p =
      if p ≤ (if algFamily alg = .sha512 then 111 else 55) then 1 else 2 := by
  rw [mdBlockCount, h.descriptor.1, lengthFieldLen]
  split <;> rfl

/-- The bit length of a message within MAXLEN fits the length field (R322). -/
theorem IsMd.bitLength_lt (h : IsMd alg) {total : Nat} (ht : total ≤ maxLen alg) :
    8 * total < 256 ^ lengthFieldLen alg := by
  rw [h.descriptor.2] at ht
  rw [lengthFieldLen]
  split at ht
  · next hs => rw [if_pos hs]; omega
  · next hs => rw [if_neg hs]; omega

end

/-- Pending bytes, 0x80 and the length field fit the blocks that padding takes: one if they fit one, and two blocks hold less
than a block and a length field. -/
theorem mdBlockCount_room {b lf p : Nat} (hlf : 1 + lf ≤ b) (hp : p < b) : p + 1 + lf ≤ b * mdBlockCount b lf p := by
  unfold mdBlockCount
  split <;> omega

@[simp] theorem lengthField_length (alg : Alg) (total : Nat) : (lengthField alg total).length = lengthFieldLen alg := by
  unfold lengthField
  split <;> simp

theorem leNat_lengthField {alg : Alg} {total : Nat} (hfit : 8 * total < 256 ^ lengthFieldLen alg)
    (h : algFamily alg = .md5) : leNat (lengthField alg total) = 8 * total := by
  rw [lengthField, if_pos h, leNat_toLE, Nat.mod_eq_of_lt hfit]

theorem beNat_lengthField {alg : Alg} {total : Nat} (hfit : 8 * total < 256 ^ lengthFieldLen alg)
    (h : algFamily alg ≠ .md5) : beNat (lengthField alg total) = 8 * total := by
  rw [lengthField, if_neg h, beNat_toBE, Nat.mod_eq_of_lt hfit]

section
variable {k : Context}

/-- The length of the blocks that padding takes. -/
def mdPaddedLen (k : Context) : Nat :=
  mdBlockCount (blockLen k.alg) (lengthFieldLen k.alg) k.buf.length * blockLen k.alg

theorem mdTail_eq (k : Context) :
    mdTail k = (k.buf ++ [0x80]) ++
      (zeros (mdPaddedLen k - k.buf.length - 1 - lengthFieldLen k.alg) ++ lengthField k.alg k.totalLen.toNat) := by
  simp [mdTail, mdPaddedLen, Nat.mul_comm]

theorem mdTail_take (k : Context) : (mdTail k).take (k.buf.length + 1) = k.buf ++ [0x80] := by
  rw [mdTail_eq, List.take_left' (by simp)]

variable (hroom : k.buf.length + 1 + lengthFieldLen k.alg ≤ mdPaddedLen k)
include hroom

theorem mdTail_length : (mdTail k).length = mdPaddedLen k := by
  simp [mdTail_eq]
  omega

theorem mdTail_drop : (mdTail k).drop (mdPaddedLen k - lengthFieldLen k.alg) = lengthField k.alg k.totalLen.toNat := by
  rw [mdTail_eq, ← List.append_assoc, List.drop_left']
  simp
  omega

theorem mdTail_getElem?_zero {j : Nat} (hlo : k.buf.length < j) (hhi : j < mdPaddedLen k - lengthFieldLen k.alg) :
    (mdTail k)[j]? = some 0x00 := by
  rw [mdTail_eq, List.getElem?_append_right (by simpa using hlo), List.length_append, List.length_singleton,
    List.getElem?_append_left (by rw [zeros_length]; omega), zeros, List.getElem?_replicate_of_lt (by omega)]

end

/-- Settles O53: the three parts of the tail, on the blocks counted by the model, and the bit length that fits its field. -/
theorem mdPaddingShape : Obligations.MdPaddingShape := by
  unfold Obligations.MdPaddingShape
  intro k (hmd : IsMd k.alg) hp ht
  have hroom : k.buf.length + 1 + lengthFieldLen k.alg ≤ mdPaddedLen k := by
    rw [mdPaddedLen, Nat.mul_comm]
    exact mdBlockCount_room hmd.lengthField_fits_block hp
  have hfit := hmd.bitLength_lt ht
  dsimp only
  rw [← hmd.mdBlockCount_eq, ← lengthFieldLen, ← mdPaddedLen, mdTail_drop hroom]
  exact ⟨mdTail_length hroom, mdTail_take k, fun j => mdTail_getElem?_zero hroom, leNat_lengthField hfit,
    beNat_lengthField hfit⟩

end Sys2Proof.Proofs
end

section
/-! PROOF. The sponge's padded block (spec 45_padding.md R324, R325): zero-filled pending bytes, into which two bytes are
xored one after the other. Each xor is read by one lemma that holds at every byte, so that suffix and closing bit may share
theirs. -/

namespace Sys2Proof.Proofs

open Sys2Proof Sys2Proof.Machine Sys2Proof.Laws

/-- Xoring x into byte i of a string xors it into that byte only. -/
theorem getElem?_set_xor (s : List Byte) (i j : Nat) (x : Byte) :
    (s.set i (s.getD i 0 ^^^ x))[j]? = s[j]?.map (· ^^^ if j = i then x else 0) := by
  by_cases h : j = i
  · subst h
    by_cases hj : j < s.length <;> simp [hj]
  · simp [h, List.getElem?_set_ne (Ne.symm h)]

theorem getElem?_append_zeros (s : List Byte) {n j : Nat} (h : j < n) :
    (s ++ zeros (n - s.length))[j]? = some (s.getD j 0) := by
  by_cases hj : j < s.length
  · rw [List.getElem?_append_left hj]
    simp [hj]
  · rw [List.getElem?_append_right (by omega), zeros, List.getElem?_replicate_of_lt (by omega)]
    simp [hj]

theorem spongeBlock_length {k : Context} (h : k.buf.length ≤ blockLen k.alg) : (spongeBlock k).length = blockLen k.alg := by
  simp [spongeBlock, h]

theorem spongeBlock_getElem? (k : Context) {j : Nat} (h : j < blockLen k.alg) :
    (spongeBlock k)[j]? = some (k.buf.getD j 0 ^^^ (if j = k.buf.length then spongeSuffix k.alg else 0) ^^^
      (if j = blockLen k.alg - 1 then 0x80 else 0)) := by
  simp only [spongeBlock]
  rw [getElem?_set_xor, getElem?_set_xor, getElem?_append_zeros _ h, Option.map_some, Option.map_some]

/-- Settles O54: the block read at a byte, with the suffix written out (R325). -/
theorem spongePaddingBlock : Obligations.SpongePaddingBlock := by
  unfold Obligations.SpongePaddingBlock
  intro k _ hp
  exact ⟨spongeBlock_length hp.le, fun j => spongeBlock_getElem? k⟩

end Sys2Proof.Proofs
end

section
/-! PROOF. The command life cycle (spec 46_streaming.md R360 to R363): acceptance, whose turn a step is, completion, and that
an accepted command ends. -/

namespace Sys2Proof.Proofs

open Sys2Proof Sys2Proof.Machine Sys2Proof.Laws

/-! ### Acceptance -/

theorem writeReg_cmd (s : State) (v : Word64) : writeReg s 64 0x00 v = writeCmd s v := rfl

theorem writeCmd_idle {s : State} (h : s.latch = none) (v : Word64) :
    writeCmd s v = latchCommand s (v.setWidth 32) := by simp only [writeCmd, h]

theorem writeCmd_latched {s : State} (h : s.latch ≠ none) (v : Word64) :
    writeCmd s v = { s with status := { s.status with overrun := true } } := by
  obtain ⟨l, hl⟩ := Option.ne_none_iff_exists'.mp h
  simp only [writeCmd, hl]

/-! ### Whose turn a step is -/

section
variable {s : State} {rest : List Event}

theorem step_of_agenda_nil (h : s.agenda = []) : step s = engineStep s := by simp only [step, h]

theorem step_of_engine (h : s.agenda = .engine :: rest) : step s = engineStep { s with agenda := rest } := by
  simp only [step, h]

theorem step_of_deviceReset (h : s.agenda = .deviceReset :: rest) :
    step s = .next (resetStep { s with agenda := rest }) := by simp only [step, h]

theorem step_of_host {op : HostOp} (h : s.agenda = .host op :: rest) : step s = hostStep op rest s := by
  simp only [step, h]

theorem hostStep_wait_busy (h : s.status.busy = true) : hostStep .wait rest s = engineStep s := if_pos h

theorem engineStep_of_decode {l : Latch} {i : Instr} (hl : s.latch = some l) (hi : decode l.word = .ok i) :
    engineStep s = exec i s := by simp only [engineStep, hl, hi]

end

/-! ### Completion -/

/-- The status code that a result completes with (R361, R441). -/
def resultCode : Except StatusCode Effect → StatusCode
  | .error code => code
  | .ok _ => .success

section
variable (s : State) (res : Except StatusCode Effect)

@[simp] theorem commit_code : (commit s res).status.code = codeNumber (resultCode res) := by cases res <;> rfl
@[simp] theorem commit_busy : (commit s res).status.busy = false := by cases res <;> rfl
@[simp] theorem commit_done : (commit s res).status.done = true := by cases res <;> rfl
@[simp] theorem commit_latch : (commit s res).latch = none := by cases res <;> rfl

theorem irqLine_commit : irqLine (commit s res) = s.irqEn := by simp [irqLine]

end

/-- RESULT_CTX changes only in the success paths of ALLOC and COPY (R362). -/
theorem success_of_resultCtx_changed {i : Instr} {s : State}
    (h : (commit s (commandResult i s)).status.resultCtx ≠ s.status.resultCtx) :
    resultCode (commandResult i s) = .success ∧ ((∃ alg, i = .alloc alg) ∨ ∃ c, i = .copy c) := by
  obtain ⟨code, -, hr⟩ | ⟨ctx, r, hs, hr⟩ | ⟨a, n, bs, -, hr⟩ := commandResult_cases i s <;> rw [hr] at h ⊢
  · exact absurd rfl h
  · obtain ⟨n, v, -, ⟨hi, -⟩ | ⟨-, hres⟩⟩ := slotsOf_set hs
    · exact ⟨rfl, hi⟩
    · exact absurd hres h
  · exact absurd rfl h

/-! ### Progress -/

/-- A command is in flight: latched, and BUSY says so (R46). -/
def InFlight (s : State) : Prop := s.latch ≠ none ∧ s.status.busy = true

/-- No command is latched, and BUSY says so (R46). -/
def Ended (s : State) : Prop := s.latch = none ∧ s.status.busy = false

/-- ENGINE's step ends the command in flight, legal or not (R361, R447). -/
theorem engineStep_ends {s : State} (h : s.latch ≠ none) : ∃ t, engineStep s = .next t ∧ Ended t := by
  obtain ⟨l, hl⟩ := Option.ne_none_iff_exists'.mp h
  cases hi : decode l.word with
  | error e => exact ⟨complete s .illegalCommand, by simp only [engineStep, hl, hi], rfl, rfl⟩
  | ok i =>
    exact ⟨commit s (commandResult i s), (engineStep_of_decode hl hi).trans (exec_eq i s), commit_latch _ _,
      commit_busy _ _⟩

/-- While a command is in flight a register write changes registers and OVERRUN only (R42, R360). -/
theorem writeReg_of_latched {s : State} (h : s.latch ≠ none) (width offset : Nat) (v : Word64) :
    ∃ regs en ov, writeReg s width offset v =
      { s with regs := regs, irqEn := en, status := { s.status with overrun := ov } } := by
  by_cases ho : offset = 0x00
  · subst ho
    by_cases hw : width = 64
    · subst hw
      exact ⟨_, _, _, (writeReg_cmd s v).trans (writeCmd_latched h v)⟩
    · exact ⟨_, _, _, writeReg_unmapped s (.inl hw) v⟩
  · obtain ⟨regs, en, hwrite⟩ := writeReg_changes_registers s width ho v
    exact ⟨regs, en, _, hwrite⟩

/-- A HOST byte read leaves the command in flight and the agenda (R87). -/
theorem hostLoad_frame (s : State) (addr : Word64) :
    (hostLoad s addr).latch = s.latch ∧ (hostLoad s addr).status = s.status ∧ (hostLoad s addr).agenda = s.agenda := by
  unfold hostLoad
  split
  · exact ⟨rfl, rfl, rfl⟩
  · split <;> exact ⟨rfl, rfl, rfl⟩

/-- A HOST operation other than EXPECT ends the command in flight or takes its own entry off the agenda. -/
theorem hostStep_progress {s : State} (h : InFlight s) {op : HostOp} (hop : ∀ code, op ≠ .expect code)
    (rest : List Event) : ∃ t, hostStep op rest s = .next t ∧ (Ended t ∨ InFlight t ∧ t.agenda = rest) := by
  obtain ⟨hl, hb⟩ := h
  cases op with
  | regRead width offset => exact ⟨_, rfl, .inr ⟨⟨hl, hb⟩, rfl⟩⟩
  | regWrite width offset v =>
    obtain ⟨regs, en, ov, hw⟩ := writeReg_of_latched (s := { s with agenda := rest }) hl width offset v
    exact ⟨_, congrArg Host.Outcome.next hw, .inr ⟨⟨hl, hb⟩, rfl⟩⟩
  | memRead addr =>
    obtain ⟨hlatch, hstatus, hagenda⟩ := hostLoad_frame { s with agenda := rest } addr
    exact ⟨_, rfl, .inr ⟨⟨by rwa [hlatch], by rwa [hstatus]⟩, hagenda⟩⟩
  | memWrite addr b => exact ⟨_, rfl, .inr ⟨⟨hl, hb⟩, rfl⟩⟩
  | wait =>
    obtain ⟨t, ht, hend⟩ := engineStep_ends hl
    exact ⟨t, (hostStep_wait_busy hb).trans ht, .inl hend⟩
  | expect code => exact absurd rfl (hop code)

/-- A step at an entry of the agenda other than EXPECT ends the command in flight or takes the entry off. -/
theorem step_progress {s : State} (h : InFlight s) {e : Event} {rest : List Event} (he : s.agenda = e :: rest)
    (hexp : ∀ code, e ≠ .host (.expect code)) :
    ∃ t, step s = .next t ∧ (Ended t ∨ InFlight t ∧ t.agenda = rest) := by
  cases e with
  | host op =>
    rw [step_of_host he]
    exact hostStep_progress h (fun code hop => hexp code (congrArg Event.host hop)) rest
  | engine =>
    obtain ⟨t, ht, hend⟩ := engineStep_ends (s := { s with agenda := rest }) h.1
    exact ⟨t, (step_of_engine he).trans ht, .inl hend⟩
  | deviceReset => exact ⟨_, step_of_deviceReset he, .inl ⟨rfl, rfl⟩⟩

/-- A run of one more step goes on from the state after its first step. -/
theorem run_succ {s t : State} (h : step s = .next t) (n : Nat) : core.run (n + 1) s = core.run n t := by
  have hcore : core.step s = .next t := h
  simp only [Host.Core.run, hcore]

/-- From a command in flight, the agenda and one ENGINE step are enough for it to end. -/
theorem run_ends {s : State} (h : InFlight s) (hexp : ∀ code, Event.host (.expect code) ∉ s.agenda) :
    ∃ n t, n ≤ s.agenda.length + 1 ∧ core.run n s = .next t ∧ Ended t := by
  induction hagenda : s.agenda generalizing s with
  | nil =>
    obtain ⟨t, ht, hend⟩ := engineStep_ends h.1
    exact ⟨1, t, le_rfl, run_succ ((step_of_agenda_nil hagenda).trans ht) 0, hend⟩
  | cons e rest ih =>
    rw [hagenda] at hexp
    obtain ⟨t, ht, hend | ⟨hrun, hrest⟩⟩ :=
      step_progress h hagenda fun code he => hexp code (he ▸ List.mem_cons_self)
    · exact ⟨1, t, by simp, run_succ ht 0, hend⟩
    · obtain ⟨n, u, hn, hu, hend⟩ :=
        ih hrun (fun code hmem => hexp code (List.mem_cons_of_mem e (hrest ▸ hmem))) hrest
      exact ⟨n + 1, u, Nat.succ_le_succ hn, (run_succ ht n).trans hu, hend⟩

/-! ### The life-cycle obligations -/

/-- Settles O14: the fields of a commit, and the success paths that write RESULT_CTX. -/
theorem completionStatus : Obligations.CompletionStatus := by
  unfold Obligations.CompletionStatus
  intro i s
  exact ⟨_, resultCode (commandResult i s), exec_eq i s, commit_code s _, commit_busy s _, commit_done s _,
    commit_latch s _, commit_overrun s _, irqLine_commit s _, success_of_resultCtx_changed⟩

/-- Settles O60: each entry of the agenda is one step, and ENGINE's step comes at the latest when none is left. -/
theorem acceptedCommandEnds : Obligations.AcceptedCommandEnds := by
  unfold Obligations.AcceptedCommandEnds
  intro s hl hb hexp
  exact run_ends ⟨hl, hb.trans (Option.isSome_iff_ne_none.2 hl)⟩ hexp

/-- Settles O12: acceptance while idle, OVERRUN while latched, and the HOST step of a register write. -/
theorem commandAcceptance : Obligations.CommandAcceptance := by
  unfold Obligations.CommandAcceptance
  exact fun s v => ⟨fun h => (writeReg_cmd s v).trans (writeCmd_idle h v),
    fun h => (writeReg_cmd s v).trans (writeCmd_latched h v), fun rest hs => step_of_host hs⟩

/-- Settles O16: in each of the three turns the step is ENGINE's, on a word that decodes. -/
theorem stepRunsDecodedInstruction : Obligations.StepRunsDecodedInstruction := by
  unfold Obligations.StepRunsDecodedInstruction
  intro s l i hl hi
  have hengine : engineStep s = exec i s := engineStep_of_decode hl hi
  refine ⟨fun rest hs => ?_, fun hs => ?_, fun rest hs hb => ?_⟩
  · exact (step_of_engine hs).trans (engineStep_of_decode hl hi)
  · exact (step_of_agenda_nil hs).trans hengine
  · exact ((step_of_host hs).trans (hostStep_wait_busy hb)).trans hengine

/-- Settles O17: the placed word is latched whole, and ENGINE is next on the agenda. -/
theorem fetchWordRunsNext : Obligations.FetchWordRunsNext := by
  unfold Obligations.FetchWordRunsNext
  intro s w i hw hi
  rw [step_of_engine (s := s.withFetchWord 32 w) rfl, State.withFetchWord, Nat.mod_eq_of_lt hw]
  exact engineStep_of_decode rfl hi

end Sys2Proof.Proofs
end

section
/-! PROOF. The streaming commands one by one: the result of each on every path (spec 46_streaming.md R365 to R373), and which
command changes which slot (R374). -/

namespace Sys2Proof.Proofs

open Sys2Proof Sys2Proof.Machine Sys2Proof.Laws

/-! ### Results, path by path -/

/-- A command answers its result, committed (R361). -/
theorem exec_of_result {i : Instr} {s : State} {res : Except StatusCode Effect} (h : commandResult i s = res) :
    exec i s = .next (commit s res) := h ▸ exec_eq i s

/-- A command that names a slot without a context is an invalid context (R448). -/
theorem commandResult_of_slot_none {i : Instr} {s : State} {c : Nat} (hi : namedSlot i = some c)
    (hc : slot s c = none) : commandResult i s = .error .invalidContext := by
  cases i <;> cases hi
  case copy => simp only [commandResult, copyResult, hc]
  all_goals exact commandResult_missing (by simp) hc

section
variable {s : State} {c n : Nat} {k : Context} {l : Latch} {alg : Alg}

theorem allocResult_of_freeSlot (hn : freeSlot s = some n) :
    commandResult (.alloc alg) s = .ok (newSlotEffect s n (freshContext alg)) := by
  simp only [commandResult, allocResult, hn]

theorem allocResult_of_full (hn : freeSlot s = none) : commandResult (.alloc alg) s = .error .outOfMemory := by
  simp only [commandResult, allocResult, hn]

theorem copyResult_of_freeSlot (hk : slot s c = some k) (hn : freeSlot s = some n) :
    commandResult (.copy c) s = .ok (newSlotEffect s n k) := by
  simp only [commandResult, copyResult, hk, hn]

theorem copyResult_of_full (hk : slot s c = some k) (hn : freeSlot s = none) :
    commandResult (.copy c) s = .error .outOfMemory := by
  simp only [commandResult, copyResult, hk, hn]

theorem resetResult_of_held (hk : slot s c = some k) :
    commandResult (.reset c) s = .ok (slotEffect s (s.ctx.set c (some (freshContext k.alg)))) := by
  simp only [commandResult, resetResult, hk]

theorem releaseResult_of_held (hk : slot s c = some k) :
    commandResult (.release c) s = .ok (slotEffect s (s.ctx.set c none)) := by
  simp only [commandResult, releaseResult, hk]

/-- UPDATE on a held slot, with the latched arguments (R367). -/
theorem updateResult_of_held (hl : s.latch = some l) (hk : slot s c = some k) :
    commandResult (.update c) s =
      if maxLen k.alg < k.totalLen.toNat + l.args.srcLen.toNat then .error .maximumLengthExceeded
      else if admitted s.platform l.args.srcAddr l.args.srcLen.toNat then
        .ok (slotEffect s (s.ctx.set c (some (absorb k (inputBytes s l.args.srcAddr l.args.srcLen.toNat)))))
      else .error .busError := by
  simp only [commandResult, updateResult, commandArgs, hl, hk]

/-- DIGEST on a held slot, with the latched arguments (R370). -/
theorem digestResult_of_held (hl : s.latch = some l) (hk : slot s c = some k) :
    commandResult (.digest c) s =
      if algFamily k.alg = .shake then .error .invalidAlgorithm
      else if admitted s.platform l.args.dstAddr (outLen k.alg) then
        .ok (outputEffect s l.args.dstAddr (finalize k (outLen k.alg)))
      else .error .busError := by
  simp only [commandResult, digestResult, commandArgs, hl, hk]

/-- SQUEEZE on a held slot, with the latched arguments (R371). -/
theorem squeezeResult_of_held (hl : s.latch = some l) (hk : slot s c = some k) :
    commandResult (.squeeze c) s =
      if algFamily k.alg ≠ .shake then .error .invalidAlgorithm
      else if l.args.dstLen = 0 then .error .invalidLength
      else if admitted s.platform l.args.dstAddr l.args.dstLen.toNat then
        .ok (outputEffect s l.args.dstAddr (finalize k l.args.dstLen.toNat))
      else .error .busError := by
  have hzero : l.args.dstLen.toNat = 0 ↔ l.args.dstLen = 0 := BitVec.toNat_inj (y := 0)
  simp only [commandResult, squeezeResult, commandArgs, hl, hk, hzero]

end

/-- After RELEASE the slot it names holds no context, whether it succeeded or not (R373). -/
theorem slot_release_eq_none (s : State) (c : Nat) : slot (commit s (commandResult (.release c) s)) c = none := by
  cases hk : slot s c with
  | none => rw [commandResult_of_slot_none rfl hk]; exact hk
  | some k =>
    rw [releaseResult_of_held hk]
    exact (slot_of_set (s := s) rfl c).trans (if_pos ⟨rfl, slot_lt hk⟩)

/-! ### The command obligations -/

/-- Settles O18, by the lowest free slot. -/
theorem allocFillsLowestFreeSlot : Obligations.AllocFillsLowestFreeSlot := by
  unfold Obligations.AllocFillsLowestFreeSlot
  intro alg s
  refine ⟨fun n hn hfree hlow => ?_, fun hfull => ?_⟩
  · exact exec_of_result (allocResult_of_freeSlot ((freeSlot_some_iff s n).2 ⟨hn, hfree, hlow⟩))
  · exact exec_of_result (allocResult_of_full ((freeSlot_none_iff s).2 hfull))

/-- Settles O19, by whether the slot holds a context. -/
theorem resetReinitialisesContext : Obligations.ResetReinitialisesContext := by
  unfold Obligations.ResetReinitialisesContext
  exact fun c s => ⟨fun k hk => exec_of_result (resetResult_of_held hk),
    fun hc => exec_of_result (commandResult_of_slot_none rfl hc)⟩

/-- Settles O20, check by check. -/
theorem updateAbsorbsMessage : Obligations.UpdateAbsorbsMessage := by
  unfold Obligations.UpdateAbsorbsMessage
  intro c s l hl
  refine ⟨fun k hk => ?_, fun hc => exec_of_result (commandResult_of_slot_none rfl hc)⟩
  have hres := updateResult_of_held hl hk
  refine ⟨fun hlen ha => ?_, fun hlen => ?_, fun hlen ha => ?_⟩
  · rw [if_neg hlen.not_gt, if_pos ha] at hres
    exact exec_of_result hres
  · rw [if_pos hlen] at hres
    exact exec_of_result hres
  · rw [if_neg hlen.not_gt, if_neg (by simp [ha])] at hres
    exact exec_of_result hres

/-- Settles O21, check by check. -/
theorem digestWritesDigest : Obligations.DigestWritesDigest := by
  unfold Obligations.DigestWritesDigest
  intro c s l hl
  refine ⟨fun k hk => ?_, fun hc => exec_of_result (commandResult_of_slot_none rfl hc)⟩
  have hres := digestResult_of_held hl hk
  refine ⟨fun hf ha => ?_, fun hf => ?_, fun hf ha => ?_⟩
  · rw [if_neg hf, if_pos ha] at hres
    exact exec_of_result hres
  · rw [if_pos hf] at hres
    exact exec_of_result hres
  · rw [if_neg hf, if_neg (by simp [ha])] at hres
    exact exec_of_result hres

/-- Settles O22, check by check. -/
theorem squeezeWritesOutput : Obligations.SqueezeWritesOutput := by
  unfold Obligations.SqueezeWritesOutput
  intro c s l hl
  refine ⟨fun k hk => ?_, fun hc => exec_of_result (commandResult_of_slot_none rfl hc)⟩
  have hres := squeezeResult_of_held hl hk
  refine ⟨fun hf hn ha => ?_, fun hf => ?_, fun hf hz => ?_, fun hf hn ha => ?_⟩
  · rw [if_neg (not_not_intro hf), if_neg hn, if_pos ha] at hres
    exact exec_of_result hres
  · rw [if_pos hf] at hres
    exact exec_of_result hres
  · rw [if_neg (not_not_intro hf), if_pos hz] at hres
    exact exec_of_result hres
  · rw [if_neg (not_not_intro hf), if_neg hn, if_neg (by simp [ha])] at hres
    exact exec_of_result hres

/-- Settles O23, by the named slot and the lowest free one. -/
theorem copyDuplicatesContext : Obligations.CopyDuplicatesContext := by
  unfold Obligations.CopyDuplicatesContext
  intro c s
  refine ⟨fun k hk => ⟨fun n hn hfree hlow => ?_, fun hfull => ?_⟩, fun hc => ?_⟩
  · exact exec_of_result (copyResult_of_freeSlot hk ((freeSlot_some_iff s n).2 ⟨hn, hfree, hlow⟩))
  · exact exec_of_result (copyResult_of_full hk ((freeSlot_none_iff s).2 hfull))
  · exact exec_of_result (commandResult_of_slot_none rfl hc)

/-- Settles O24: RELEASE of a held slot, the slot after any RELEASE, and the six commands on an empty slot. -/
theorem releaseFreesSlot : Obligations.ReleaseFreesSlot := by
  unfold Obligations.ReleaseFreesSlot
  intro c s
  refine ⟨fun k hk => exec_of_result (releaseResult_of_held hk), fun t ht => ?_, fun i hi hc => ?_⟩
  · rw [exec_eq] at ht
    cases ht
    exact slot_release_eq_none s c
  · have hnamed : namedSlot i = some c := by
      simp only [List.mem_cons, List.not_mem_nil, or_false] at hi
      obtain rfl | rfl | rfl | rfl | rfl | rfl := hi <;> rfl
    exact exec_of_result (commandResult_of_slot_none hnamed hc)

/-! ### Which slot changes -/

/-- A slot that setting slot n changes is n, and holds what was put there. -/
theorem slot_of_set_changed {s t : State} {n j : Nat} {v : Option Context} (h : t.ctx = s.ctx.set n v)
    (hj : slot t j ≠ slot s j) : j = n ∧ slot t j = v := by
  rw [slot_of_set h] at hj ⊢
  split at hj
  · next hn => exact ⟨hn.1.symm, if_pos hn⟩
  · exact absurd rfl hj

/-- What a successful slot command does to a slot that it changes (R374). -/
theorem slot_changed_of_slotsOf {i : Instr} {s t : State} {r : BitVec 8} (h : SlotsOf i s t.ctx r) {j : Nat}
    (hj : slot t j ≠ slot s j) :
    (((∃ alg, i = .alloc alg) ∨ ∃ c, i = .copy c) ∧ slot s j = none ∧ slot t j ≠ none) ∨
    ((i = .reset j ∨ i = .update j) ∧ slot s j ≠ none ∧ slot t j ≠ none) ∨
    (i = .release j ∧ slot s j ≠ none ∧ slot t j = none) := by
  generalize hctx : t.ctx = ctx at h
  cases h with
  | alloc hi hn =>
    obtain ⟨rfl, hv⟩ := slot_of_set_changed hctx hj
    exact .inl ⟨.inl ⟨_, hi⟩, ((freeSlot_some_iff s j).1 hn).2.1, by simp [hv]⟩
  | reset hi hk =>
    obtain ⟨rfl, hv⟩ := slot_of_set_changed hctx hj
    exact .inr (.inl ⟨.inl hi, by simp [hk], by simp [hv]⟩)
  | update hi hk =>
    obtain ⟨rfl, hv⟩ := slot_of_set_changed hctx hj
    exact .inr (.inl ⟨.inr hi, by simp [hk], by simp [hv]⟩)
  | copy hi _ hn =>
    obtain ⟨rfl, hv⟩ := slot_of_set_changed hctx hj
    exact .inl ⟨.inr ⟨_, hi⟩, ((freeSlot_some_iff s j).1 hn).2.1, by simp [hv]⟩
  | release hi hk =>
    obtain ⟨rfl, hv⟩ := slot_of_set_changed hctx hj
    exact .inr (.inr ⟨hi, by simp [hk], hv⟩)

/-- Settles O36: a changed slot is one that a successful slot command set. -/
theorem onlySlotCommandsChangeSlots : Obligations.OnlySlotCommandsChangeSlots := by
  unfold Obligations.OnlySlotCommandsChangeSlots
  intro i s t ht
  rw [exec_eq] at ht
  cases ht
  refine ⟨fun hi => (commit_slots_of_output s hi).1, fun j hj => ?_⟩
  obtain ⟨hctx, -⟩ | hs := commit_slots i s
  · exact absurd (slot_congr hctx j) hj
  · exact slot_changed_of_slotsOf hs hj

end Sys2Proof.Proofs
end

section
/-! PROOF. Absorbing block by block (spec 46_streaming.md R368, R369; 44_blake2.md R287) and chunking invariance (R375), at a
context and at the commands. -/

namespace Sys2Proof.Proofs

open Sys2Proof Sys2Proof.Machine Sys2Proof.Laws

/-! ### The absorb in closed form -/

/-- Block j of a byte string, for block size b. -/
def blockAt (b : Nat) (s : List Byte) (j : Nat) : List Byte := (s.drop (b * j)).take b

/-- total_len after an absorb within MAXLEN (R38). -/
theorem absorb_totalLen_toNat {k : Context} {d : List Byte} (h : k.totalLen.toNat + d.length ≤ maxLen k.alg) :
    (absorb k d).totalLen.toNat = k.totalLen.toNat + d.length := by
  have hmax := maxLen_lt k.alg
  rw [absorb_totalLen, addLen_toNat (by omega)]

/-- H after an eager absorb (R368). -/
theorem absorb_H_eager {k : Context} (hz : isLazy k.alg = false) (d : List Byte) :
    (absorb k d).H = (List.range ((k.buf ++ d).length / blockLen k.alg)).foldl
      (fun h j => compressEager k.alg h (blockAt (blockLen k.alg) (k.buf ++ d) j)) k.H := by
  simp only [absorb, hz, Bool.false_eq_true, if_false, absorbEager]
  rw [blockLoop_closed (blockLen_pos k.alg)]
  rfl

/-- R369's rounds over n blocks: block j is compressed with the counter t + (j + 1)B. -/
theorem foldl_lazyRound (alg : Alg) (h : Working) (t n : Nat) (m : Nat → List Byte) :
    (List.range n).foldl (fun st j => lazyRound alg st (m j)) (h, t) =
      ((List.range n).foldl (fun h j => compressLazy alg h (m j) (t + (j + 1) * blockLen alg) false) h,
        t + n * blockLen alg) := by
  induction n with
  | zero => simp
  | succ n ih =>
    have hcount : t + n * blockLen alg + blockLen alg = t + (n + 1) * blockLen alg := by ring
    simp only [List.range_succ, List.foldl_append, List.foldl_cons, List.foldl_nil, ih]
    rw [lazyRound, hcount]

/-- H after a lazy absorb (R369, R287). -/
theorem absorb_H_lazy {k : Context} (hz : isLazy k.alg = true) (d : List Byte) :
    (absorb k d).H = (List.range (((k.buf ++ d).length - 1) / blockLen k.alg)).foldl
      (fun h j => compressLazy k.alg h (blockAt (blockLen k.alg) (k.buf ++ d) j)
        (k.totalLen.toNat - k.buf.length + (j + 1) * blockLen k.alg) false) k.H := by
  simp only [absorb, hz, if_true, absorbLazy]
  rw [blockLoop_closed (blockLen_pos k.alg)]
  exact congrArg Prod.fst (foldl_lazyRound k.alg k.H _ _ (blockAt (blockLen k.alg) (k.buf ++ d)))

/-- The pending bytes after an eager absorb (R368). -/
theorem absorb_buf_eager {k : Context} (hz : isLazy k.alg = false) (d : List Byte) :
    (absorb k d).buf = (k.buf ++ d).drop (blockLen k.alg * ((k.buf ++ d).length / blockLen k.alg)) := by
  rw [absorb_buf, hz]
  rfl

/-- The pending bytes after a lazy absorb (R369). -/
theorem absorb_buf_lazy {k : Context} (hz : isLazy k.alg = true) (d : List Byte) :
    (absorb k d).buf = (k.buf ++ d).drop (blockLen k.alg * (((k.buf ++ d).length - 1) / blockLen k.alg)) := by
  rw [absorb_buf, hz]
  rfl

/-- Of n bytes an eager absorb leaves less than a block. -/
theorem eager_rest_lt {b : Nat} (hb : 0 < b) (n : Nat) : n - b * (n / b) < b := by
  rw [← Nat.mod_eq_sub_mul_div]
  exact Nat.mod_lt n hb

/-- Of n bytes a lazy absorb leaves at most a block, and something if there was anything. -/
theorem lazy_rest_bounds {b : Nat} (hb : 0 < b) (n : Nat) :
    n - b * ((n - 1) / b) ≤ b ∧ (0 < n → 1 ≤ n - b * ((n - 1) / b)) := by
  have hlt := eager_rest_lt hb (n - 1)
  have hle := Nat.mul_div_le (n - 1) b
  omega

/-- Settles O45: the closed form of the block loop, and the pending length of a good context. -/
theorem absorbEagerByBlocks : Obligations.AbsorbEagerByBlocks := by
  unfold Obligations.AbsorbEagerByBlocks
  intro k data hz hmax s n k'
  have hbuf : k'.buf = s.drop (blockLen k.alg * n) := absorb_buf_eager hz data
  refine ⟨absorb_alg k data, absorb_totalLen_toNat hmax, absorb_H_eager hz data, hbuf, ?_, fun hk => ?_⟩
  · rw [hbuf, List.length_drop]
    exact eager_rest_lt (blockLen_pos k.alg) s.length
  · have hpending := (absorb_ok hk hmax).pending
    rwa [pendingLen, absorb_alg, hz, if_neg Bool.false_ne_true] at hpending

/-- Settles O46: the closed form of the block loop, with its counter written out. -/
theorem absorbLazyByBlocks : Obligations.AbsorbLazyByBlocks := by
  unfold Obligations.AbsorbLazyByBlocks
  intro k data hz hmax s n k'
  have hbuf : k'.buf = s.drop (blockLen k.alg * n) := absorb_buf_lazy hz data
  obtain ⟨hle, hpos⟩ := lazy_rest_bounds (blockLen_pos k.alg) s.length
  refine ⟨absorb_alg k data, absorb_totalLen_toNat hmax, absorb_H_lazy hz data, hbuf, ?_, fun hs => ?_⟩
  · rwa [hbuf, List.length_drop]
  · rw [hbuf, List.length_drop]
    exact hpos (List.length_pos_iff.2 hs)

/-! ### Chunking -/

/-- Absorbing chunks one after another is absorbing them joined (R375). -/
theorem foldl_absorb {k : Context} (hk : k.Ok) {chunks : List (List Byte)}
    (h : k.totalLen.toNat + chunks.flatten.length ≤ maxLen k.alg) :
    chunks.foldl absorb k = absorb k chunks.flatten := by
  induction chunks generalizing k with
  | nil => exact (absorb_nil hk).symm
  | cons d chunks ih =>
    rw [List.flatten_cons, List.length_append] at h
    have hd : k.totalLen.toNat + d.length ≤ maxLen k.alg := by omega
    have hrest : (absorb k d).totalLen.toNat + chunks.flatten.length ≤ maxLen (absorb k d).alg := by
      rw [absorb_totalLen_toNat hd, absorb_alg]; omega
    rw [List.foldl_cons, ih (absorb_ok hk hd) hrest, absorb_append hk h, List.flatten_cons]

/-- Settles O48: the chunks absorbed one by one and joined leave the same context. -/
theorem chunkedHashEqualsOneshot : Obligations.ChunkedHashEqualsOneshot := by
  unfold Obligations.ChunkedHashEqualsOneshot
  intro alg chunks h
  have hsame : chunks.foldl absorb (freshContext alg) = absorb (freshContext alg) chunks.flatten :=
    foldl_absorb (freshContext_ok alg) (by simpa [freshContext] using h)
  exact ⟨fun _ => congrArg (finalize · (outLen alg)) hsame, fun l => congrArg (finalize · l) hsame⟩

/-- What an UPDATE that completed with Success did (R367). -/
theorem update_succeeded {s t : State} {c : Nat} {k : Context} {l : Latch} (hl : s.latch = some l)
    (hk : slot s c = some k) (ht : exec (.update c) s = .next t) (hcode : t.status.code = 0x00) :
    k.totalLen.toNat + l.args.srcLen.toNat ≤ maxLen k.alg ∧
    slot t c = some (absorb k (inputBytes s l.args.srcAddr l.args.srcLen.toNat)) := by
  have hres := updateResult_of_held hl hk
  rw [exec_eq] at ht
  cases ht
  rw [commit_code] at hcode
  have hsuccess : resultCode (commandResult (.update c) s) = .success := codeNumber_inj hcode
  rw [hres] at hsuccess ⊢
  split at hsuccess
  · cases hsuccess
  · next hlen =>
    split at hsuccess
    · next ha =>
      rw [if_neg hlen, if_pos ha]
      exact ⟨Nat.le_of_not_lt hlen, (slot_of_set (s := s) rfl c).trans (if_pos ⟨rfl, slot_lt hk⟩)⟩
    · cases hsuccess

/-- Settles O47: each UPDATE absorbed its bytes, and absorbing in two parts is absorbing once. -/
theorem splitUpdateEqualsOneUpdate : Obligations.SplitUpdateEqualsOneUpdate := by
  unfold Obligations.SplitUpdateEqualsOneUpdate
  intro c k s1 s2 s3 t1 t2 t3 l1 l2 l3 hk hl1 hl2 hl3 hk1 hk3 hbetween he1 he2 he3 hc1 hc2 hc3 hbytes
  obtain ⟨-, hslot1⟩ := update_succeeded hl1 hk1 he1 hc1
  obtain ⟨-, hslot2⟩ := update_succeeded hl2 (hbetween.trans hslot1) he2 hc2
  obtain ⟨hmax, hslot3⟩ := update_succeeded hl3 hk3 he3 hc3
  have hlen := congrArg List.length hbytes
  rw [inputBytes_length, List.length_append] at hlen
  rw [hslot3, hslot2, hbytes, absorb_append hk (hlen ▸ hmax)]

end Sys2Proof.Proofs
end

section
/-! PROOF. The output stream of a SHAKE context (spec 45_padding.md R326, 46_streaming.md R371): a shorter output is the front
of a longer one, and it is what SQUEEZE leaves in memory. -/

namespace Sys2Proof.Proofs

open Sys2Proof Sys2Proof.Machine Sys2Proof.Laws

/-- Of two outputs of a SHAKE context the shorter is the front of the longer (R371). -/
theorem finalize_shake_take {k : Context} (hk : k.Ok) (hf : algFamily k.alg = .shake) {n m : Nat} (h : n ≤ m) :
    finalize k n = (finalize k m).take n := by
  obtain ⟨hrate, hpos, -, -⟩ := blockLen_sponge (.inr hf)
  have hsponge : IsSponge (compressEager k.alg k.H (spongeBlock k)) :=
    isSponge_of_shape (compressEager_shape hk.shape _) (.inr hf)
  have hfuel (l : Nat) : l ≤ ([] : List Byte).length + l * blockLen k.alg := by
    rw [List.length_nil, Nat.zero_add]
    exact Nat.le_mul_of_pos_right l hpos
  simp only [finalize, hf, spongeFinal]
  exact squeezeLoop_shorter hrate hsponge h (hfuel n) (hfuel m)

/-- With no byte written by HOST during the command, the output's bytes stand in its range (R83). -/
theorem readByte_landOutput {s : State} (hm : Memory.wf s.mem) (hh : s.held = []) {o : Output} {j : Nat}
    (hj : j < o.bytes.length) : readByte (landOutput s (some o)) (o.addr + j) = o.bytes[j] := by
  have hnot : heldAt s (o.addr + j) = false := by simp [heldAt, hh]
  have hin : o.addr ≤ o.addr + j ∧ o.addr + j - o.addr < o.bytes.length := by omega
  rw [landOutput, readByte_landBytes hm, dif_pos hin]
  simp [hnot]

/-- A SQUEEZE that passes its checks puts the context's output in its range, byte by byte (R371). -/
theorem squeeze_output {s : State} {c : Nat} {k : Context} {l : Latch} (hk : k.Ok) (hf : algFamily k.alg = .shake)
    (hs : slot s c = some k) (hl : s.latch = some l) (hm : Memory.wf s.mem) (hh : s.held = [])
    (hn : l.args.dstLen ≠ 0) (ha : admitted s.platform l.args.dstAddr l.args.dstLen.toNat = true) :
    ∃ t, exec (.squeeze c) s = .next t ∧ ∀ j, j < l.args.dstLen.toNat →
      some (readByte t.mem (l.args.dstAddr.toNat + j)) = (finalize k l.args.dstLen.toNat)[j]? := by
  have hres := squeezeResult_of_held hl hs
  rw [if_neg (not_not_intro hf), if_neg hn, if_pos ha] at hres
  refine ⟨_, exec_of_result hres, fun j hj => ?_⟩
  have hlen : j < (finalize k l.args.dstLen.toNat).length := by
    rwa [finalize_length hk.shape, resultLen, if_pos hf]
  rw [List.getElem?_eq_getElem hlen]
  exact congrArg some (readByte_landOutput (o := ⟨_, finalize k _⟩) hm hh hlen)

/-- Settles O49: both outputs are fronts of one stream, and each stands in its range. -/
theorem squeezeOutputsShareOneStream : Obligations.SqueezeOutputsShareOneStream := by
  unfold Obligations.SqueezeOutputsShareOneStream
  intro c k s1 s2 l1 l2 hk hf hs1 hs2 hl1 hl2 hm1 hm2 hh1 hh2 hn1 hle ha1 ha2
  have hn2 : l2.args.dstLen ≠ 0 := by
    rintro hz
    rw [hz] at hle
    exact hn1 (BitVec.eq_of_toNat_eq (Nat.le_zero.1 hle))
  obtain ⟨t1, he1, hout1⟩ := squeeze_output hk hf hs1 hl1 hm1 hh1 hn1 ha1
  obtain ⟨t2, he2, hout2⟩ := squeeze_output hk hf hs2 hl2 hm2 hh2 hn2 ha2
  refine ⟨t1, t2, he1, he2, fun j hj => Option.some.inj ?_⟩
  rw [hout1 j hj, hout2 j (hj.trans_le hle), finalize_shake_take hk hf hle, List.getElem?_take_of_lt hj]

end Sys2Proof.Proofs
end

section
/-! PROOF. ONESHOT and HMAC (spec 47_oneshot_hmac.md): the result of each on every path (R410, R415), and the key block of a
key that has to be hashed (R412). -/

namespace Sys2Proof.Proofs

open Sys2Proof Sys2Proof.Machine Sys2Proof.Laws

/-! ### Results, path by path -/

section
variable {s : State} {l : Latch}

/-- ONESHOT with the latched arguments (R410). -/
theorem oneshotResult_of_latch (hl : s.latch = some l) (alg : Alg) :
    commandResult (.oneshot alg) s =
      if algFamily alg = .shake then .error .invalidAlgorithm
      else if maxLen alg < l.args.srcLen.toNat then .error .maximumLengthExceeded
      else if admitted s.platform l.args.srcAddr l.args.srcLen.toNat = true ∧
          admitted s.platform l.args.dstAddr (outLen alg) = true then
        .ok (outputEffect s l.args.dstAddr (hashOf alg (inputBytes s l.args.srcAddr l.args.srcLen.toNat)))
      else .error .busError := by
  simp only [commandResult, oneshotResult, commandArgs, hl, Bool.and_eq_true]

/-- R445's condition on the two hashes of an HMAC. -/
theorem hmacTooLong_iff (alg : Alg) (keyLen msgLen : Nat) :
    hmacTooLong alg keyLen msgLen = true ↔
      maxLen alg < blockLen alg + msgLen ∨ (blockLen alg < keyLen ∧ maxLen alg < keyLen) := by
  simp only [hmacTooLong, Bool.or_eq_true, Bool.and_eq_true, decide_eq_true_eq]

/-- HMAC with the latched arguments (R415). -/
theorem hmacResult_of_latch (hl : s.latch = some l) (alg : Alg) :
    commandResult (.hmac alg) s =
      if algFamily alg = .shake then .error .invalidAlgorithm
      else if maxLen alg < blockLen alg + l.args.srcLen.toNat ∨
          (blockLen alg < l.args.keyLen.toNat ∧ maxLen alg < l.args.keyLen.toNat) then .error .maximumLengthExceeded
      else if admitted s.platform l.args.keyAddr l.args.keyLen.toNat = true ∧
          admitted s.platform l.args.srcAddr l.args.srcLen.toNat = true ∧
          admitted s.platform l.args.dstAddr (outLen alg) = true then
        .ok (outputEffect s l.args.dstAddr (hmacDigest alg (inputBytes s l.args.keyAddr l.args.keyLen.toNat)
          (inputBytes s l.args.srcAddr l.args.srcLen.toNat)))
      else .error .busError := by
  simp only [commandResult, hmacResult, commandArgs, hl, hmacTooLong_iff, Bool.and_eq_true, and_assoc]

end

/-- Settles O25, check by check. -/
theorem oneshotWritesDigest : Obligations.OneshotWritesDigest := by
  unfold Obligations.OneshotWritesDigest
  intro alg s l hl
  have hres := oneshotResult_of_latch hl alg
  refine ⟨fun hf hlen hsrc hdst => ?_, fun hf => ?_, fun hf hlen => ?_, fun hf hlen ha => ?_⟩
  · rw [if_neg hf, if_neg hlen.not_gt, if_pos ⟨hsrc, hdst⟩] at hres
    exact exec_of_result hres
  · rw [if_pos hf] at hres
    exact exec_of_result hres
  · rw [if_neg hf, if_pos hlen] at hres
    exact exec_of_result hres
  · rw [if_neg hf, if_neg hlen.not_gt, if_neg (by obtain ha | ha := ha <;> simp [ha])] at hres
    exact exec_of_result hres

/-- Settles O26, check by check. -/
theorem hmacWritesMac : Obligations.HmacWritesMac := by
  unfold Obligations.HmacWritesMac
  intro alg s l hl long
  have hres := hmacResult_of_latch hl alg
  refine ⟨fun hf hlen hkey hsrc hdst => ?_, fun hf => ?_, fun hf hlen => ?_, fun hf hlen ha => ?_⟩
  · rw [if_neg hf, if_neg hlen, if_pos ⟨hkey, hsrc, hdst⟩] at hres
    exact exec_of_result hres
  · rw [if_pos hf] at hres
    exact exec_of_result hres
  · rw [if_neg hf, if_pos hlen] at hres
    exact exec_of_result hres
  · rw [if_neg hf, if_neg hlen, if_neg (by obtain ha | ha | ha := ha <;> simp [ha])] at hres
    exact exec_of_result hres

/-! ### Hashed keys -/

/-- A key of more than B bytes has the key block of its hash, which is short enough to be padded as it is (R412). -/
theorem hmacKeyBlock_hashOf {alg : Alg} (hf : algFamily alg ≠ .shake) {key : List Byte}
    (hlong : blockLen alg < key.length) : hmacKeyBlock alg (hashOf alg key) = hmacKeyBlock alg key := by
  have hshort : (hashOf alg key).length ≤ blockLen alg := (hash_length hf key).trans_le (outLen_le_blockLen alg)
  rw [hmacKeyBlock, if_pos hshort, hash_length hf, hmacKeyBlock, if_neg hlong.not_ge]

/-- Settles O50: the MAC reads the key only through its key block. -/
theorem hmacLongKeyEqualsHashedKey : Obligations.HmacLongKeyEqualsHashedKey := by
  unfold Obligations.HmacLongKeyEqualsHashedKey
  intro alg key msg hf
  refine ⟨hmacDigest_length hf key msg, fun hlong => ?_⟩
  simp only [hmacDigest, hmacPad, hmacKeyBlock_hashOf hf hlong]

end Sys2Proof.Proofs
end

section
/-! PROOF. The number of compressions of a hash and of an HMAC (spec 45_padding.md R332, 47_oneshot_hmac.md R417): the whole
blocks that the absorb takes and the final blocks, for each of the three kinds of padding, against R417's formula. -/

namespace Sys2Proof.Proofs

open Sys2Proof Sys2Proof.Machine Sys2Proof.Laws

/-- The three kinds of padding of the algorithms with a fixed output. -/
theorem padding_cases {alg : Alg} (hf : algFamily alg ≠ .shake) :
    IsMd alg ∨ algFamily alg = .sha3 ∨ algFamily alg = .blake2s ∨ algFamily alg = .blake2b := by
  unfold IsMd
  cases h : algFamily alg <;> simp_all

/-! ### Counting the model's loops -/

/-- The absorb of a whole message compresses once for each block that it takes (R501). -/
theorem absorbCount_eq (alg : Alg) (m : List Byte) :
    absorbCount alg m =
      (blocksOf (blockLen alg) (if isLazy alg then 1 else 0) m.length,
        m.drop (blockLen alg * blocksOf (blockLen alg) (if isLazy alg then 1 else 0) m.length)) := by
  rw [absorbCount, blockLoop_closed (blockLen_pos alg), List.foldl_const (· + 1)]
  simp

section
variable {alg : Alg}

/-- The count of a hash on an eager family: the whole blocks, and those of the bytes past them. -/
theorem hashCount_eager (hz : isLazy alg = false) (m : List Byte) :
    hashCount alg m =
      m.length / blockLen alg + finalizeCount alg (m.length % blockLen alg) (outLen alg) := by
  rw [hashCount, absorbCount_eq, hz, List.length_drop, Nat.mod_eq_sub_mul_div]
  rfl

/-- The count of a BLAKE2 hash: the blocks before the last byte's, and the last one. -/
theorem hashCount_blake2 (hf : algFamily alg = .blake2s ∨ algFamily alg = .blake2b) (m : List Byte) :
    hashCount alg m = (m.length - 1) / blockLen alg + 1 := by
  rw [hashCount, absorbCount_eq]
  obtain hf | hf := hf <;> simp [finalizeCount, isLazy, hf, blocksOf]

theorem IsMd.isLazy_eq_false (h : IsMd alg) : isLazy alg = false := by
  obtain h | h | h | h := h <;> simp only [isLazy, h]

theorem IsMd.finalizeCount_eq (h : IsMd alg) (p l : Nat) :
    finalizeCount alg p l = mdBlockCount (blockLen alg) (lengthFieldLen alg) p := by
  obtain h | h | h | h := h <;> simp only [finalizeCount, h]

/-- A SHA-3 digest is shorter than the rate, so its first output block is its last (R326). -/
theorem finalizeCount_sha3 (hf : algFamily alg = .sha3) (p l : Nat) : finalizeCount alg p l = 1 := by
  have hpos : outLen alg ≠ 0 := by cases alg <;> simp_all [algFamily, outLen]
  obtain ⟨n, hn⟩ := Nat.exists_eq_succ_of_ne_zero hpos
  have hle := outLen_le_blockLen alg
  simp only [finalizeCount, hf]
  rw [hn] at hle ⊢
  rw [squeezeBlocks, if_pos (by omega)]

end

/-! ### R417's formula -/

theorem IsMd.countFormula_eq {alg : Alg} (h : IsMd alg) (n : Nat) :
    countFormula alg n = (n + 1 + lengthFieldLen alg + (blockLen alg - 1)) / blockLen alg := by
  obtain h | h | h | h := h <;> simp only [countFormula, h]

/-- Whole blocks and the one or two blocks that padding takes are the blocks of the message with 0x80 and the length field,
rounded up. -/
theorem div_add_mdBlockCount {b lf : Nat} (hlf : 1 + lf ≤ b) (n : Nat) :
    n / b + mdBlockCount b lf (n % b) = (n + 1 + lf + (b - 1)) / b := by
  have hb : 0 < b := by omega
  have hlt := Nat.mod_lt n hb
  have hsplit : n + 1 + lf + (b - 1) = (n % b + lf) + b * (n / b + 1) := by
    have := Nat.mod_add_div n b
    rw [Nat.mul_add]
    omega
  rw [hsplit, Nat.add_mul_div_left _ _ hb, mdBlockCount]
  generalize n % b = p at hlt ⊢
  split
  · rw [Nat.div_eq_of_lt (a := p + lf) (by omega), Nat.zero_add]
  · rw [Nat.div_eq_of_lt_le (m := p + lf) (k := 1) (by omega) (by omega), Nat.add_left_comm]

/-- The blocks before the last byte's and the last one are the blocks rounded up, and one for no bytes at all. -/
theorem pred_div_add_one {b : Nat} (hb : 0 < b) (n : Nat) : (n - 1) / b + 1 = max 1 ((n + (b - 1)) / b) := by
  rcases Nat.eq_zero_or_pos n with rfl | hn
  · simp [Nat.div_eq_of_lt (Nat.sub_lt hb Nat.one_pos)]
  · rw [show n + (b - 1) = n - 1 + b by omega, Nat.add_div_right _ hb]
    exact (Nat.max_eq_right (Nat.le_add_left 1 _)).symm

/-- R417's Count is the number of compressions of a hash. -/
theorem hashCount_eq_countFormula {alg : Alg} (hf : algFamily alg ≠ .shake) (m : List Byte) :
    hashCount alg m = countFormula alg m.length := by
  obtain hmd | hsha3 | hblake2 := padding_cases hf
  · rw [hashCount_eager hmd.isLazy_eq_false, hmd.finalizeCount_eq, hmd.countFormula_eq]
    exact div_add_mdBlockCount hmd.lengthField_fits_block _
  · rw [hashCount_eager (by simp only [isLazy, hsha3]), finalizeCount_sha3 hsha3]
    simp only [countFormula, hsha3]
  · rw [hashCount_blake2 hblake2, pred_div_add_one (blockLen_pos alg)]
    obtain h | h := hblake2 <;> simp only [countFormula, h]

/-- Settles O56: the hash by its kind of padding, and HMAC by the lengths of what its hashes are given. -/
theorem compressionCounts : Obligations.CompressionCounts := by
  unfold Obligations.CompressionCounts
  refine fun alg hf => ⟨hashCount_eq_countFormula hf, fun key msg => ?_⟩
  simp only [hmacCount, hashCount_eq_countFormula hf, List.length_append, hmacPad_length hf, hash_length hf]
  split
  · next hshort => rw [if_neg hshort.not_gt]; omega
  · next hlong => rw [if_pos (Nat.lt_of_not_ge hlong)]; omega

end Sys2Proof.Proofs
end

section
/-! PROOF. The command words that do not decode (spec 60_exceptions.md R447), by the two forms of R117 and the reserved
opcodes, and the ENGINE step on one. -/

namespace Sys2Proof.Proofs

open Sys2Proof Sys2Proof.Machine Sys2Proof.Laws

/-! ### What each form rejects -/

section
variable {w : BitVec 32}

theorem decodeAlgForm_error (make : Alg → Instr) :
    (∃ e, decodeAlgForm make w = .error e) ↔
      fieldRsv w ≠ 0 ∨ (fieldAlg w < 0x01 ∨ 0x0E < fieldAlg w) ∨ fieldCtx w ≠ 0 := by
  rw [← algOfId_eq_none]
  unfold decodeAlgForm
  by_cases hr : fieldRsv w = 0
  · cases ha : algOfId (fieldAlg w) with
    | none => simp [hr]
    | some alg => by_cases hc : fieldCtx w = 0 <;> simp [hr, hc]
  · simp [hr]

theorem decodeCtxForm_error (make : Nat → Instr) :
    (∃ e, decodeCtxForm make w = .error e) ↔ fieldRsv w ≠ 0 ∨ fieldAlg w ≠ 0 := by
  unfold decodeCtxForm
  by_cases hr : fieldRsv w = 0 <;> by_cases ha : fieldAlg w = 0 <;> simp [hr, ha]

/-- ALLOC, ONESHOT and HMAC use ALG (R112). -/
theorem decode_eq_algForm (h : fieldOpc w = 0x01 ∨ fieldOpc w = 0x08 ∨ fieldOpc w = 0x09) :
    ∃ make, decode w = decodeAlgForm make w := by
  unfold decode
  obtain h | h | h := h <;> rw [h] <;> exact ⟨_, rfl⟩

/-- The six commands between them use CTX (R112). -/
theorem decode_eq_ctxForm (hlo : 0x02 ≤ fieldOpc w) (hhi : fieldOpc w ≤ 0x07) :
    ∃ make, decode w = decodeCtxForm make w := by
  unfold decode
  generalize fieldOpc w = opc at *
  interval_cases opc <;> exact ⟨_, rfl⟩

theorem decode_reservedOpcode (h : fieldOpc w = 0x00 ∨ 0x0A ≤ fieldOpc w) : decode w = .error .reservedOpcode := by
  unfold decode
  split
  case h_10 => rfl
  all_goals omega

/-- R447's list. -/
theorem decode_error_iff_fields :
    (∃ e, decode w = .error e) ↔
      (fieldOpc w = 0x00 ∨ 0x0A ≤ fieldOpc w) ∨ fieldRsv w ≠ 0 ∨
      ((fieldOpc w = 0x01 ∨ fieldOpc w = 0x08 ∨ fieldOpc w = 0x09) ∧
        (fieldAlg w < 0x01 ∨ 0x0E < fieldAlg w ∨ fieldCtx w ≠ 0)) ∨
      (0x02 ≤ fieldOpc w ∧ fieldOpc w ≤ 0x07 ∧ fieldAlg w ≠ 0) := by
  have hopc : (fieldOpc w = 0x00 ∨ 0x0A ≤ fieldOpc w) ∨
      (fieldOpc w = 0x01 ∨ fieldOpc w = 0x08 ∨ fieldOpc w = 0x09) ∨ (0x02 ≤ fieldOpc w ∧ fieldOpc w ≤ 0x07) := by omega
  obtain h | h | ⟨hlo, hhi⟩ := hopc
  · exact iff_of_true ⟨_, decode_reservedOpcode h⟩ (.inl h)
  · obtain ⟨make, hd⟩ := decode_eq_algForm h
    rw [hd, decodeAlgForm_error]
    omega
  · obtain ⟨make, hd⟩ := decode_eq_ctxForm hlo hhi
    rw [hd, decodeCtxForm_error]
    omega

end

/-- ENGINE completes a word that does not decode with IllegalCommand (R361, R447). -/
theorem engineStep_of_decode_error {s : State} {l : Latch} {e : Illegal} (hl : s.latch = some l)
    (he : decode l.word = .error e) : engineStep s = .next (complete s .illegalCommand) := by
  simp only [engineStep, hl, he]

/-- Settles O3: R447's list on the four fields, and the completion of an illegal word. -/
theorem illegalCommandWords : Obligations.IllegalCommandWords := by
  unfold Obligations.IllegalCommandWords
  exact fun w => ⟨decode_error_iff_fields, fun s args e hl he => engineStep_of_decode_error hl he⟩

end Sys2Proof.Proofs
end

section
/-! PROOF. What a step can do to STATUS and to the interrupt enable: the interrupt line (spec 60_exceptions.md R453) and
the sticky OVERRUN (R449). -/

namespace Sys2Proof.Proofs

open Sys2Proof Sys2Proof.Machine Sys2Proof.Laws

/-! ### What a step can do to STATUS and IRQ_EN -/

/-- The inversion lemma of register writes: CMD, IRQ_EN, or the argument registers only (R30, R31). -/
theorem writeReg_cases (s : State) (width offset : Nat) (v : Word64) :
    writeReg s width offset v = writeCmd s v ∨
    (width = 64 ∧ offset = 0x40 ∧ writeReg s width offset v = { s with irqEn := v.getLsbD 0 }) ∨
    ∃ regs, writeReg s width offset v = { s with regs := regs } := by
  unfold writeReg
  split
  · next hw =>
    split
    case h_1 => exact .inl rfl
    case h_8 => exact .inr (.inl ⟨hw, rfl, rfl⟩)
    all_goals exact .inr (.inr ⟨_, rfl⟩)
  · exact .inr (.inr ⟨_, rfl⟩)

/-- A HOST byte read leaves STATUS and IRQ_EN (R87). -/
theorem hostLoad_status_irqEn (s : State) (addr : Word64) :
    (hostLoad s addr).status = s.status ∧ (hostLoad s addr).irqEn = s.irqEn := by
  unfold hostLoad
  split
  · exact ⟨rfl, rfl⟩
  · split <;> exact ⟨rfl, rfl⟩

/-- The inversion lemma of HOST's operations, for STATUS and IRQ_EN: only a register write, or ENGINE's step that a WAIT
gives way to, can change them. -/
theorem hostStep_cases {op : HostOp} {rest : List Event} {s t : State} (ht : hostStep op rest s = .next t) :
    engineStep s = .next t ∨
    (∃ width offset v, op = .regWrite width offset v ∧ t = writeReg { s with agenda := rest } width offset v) ∨
    (t.status = s.status ∧ t.irqEn = s.irqEn) := by
  cases op with
  | regRead width offset => cases ht; exact .inr (.inr ⟨rfl, rfl⟩)
  | regWrite width offset v => cases ht; exact .inr (.inl ⟨_, _, _, rfl, rfl⟩)
  | memRead addr => cases ht; exact .inr (.inr (hostLoad_status_irqEn _ addr))
  | memWrite addr b => cases ht; exact .inr (.inr ⟨rfl, rfl⟩)
  | wait =>
    simp only [hostStep, hostWait] at ht
    split at ht
    · exact .inl ht
    · cases ht; exact .inr (.inr ⟨rfl, rfl⟩)
  | expect code =>
    simp only [hostStep, hostExpect] at ht
    split at ht
    · cases ht; exact .inr (.inr ⟨rfl, rfl⟩)
    · cases ht

/-- The inversion lemma of a step, for STATUS and IRQ_EN: device reset, ENGINE's step, a register write, or neither
changes (R87). -/
theorem step_cases {s t : State} (ht : step s = .next t) :
    (∃ rest, s.agenda = .deviceReset :: rest ∧ t = resetStep { s with agenda := rest }) ∨
    (∃ rest, engineStep { s with agenda := rest } = .next t) ∨
    (∃ width offset v rest, s.agenda = .host (.regWrite width offset v) :: rest ∧
      t = writeReg { s with agenda := rest } width offset v) ∨
    (t.status = s.status ∧ t.irqEn = s.irqEn) := by
  unfold step at ht
  split at ht
  · exact .inr (.inl ⟨s.agenda, ht⟩)
  · next rest _ => exact .inr (.inl ⟨rest, ht⟩)
  · next rest ha => cases ht; exact .inl ⟨rest, ha, rfl⟩
  · next op rest ha =>
    obtain he | ⟨width, offset, v, rfl, rfl⟩ | hsame := hostStep_cases ht
    · exact .inr (.inl ⟨s.agenda, he⟩)
    · exact .inr (.inr (.inl ⟨width, offset, v, rest, ha, rfl⟩))
    · exact .inr (.inr (.inr hsame))

/-! ### The interrupt line -/

theorem irqLine_congr {s t : State} (hst : t.status = s.status) (hen : t.irqEn = s.irqEn) : irqLine t = irqLine s := by
  rw [irqLine, irqLine, hst, hen]

/-- While IDLE there is no ENGINE step (R361). -/
theorem engineStep_idle {s : State} (hl : s.latch = none) : engineStep s = .next s := by
  simp only [engineStep, hl]

/-- The ENGINE step on a latched command completes it, with the line as IRQ_EN says (R453). -/
theorem engineStep_completes {s t : State} (hl : s.latch ≠ none) (ht : engineStep s = .next t) :
    t.latch = none ∧ irqLine t = s.irqEn := by
  obtain ⟨hn, -⟩ | ⟨l, e, -, -, rfl⟩ | ⟨l, i, -, -, rfl⟩ := engineStep_cases ht
  · exact absurd hn hl
  · exact ⟨rfl, rfl⟩
  · exact ⟨commit_latch _ _, irqLine_commit _ _⟩

theorem irqLine_writeCmd_idle {s : State} (h : s.latch = none) (v : Word64) : irqLine (writeCmd s v) = false := by
  rw [writeCmd_idle h]
  rfl

/-- A CMD write does not raise the line: acceptance lowers it, and OVERRUN does not count (R453). -/
theorem irqLine_of_writeCmd {s : State} {v : Word64} (h : irqLine (writeCmd s v) = true) : irqLine s = true := by
  by_cases hl : s.latch = none
  · rw [irqLine_writeCmd_idle hl] at h
    cases h
  · rw [writeCmd_latched hl] at h
    exact h

/-- A step that raises the line completes a command or enables the line while DONE (R453). -/
theorem step_raises_irqLine {s t : State} (ht : step s = .next t) (hs : irqLine s = false) (hr : irqLine t = true) :
    (s.latch ≠ none ∧ t.latch = none) ∨
    ∃ v rest, s.agenda = .host (.regWrite 64 0x40 v) :: rest ∧ s.status.done = true ∧ v.getLsbD 0 = true := by
  have hnot : irqLine s ≠ true := by simp [hs]
  obtain ⟨rest, -, rfl⟩ | ⟨rest, he⟩ | ⟨width, offset, v, rest, ha, rfl⟩ | ⟨hst, hen⟩ := step_cases ht
  · cases hr
  · by_cases hl : s.latch = none
    · rw [engineStep_idle (s := { s with agenda := rest }) hl] at he
      cases he
      exact absurd hr hnot
    · exact .inl ⟨hl, (engineStep_completes (s := { s with agenda := rest }) hl he).1⟩
  · obtain hw | ⟨rfl, rfl, hw⟩ | ⟨regs, hw⟩ := writeReg_cases { s with agenda := rest } width offset v
    · rw [hw] at hr
      exact absurd (irqLine_of_writeCmd hr) hnot
    · rw [hw] at hr
      obtain ⟨hdone, hbit⟩ := (Bool.and_eq_true _ _).mp hr
      exact .inr ⟨v, rest, ha, hdone, hbit⟩
    · rw [hw] at hr
      exact absurd hr hnot
  · exact absurd ((irqLine_congr hst hen).symm.trans hr) hnot

/-- Settles O9: the line after each kind of step that moves it, and the only two that raise it. -/
theorem interruptLineLifecycle : Obligations.InterruptLineLifecycle := by
  unfold Obligations.InterruptLineLifecycle
  refine ⟨fun s t hl ht => (engineStep_completes hl ht).2, fun s v hl => irqLine_writeCmd_idle hl v,
    fun s t rest ha ht => ?reset, fun s v => rfl, fun s t width o rest ha ht => ?read,
    fun s t => step_raises_irqLine⟩
  case reset =>
    rw [step_of_deviceReset ha] at ht
    cases ht
    rfl
  case read =>
    rw [step_of_host ha] at ht
    cases ht
    rfl

/-! ### OVERRUN -/

/-- ENGINE's step leaves OVERRUN (R449). -/
theorem engineStep_overrun {s t : State} (ht : engineStep s = .next t) : t.status.overrun = s.status.overrun := by
  obtain ⟨-, rfl⟩ | ⟨l, e, -, -, rfl⟩ | ⟨l, i, -, -, rfl⟩ := engineStep_cases ht
  · rfl
  · rfl
  · exact commit_overrun s _

theorem writeCmd_overrun {s : State} (h : s.status.overrun = true) (v : Word64) :
    (writeCmd s v).status.overrun = true := by
  by_cases hl : s.latch = none
  · rw [writeCmd_idle hl]
    exact h
  · rw [writeCmd_latched hl]

/-- No register write clears OVERRUN (R449). -/
theorem writeReg_overrun {s : State} (h : s.status.overrun = true) (width offset : Nat) (v : Word64) :
    (writeReg s width offset v).status.overrun = true := by
  obtain hw | ⟨-, -, hw⟩ | ⟨regs, hw⟩ := writeReg_cases s width offset v <;> rw [hw]
  · exact writeCmd_overrun h v
  · exact h
  · exact h

/-- Settles O13: a CMD write while latched, and what each step that is not device reset does to OVERRUN. -/
theorem overrunIsSticky : Obligations.OverrunIsSticky := by
  unfold Obligations.OverrunIsSticky
  refine ⟨fun s v hl => (writeReg_cmd s v).trans (writeCmd_latched hl v), fun s t ho hno ht => ?sticky,
    fun s t rest ha ht => ?reset⟩
  case sticky =>
    obtain ⟨rest, ha, -⟩ | ⟨rest, he⟩ | ⟨width, offset, v, rest, -, rfl⟩ | ⟨hst, -⟩ := step_cases ht
    · exact absurd ha (hno rest)
    · exact (engineStep_overrun he).trans ho
    · exact writeReg_overrun (s := { s with agenda := rest }) ho width offset v
    · rwa [hst]
  case reset =>
    rw [step_of_deviceReset ha] at ht
    cases ht
    rfl

end Sys2Proof.Proofs
end

section
/-! PROOF. The check order of a command (spec 60_exceptions.md R451) decides its status: the failure of a command's result
is the first check that fails. What fails changes only the status and reads no host memory (R441). -/

namespace Sys2Proof.Proofs

open Sys2Proof Sys2Proof.Machine Sys2Proof.Laws

/-! ### The failure of a result -/

/-- The code that a failing result fails with; `none` for a success. -/
def failure : Except StatusCode Effect → Option StatusCode
  | .error code => some code
  | .ok _ => none

theorem failure_eq_some_iff {res : Except StatusCode Effect} {code : StatusCode} :
    failure res = some code ↔ res = .error code := by
  cases res <;> simp [failure]

theorem resultCode_eq_getD (res : Except StatusCode Effect) : resultCode res = (failure res).getD .success := by
  cases res <;> rfl

/-- A check fails with its code, or leaves it to the checks after it. -/
theorem failure_check (p : Prop) [Decidable p] (code : StatusCode) (res : Except StatusCode Effect) :
    failure (if p then .error code else res) = if p then some code else failure res := apply_ite ..

/-- The check of the ranges is the last of the commands that have one (R451). -/
theorem failure_rangeCheck (p : Prop) [Decidable p] (e : Effect) :
    failure (if p then .ok e else .error .busError) = if ¬p then some .busError else none := by
  rw [apply_ite failure, ite_not]
  rfl

/-! ### The first check that fails -/

/-- R451's order written as a chain of checks. -/
theorem firstFailure_eq (i : Instr) (s : State) :
    firstFailure i s =
      if contextMissing i s then some .invalidContext
      else if wrongClass i s then some .invalidAlgorithm
      else if zeroLength i s then some .invalidLength
      else if tooLong i s then some .maximumLengthExceeded
      else if rangeRefused i s then some .busError
      else if noFreeSlot i s then some .outOfMemory
      else none := by
  simp only [firstFailure, List.cons_append, List.nil_append, List.findSome?_cons, List.findSome?_nil]
  split_ifs <;> rfl

theorem contextMissing_iff {i : Instr} {s : State} :
    contextMissing i s = true ↔ ∃ c, namedSlot i = some c ∧ slot s c = none := by
  simp [contextMissing, Option.any_eq_true]

/-- Where no context is missing, the slot that a command names holds one. -/
theorem slot_of_not_contextMissing {i : Instr} {s : State} {c : Nat} (h : ¬contextMissing i s = true)
    (hi : namedSlot i = some c) : ∃ k, slot s c = some k :=
  Option.ne_none_iff_exists'.1 fun hc => h (contextMissing_iff.2 ⟨c, hi, hc⟩)

theorem isShake_eq (alg : Alg) : isShake alg = decide (algFamily alg = .shake) := by cases alg <;> rfl

theorem all_isSome_eq (s : State) : s.ctx.all Option.isSome = (freeSlot s).isNone := by
  rw [freeSlot, Bool.eq_iff_iff]
  simp [Option.isSome_iff_ne_none]

/-- A command's result fails with the first check of R451 that fails. -/
theorem failure_commandResult (i : Instr) (s : State) : failure (commandResult i s) = firstFailure i s := by
  rw [firstFailure_eq]
  by_cases hm : contextMissing i s = true
  · obtain ⟨c, hi, hc⟩ := contextMissing_iff.1 hm
    rw [if_pos hm, commandResult_of_slot_none hi hc]
    rfl
  rw [if_neg hm]
  have hheld {c : Nat} := slot_of_not_contextMissing (c := c) hm
  cases i with
  | alloc alg =>
    simp only [noFreeSlot, all_isSome_eq]
    cases hn : freeSlot s with
    | none => rw [allocResult_of_full hn]; rfl
    | some n => rw [allocResult_of_freeSlot hn]; rfl
  | reset c =>
    obtain ⟨k, hk⟩ := hheld rfl
    rw [resetResult_of_held hk]
    rfl
  | update c =>
    obtain ⟨k, hk⟩ := hheld rfl
    simp only [commandResult, updateResult, hk, failure_check, failure_rangeCheck]
    simp [wrongClass, zeroLength, tooLong, rangeRefused, rangesOf, noFreeSlot, hk]
  | digest c =>
    obtain ⟨k, hk⟩ := hheld rfl
    simp only [commandResult, digestResult, hk, failure_check, failure_rangeCheck]
    simp [wrongClass, commandAlg, isShake_eq, zeroLength, tooLong, rangeRefused, rangesOf, noFreeSlot, hk]
  | squeeze c =>
    obtain ⟨k, hk⟩ := hheld rfl
    simp only [commandResult, squeezeResult, hk, failure_check, failure_rangeCheck]
    simp [wrongClass, commandAlg, isShake_eq, zeroLength, tooLong, rangeRefused, rangesOf, noFreeSlot, hk]
  | copy c =>
    obtain ⟨k, hk⟩ := hheld rfl
    simp only [noFreeSlot, all_isSome_eq]
    cases hn : freeSlot s with
    | none => rw [copyResult_of_full hk hn]; rfl
    | some n => rw [copyResult_of_freeSlot hk hn]; rfl
  | release c =>
    obtain ⟨k, hk⟩ := hheld rfl
    rw [releaseResult_of_held hk]
    rfl
  | oneshot alg =>
    simp only [commandResult, oneshotResult, failure_check, failure_rangeCheck]
    simp [wrongClass, commandAlg, isShake_eq, zeroLength, tooLong, rangeRefused, rangesOf, noFreeSlot, not_and_or,
      -not_and]
  | hmac alg =>
    simp only [commandResult, hmacResult, hmacTooLong_iff, failure_check, failure_rangeCheck]
    simp [wrongClass, commandAlg, isShake_eq, zeroLength, tooLong, rangeRefused, rangesOf, noFreeSlot, not_and_or,
      or_assoc, -not_and]

theorem resultCode_commandResult (i : Instr) (s : State) :
    resultCode (commandResult i s) = (firstFailure i s).getD .success := by
  rw [resultCode_eq_getD, failure_commandResult]

/-- Settles O27: a word that does not decode completes at once, and any command with its result's code. -/
theorem checkOrderDecidesStatus : Obligations.CheckOrderDecidesStatus := by
  unfold Obligations.CheckOrderDecidesStatus
  have hexec (i : Instr) (s : State) :
      ∃ t, exec i s = .next t ∧ t.status.code = codeNumber ((firstFailure i s).getD .success) :=
    ⟨_, exec_eq i s, by rw [commit_code, resultCode_commandResult]⟩
  refine ⟨fun s l hl => ?_, hexec⟩
  cases hd : decode l.word with
  | error e => exact ⟨_, engineStep_of_decode_error hl hd, rfl⟩
  | ok i =>
    rw [engineStep_of_decode hl hd]
    exact hexec i s

/-! ### Failing commands -/

section
variable {i : Instr} {s t : State}

/-- A command reports a code other than Success exactly when that is the first check that fails. -/
theorem code_eq_iff_firstFailure (ht : exec i s = .next t) {code : StatusCode} (hne : code ≠ .success) :
    t.status.code = codeNumber code ↔ firstFailure i s = some code := by
  rw [exec_eq] at ht
  cases ht
  rw [commit_code, resultCode_commandResult]
  constructor
  · intro h
    have hcode := codeNumber_inj h
    cases hf : firstFailure i s with
    | none => rw [hf] at hcode; exact absurd hcode.symm hne
    | some c => rw [hf] at hcode; exact congrArg some hcode
  · intro h
    rw [h]
    rfl

/-- No check looks at host memory (R441). -/
theorem firstFailure_withMem (i : Instr) (s : State) (m : Memory) :
    firstFailure i { s with mem := m } = firstFailure i s := rfl

/-- A failing command completes with its code and does nothing else (R441). -/
theorem exec_of_firstFailure {code : StatusCode} (h : firstFailure i s = some code) :
    exec i s = .next (complete s code) :=
  exec_of_result (failure_eq_some_iff.1 ((failure_commandResult i s).trans h))

/-- A command whose code is not Success's fails a check. -/
theorem exists_firstFailure (ht : exec i s = .next t) (h : t.status.code ≠ 0x00) :
    ∃ code, firstFailure i s = some code := by
  rw [exec_eq] at ht
  cases ht
  rw [commit_code, resultCode_commandResult] at h
  refine Option.ne_none_iff_exists'.1 fun hn => h ?_
  rw [hn]
  rfl

end

/-- Settles O15: a failing command is a completion, and its check fails whatever memory holds. -/
theorem failedCommandHasNoEffect : Obligations.FailedCommandHasNoEffect := by
  unfold Obligations.FailedCommandHasNoEffect
  intro i s t ht hcode
  obtain ⟨code, hf⟩ := exists_firstFailure ht hcode
  rw [exec_of_firstFailure hf] at ht
  cases ht
  exact ⟨rfl, fun m => exec_of_firstFailure ((firstFailure_withMem i s m).trans hf)⟩

end Sys2Proof.Proofs
end

section
/-! PROOF. The causes of the status codes (spec 60_exceptions.md R443 to R448): each code is that of one check, when the
checks before it pass. -/

namespace Sys2Proof.Proofs

open Sys2Proof Sys2Proof.Machine Sys2Proof.Laws

/-! ### Which check gives which code -/

section
variable {i : Instr} {s : State}

theorem firstFailure_eq_invalidContext : firstFailure i s = some .invalidContext ↔ contextMissing i s = true := by
  rw [firstFailure_eq]
  split_ifs <;> simp_all

theorem firstFailure_eq_invalidAlgorithm :
    firstFailure i s = some .invalidAlgorithm ↔ contextMissing i s = false ∧ wrongClass i s = true := by
  rw [firstFailure_eq]
  split_ifs <;> simp_all

theorem firstFailure_eq_invalidLength :
    firstFailure i s = some .invalidLength ↔
      contextMissing i s = false ∧ wrongClass i s = false ∧ zeroLength i s = true := by
  rw [firstFailure_eq]
  split_ifs <;> simp_all

theorem firstFailure_eq_maximumLengthExceeded :
    firstFailure i s = some .maximumLengthExceeded ↔
      contextMissing i s = false ∧ wrongClass i s = false ∧ zeroLength i s = false ∧ tooLong i s = true := by
  rw [firstFailure_eq]
  split_ifs <;> simp_all

theorem firstFailure_eq_outOfMemory :
    firstFailure i s = some .outOfMemory ↔
      contextMissing i s = false ∧ wrongClass i s = false ∧ zeroLength i s = false ∧ tooLong i s = false ∧
        rangeRefused i s = false ∧ noFreeSlot i s = true := by
  rw [firstFailure_eq]
  split_ifs <;> simp_all

end

/-! ### InvalidContext -/

/-- A named slot is missing when its number is NCTX or more or it is free (R448). -/
theorem contextMissing_iff_of_namedSlot {i : Instr} {s : State} {c : Nat} (hi : namedSlot i = some c) :
    contextMissing i s = true ↔ s.ctx.length ≤ c ∨ s.ctx[c]? = some none := by
  rw [← slot_none_iff, contextMissing_iff, hi]
  simp

theorem contextMissing_of_namedSlot_none {i : Instr} (hi : namedSlot i = none) (s : State) :
    contextMissing i s = false := by
  rw [contextMissing, hi]
  rfl

/-- Settles O28: the code is that of check 2, which looks at the named slot if there is one. -/
theorem invalidContextCause : Obligations.InvalidContextCause := by
  unfold Obligations.InvalidContextCause
  have hcode {i : Instr} {s t : State} (ht : exec i s = .next t) : t.status.code = 0x11 ↔ contextMissing i s = true :=
    (code_eq_iff_firstFailure ht (code := .invalidContext) (by decide)).trans firstFailure_eq_invalidContext
  refine ⟨fun s t c i hi ht => ?_, fun s t alg i hi ht => ?_⟩
  · have hnamed : namedSlot i = some c := by
      simp only [List.mem_cons, List.not_mem_nil, or_false] at hi
      obtain rfl | rfl | rfl | rfl | rfl | rfl := hi <;> rfl
    exact (hcode ht).trans (contextMissing_iff_of_namedSlot hnamed)
  · have hnamed : namedSlot i = none := by
      simp only [List.mem_cons, List.not_mem_nil, or_false] at hi
      obtain rfl | rfl | rfl := hi <;> rfl
    rw [Ne, hcode ht, contextMissing_of_namedSlot_none hnamed]
    exact Bool.false_ne_true

/-! ### InvalidAlgorithm -/

section
variable {i : Instr} {s : State}

theorem isShake_iff {alg : Alg} : isShake alg = true ↔ alg = .shake128 ∨ alg = .shake256 := decide_eq_true_iff

/-- Check 3, command by command (R443). -/
theorem wrongClass_iff :
    wrongClass i s = true ↔
      (∃ c k, i = .digest c ∧ slot s c = some k ∧ (k.alg = .shake128 ∨ k.alg = .shake256)) ∨
      (∃ c k, i = .squeeze c ∧ slot s c = some k ∧ k.alg ≠ .shake128 ∧ k.alg ≠ .shake256) ∨
      (∃ alg, (i = .oneshot alg ∨ i = .hmac alg) ∧ (alg = .shake128 ∨ alg = .shake256)) := by
  cases i with
  | digest c => simp [wrongClass, commandAlg, Option.any_eq_true, isShake_iff]
  | squeeze c => simp [wrongClass, commandAlg, Option.any_eq_true, ← Bool.not_eq_true, isShake_iff]
  | oneshot alg => simp [wrongClass, commandAlg, isShake_iff]
  | hmac alg => simp [wrongClass, commandAlg, isShake_iff]
  | _ => simp [wrongClass]

/-- Check 3 looks at a context's algorithm, so it fails only where a context is held. -/
theorem not_contextMissing_of_wrongClass (h : wrongClass i s = true) : contextMissing i s = false := by
  obtain ⟨c, k, rfl, hk, -⟩ | ⟨c, k, rfl, hk, -⟩ | ⟨alg, rfl | rfl, -⟩ := wrongClass_iff.1 h
  · simp [contextMissing, namedSlot, hk]
  · simp [contextMissing, namedSlot, hk]
  · rfl
  · rfl

end

/-- Settles O29: the code is that of check 3, and decoding rejects the other algorithm ids. -/
theorem invalidAlgorithmCause : Obligations.InvalidAlgorithmCause := by
  unfold Obligations.InvalidAlgorithmCause
  refine ⟨fun i s t ht => ?_, fun w hopc halg => ?_⟩
  · refine (code_eq_iff_firstFailure ht (code := .invalidAlgorithm) (by decide)).trans ?_
    rw [firstFailure_eq_invalidAlgorithm, and_iff_right_of_imp not_contextMissing_of_wrongClass, wrongClass_iff]
  · have hform : fieldOpc w = 0x01 ∨ fieldOpc w = 0x08 ∨ fieldOpc w = 0x09 := by
      have hmem : fieldOpc w ∈ [0x01, 0x08, 0x09] := hopc
      simpa using hmem
    have hreserved : fieldAlg w < 0x01 ∨ 0x0E < fieldAlg w := halg.imp_left Nat.lt_one_iff.2
    obtain ⟨make, hd⟩ := decode_eq_algForm hform
    exact hd ▸ (decodeAlgForm_error make).2 (.inr (.inl hreserved))

/-! ### InvalidLength -/

/-- Settles O30: check 4 is SQUEEZE's, and the two checks before it say that its slot holds a SHAKE context. -/
theorem invalidLengthCause : Obligations.InvalidLengthCause := by
  unfold Obligations.InvalidLengthCause
  intro i s t ht
  refine (code_eq_iff_firstFailure ht (code := .invalidLength) (by decide)).trans ?_
  rw [firstFailure_eq_invalidLength]
  cases i with
  | squeeze c =>
    have hzero : (commandArgs s).dstLen.toNat = 0 ↔ (commandArgs s).dstLen = 0 := BitVec.toNat_inj (y := 0)
    cases hk : slot s c with
    | none => simp [contextMissing, namedSlot, hk]
    | some k => simp [contextMissing, namedSlot, wrongClass, commandAlg, isShake_eq, zeroLength, hk, hzero]
  | _ => simp [zeroLength]

/-! ### MaximumLengthExceeded -/

/-- Settles O31: check 5 on the three commands that have it, with what the checks before it leave of each. -/
theorem maximumLengthCause : Obligations.MaximumLengthCause := by
  unfold Obligations.MaximumLengthCause
  intro i s t ht
  refine (code_eq_iff_firstFailure ht (code := .maximumLengthExceeded) (by decide)).trans ?_
  rw [firstFailure_eq_maximumLengthExceeded]
  cases i with
  | update c =>
    cases hk : slot s c with
    | none => simp [contextMissing, namedSlot, hk]
    | some k => simp [contextMissing, namedSlot, wrongClass, zeroLength, tooLong, hk]
  | oneshot alg => simp [contextMissing, namedSlot, wrongClass, commandAlg, isShake_eq, zeroLength, tooLong]
  | hmac alg => simp [contextMissing, namedSlot, wrongClass, commandAlg, isShake_eq, zeroLength, tooLong]
  | _ => simp [tooLong]

/-! ### OutOfMemory -/

/-- No slot is free when every slot holds a context (R36). -/
theorem all_isSome_iff (s : State) : s.ctx.all Option.isSome = true ↔ ∀ j, j < s.ctx.length → slot s j ≠ none := by
  rw [all_isSome_eq, Option.isNone_iff_eq_none, freeSlot_none_iff]

/-- Settles O32: check 7 is ALLOC's and COPY's, which of the checks before it have only check 2. -/
theorem outOfMemoryCause : Obligations.OutOfMemoryCause := by
  unfold Obligations.OutOfMemoryCause
  intro i s t ht
  refine (code_eq_iff_firstFailure ht (code := .outOfMemory) (by decide)).trans ?_
  rw [firstFailure_eq_outOfMemory, ← all_isSome_iff]
  cases i with
  | alloc alg => simp [contextMissing, namedSlot, wrongClass, zeroLength, tooLong, rangeRefused, rangesOf, noFreeSlot]
  | copy c =>
    cases hk : slot s c with
    | none => simp [contextMissing, namedSlot, hk]
    | some k =>
      simp [contextMissing, namedSlot, wrongClass, zeroLength, tooLong, rangeRefused, rangesOf, noFreeSlot, hk]
  | _ => simp [noFreeSlot]

end Sys2Proof.Proofs
end

section
/-! PROOF. The draws on output bytes: where a command's output lands over HOST's writes (spec 70_reset_and_hazards.md R497),
and what HOST reads of the output of a command in flight (R496, 20_memory.md R87). -/

namespace Sys2Proof.Proofs

open Sys2Proof Sys2Proof.Machine Sys2Proof.Laws

/-! ### Landing over HOST's writes -/

/-- A byte of a landed output: the command's, unless HOST wrote the address and the draw keeps HOST's (R497). -/
theorem readByte_landOutput_at {s : State} (hm : Memory.wf s.mem) {a j : Nat} {bs : List Byte} {b : Byte}
    (hb : bs[j]? = some b) :
    readByte (landOutput s (some ⟨a, bs⟩)) (a + j) =
      if heldAt s (a + j) && Config.outputDraw s.draws (a + j) then readByte s.mem (a + j) else b := by
  obtain ⟨hj, rfl⟩ := List.getElem?_eq_some_iff.1 hb
  have hin : a ≤ a + j ∧ a + j - a < bs.length := by omega
  rw [landOutput, readByte_landBytes hm, dif_pos hin]
  simp only [Nat.add_sub_cancel_left]

/-- A byte HOST writes while a command is latched is one HOST wrote during the command (R497). -/
theorem heldAt_hostStore {s : State} (h : s.latch ≠ none) (addr : Word64) (b : Byte) :
    heldAt (hostStore s addr b) addr.toNat = true := by
  rw [heldAt, hostStore_held h, List.any_cons, beq_self_eq_true, Bool.true_or]

/-! ### HOST's reads of an output in flight -/

theorem plannedOutput_idle {s : State} (h : s.latch = none) : plannedOutput s = none := by simp only [plannedOutput, h]

theorem plannedByte_idle {s : State} (h : s.latch = none) (a : Nat) : plannedByte s a = none := by
  simp only [plannedByte, plannedOutput_idle h]

theorem plannedByte_agenda (s : State) (agenda : List Event) (a : Nat) :
    plannedByte { s with agenda := agenda } a = plannedByte s a := by
  simp only [plannedByte, plannedOutput_agenda]

/-- The inversion lemma of HOST's byte read: it shows memory's byte, or the one the command in flight writes there, and then
fixes the command's inputs (R496). -/
theorem hostLoad_cases (s : State) (addr : Word64) :
    (∃ n, hostLoad s addr = answer { s with looks := n } ((readByte s.mem addr.toNat).setWidth 64)) ∨
    (∃ n v, plannedByte s addr.toNat = some v ∧
      hostLoad s addr = answer { fixInputs s with looks := n } (v.setWidth 64)) := by
  unfold hostLoad
  split
  · exact .inl ⟨s.looks, rfl⟩
  · next v hv =>
    split
    · exact .inr ⟨_, v, hv, rfl⟩
    · exact .inl ⟨_, rfl⟩

/-- Inputs that are fixed stay as they are when HOST sees another byte of the output. -/
theorem fixInputs_of_fixed {s : State} (h : s.view ≠ none) : fixInputs s = s := by
  obtain ⟨v, hv⟩ := Option.ne_none_iff_exists'.mp h
  simp only [fixInputs, inputView, hv, Option.getD_some]
  rw [← hv]

theorem hostLoad_of_fixed {s : State} (h : s.view ≠ none) (addr : Word64) :
    ∃ n v, hostLoad s addr = answer { s with looks := n } v := by
  obtain ⟨n, hload⟩ | ⟨n, v, -, hload⟩ := hostLoad_cases s addr
  · exact ⟨n, _, hload⟩
  · rw [fixInputs_of_fixed h] at hload
    exact ⟨n, _, hload⟩

/-- Once the inputs are fixed, what the command in flight would write depends on neither memory nor the values HOST has
overwritten (R496). -/
theorem plannedOutput_of_fixed {s t : State} (hfix : s.view ≠ none) (hv : t.view = s.view) (hl : t.latch = s.latch)
    (hc : t.ctx = s.ctx) (hr : t.status.resultCtx = s.status.resultCtx) (hp : t.platform = s.platform)
    (hd : t.draws = s.draws) : plannedOutput t = plannedOutput s ∧ t.view ≠ none := by
  obtain ⟨v, hsv⟩ := Option.ne_none_iff_exists'.mp hfix
  have hview : inputView t = inputView s := by simp only [inputView, hv, hsv, Option.getD_some]
  exact ⟨plannedOutput_congr hl hc hr hp hview hd, by rwa [hv]⟩

/-- What HOST has seen of the output stays what the command would write, whatever HOST does but wait for its end (R496). -/
theorem hostStep_keeps_fixed_output {s t : State} {op : HostOp} {rest : List Event} (hfix : s.view ≠ none)
    (hl : s.latch ≠ none) (ht : hostStep op rest s = .next t) (hlt : t.latch ≠ none) :
    plannedOutput t = plannedOutput s ∧ t.view ≠ none := by
  cases op with
  | regRead width offset => cases ht; exact plannedOutput_of_fixed hfix rfl rfl rfl rfl rfl rfl
  | regWrite width offset v =>
    obtain ⟨regs, en, ov, hw⟩ := writeReg_of_latched (s := { s with agenda := rest }) hl width offset v
    cases (congrArg Host.Outcome.next hw).symm.trans ht
    exact plannedOutput_of_fixed hfix rfl rfl rfl rfl rfl rfl
  | memRead addr =>
    obtain ⟨n, v, hload⟩ := hostLoad_of_fixed (s := { s with agenda := rest }) hfix addr
    cases (congrArg Host.Outcome.next hload).symm.trans ht
    exact plannedOutput_of_fixed hfix rfl rfl rfl rfl rfl rfl
  | memWrite addr b => cases ht; exact plannedOutput_of_fixed hfix rfl rfl rfl rfl rfl rfl
  | wait =>
    simp only [hostStep, hostWait] at ht
    split at ht
    · exact absurd (engineStep_completes hl ht).1 hlt
    · cases ht; exact plannedOutput_of_fixed hfix rfl rfl rfl rfl rfl rfl
  | expect code =>
    simp only [hostStep, hostExpect] at ht
    split at ht
    · cases ht; exact plannedOutput_of_fixed hfix rfl rfl rfl rfl rfl rfl
    · cases ht

/-! ### The obligations on output bytes -/

/-- Settles O38: the landing outside the range, at a byte of it, and the byte HOST writes during a command. -/
theorem racedOutputBytes : Obligations.RacedOutputBytes := by
  unfold Obligations.RacedOutputBytes
  refine ⟨fun s a bs hm => ⟨fun x hx => readByte_landBytes_outside s s.mem a bs hx, fun j b hb => ?_⟩,
    fun s addr b hm hl => ⟨heldAt_hostStore hl addr b, ?_⟩⟩
  · rw [readByte_landOutput_at hm hb]
    refine ⟨fun hnot => by rw [hnot, Bool.false_and]; rfl, fun _ => ?_⟩
    split
    · exact .inl rfl
    · exact .inr rfl
  · exact (readByte_writeByte hm addr.toNat b addr.toNat).trans (if_pos rfl)

/-- Settles O40: HOST's read by what it shows, HOST's steps once the inputs are fixed, and the landing. -/
theorem hostReadOfRunningOutput : Obligations.HostReadOfRunningOutput := by
  unfold Obligations.HostReadOfRunningOutput
  refine ⟨fun s addr rest ha => ⟨_, step_of_host ha, ?read⟩, fun s t op rest hfix hl ha ht hlt => ?fixed,
    fun s t o ho ht => engineStep_planned ho ht⟩
  case read =>
    obtain ⟨n, hload⟩ | ⟨n, v, hv, hload⟩ := hostLoad_cases { s with agenda := rest } addr
    · rw [hload]
      exact ⟨.inl rfl, fun _ => rfl, rfl, rfl, rfl, rfl, rfl, rfl⟩
    · rw [hload]
      rw [plannedByte_agenda] at hv
      refine ⟨.inr ⟨v, hv, rfl, plannedOutput_congr rfl rfl rfl rfl rfl rfl, Option.some_ne_none _⟩, fun hl => ?_,
        rfl, rfl, rfl, rfl, rfl, rfl⟩
      rw [plannedByte_idle hl] at hv
      cases hv
  case fixed =>
    rw [step_of_host ha] at ht
    exact hostStep_keeps_fixed_output hfix hl ht hlt

end Sys2Proof.Proofs
end

section
/-! PROOF. Device reset at any point (spec 70_reset_and_hazards.md R490, R494) and the state after reset (R491). -/

namespace Sys2Proof.Proofs

open Sys2Proof Sys2Proof.Machine Sys2Proof.Laws

/-! ### Memory after a device reset -/

theorem outputByte_eq (o : Output) (a : Nat) :
    outputByte o a = if h : o.addr ≤ a ∧ a - o.addr < o.bytes.length then some (o.bytes[a - o.addr]'h.2) else none := by
  unfold outputByte
  by_cases h : o.addr ≤ a ∧ a - o.addr < o.bytes.length
  · rw [dif_pos h, if_pos h.1, List.getElem?_eq_getElem h.2]
  · rw [dif_neg h]
    split
    · exact List.getElem?_eq_none (by omega)
    · rfl

/-- A device reset leaves at each address that the command in flight would have written one of R494's two values, and
memory's byte at every other. -/
theorem readByte_resetStep {s : State} (hm : Memory.wf s.mem) (x : Nat) :
    readByte (resetStep s).mem x = (plannedByte s x).elim (readByte s.mem x) (abandonByte s x) := by
  rw [resetStep, deviceReset_mem, plannedByte]
  cases plannedOutput s with
  | none => rfl
  | some o =>
    simp only [abandonOutput, readByte_abandonBytes s hm, outputByte_eq]
    split <;> rfl

theorem resetStep_mem_idle {s : State} (h : s.latch = none) : (resetStep s).mem = s.mem := by
  rw [resetStep, deviceReset_mem, plannedOutput_idle h]
  rfl

theorem slot_of_ctx_replicate {s : State} {n : Nat} (h : s.ctx = List.replicate n none) (c : Nat) : slot s c = none := by
  rw [slot_eq, h, List.getD_eq_getElem?_getD, List.getElem?_replicate]
  split <;> rfl

theorem slot_reset (c : Nat) : slot State.reset c = none := slot_of_ctx_replicate rfl c

/-! ### The reset obligations -/

/-- Settles O41: the fields of a device reset, memory address by address, and the byte before the command. -/
theorem deviceResetClearsAll : Obligations.DeviceResetClearsAll := by
  unfold Obligations.DeviceResetClearsAll
  intro s rest hm ha
  refine ⟨⟨_, step_of_deviceReset ha, rfl, rfl, rfl, rfl, List.length_replicate, slot_of_ctx_replicate rfl,
      fun x v hv => ?planned, fun x hx => ?other, fun hl => resetStep_mem_idle hl⟩,
    fun hh x => byteBefore_of_not_held hh x, fun hl addr b x => byteBefore_hostStore hl addr b x⟩
  case planned =>
    rw [readByte_resetStep (s := { s with agenda := rest }) hm, plannedByte_agenda, hv]
    exact abandonByte_cases s x v
  case other =>
    rw [readByte_resetStep (s := { s with agenda := rest }) hm, plannedByte_agenda, hx]
    rfl

/-- Settles O42: the fields of the reset state, and its register block offset by offset. -/
theorem resetStateValues : Obligations.ResetStateValues := by
  unfold Obligations.ResetStateValues
  exact ⟨rfl, rfl, rfl, rfl, slot_reset, rfl, fun _ ho => readReg_reset ho, by rw [readReg_caps]; decide⟩

/-- Settles O43, field by field: memory is empty, ENGINE idle and no slot holds a context. -/
theorem resetStateMeetsInvariant : Obligations.ResetStateMeetsInvariant where
  memory := ⟨List.Pairwise.nil, fun _ hc => nomatch hc⟩
  bounded := fun _ hc => nomatch hc
  busy := rfl
  idleHeld := fun _ => ⟨rfl, rfl⟩
  viewHeld := fun _ hv => nomatch hv
  code := ⟨.success, rfl⟩
  slots := by decide
  resultCtx := by decide
  contexts := fun c _ hk => nomatch (slot_reset c).symm.trans hk

end Sys2Proof.Proofs
end
